-- ==== Sys2Proof/Word.lean ====
section
/-! DEFINITION. The bit-vector types of the block: bytes, instruction words and the fields of an instruction word
(spec/00_scope.md R8, R9; spec/30_encoding.md R71). Every value is unsigned (R9). -/

namespace Sys2Proof

/-- An 8-bit value: a general register, a timer, a byte of the address space (R20, R30, R31, R50). -/
abbrev Byte := BitVec 8

/-- A 16-bit value: an instruction word, `pc`, `I`, a stack slot (R13, R23, R27, R28). -/
abbrev Word := BitVec 16

/-- A 4-bit field: the family `F`, a register number `X` or `Y`, the height `N` (R71). Every value of `X` and `Y` is a valid
register, 0xF included (R73). -/
abbrev Nibble := BitVec 4

/-- The 12-bit address immediate `NNN` (R71). -/
abbrev Addr12 := BitVec 12

end Sys2Proof
end

