-- ==== Sys2Proof/Config.lean ====
section
/-! DEFINITION. What the block's configuration fixes: the fixed parameters of spec/00_scope.md R6, the nine configurable
parameters of R7 as a record with the spec's defaults, and the one free value, the random byte of `RND` (R12, R180). -/

namespace Sys2Proof

/-- MEM_SIZE (R6): the address space is 0x000..0xFFF. -/
def memSize : Nat := 0x1000

/-- RESERVED_TOP (R6): 0x000..0x1FF is the reserved low region. -/
def reservedTop : Nat := 0x1FF

/-- GLYPH_SIZE (R6): the glyph table is the first 80 bytes. -/
def glyphSize : Nat := 80

/-- PROG_BASE (R6): the load address and the reset `pc`. -/
def progBase : Nat := 0x200

/-- PROG_MAX (R6): the largest program image. -/
def progMax : Nat := 3584

/-- DISP_W (R6). -/
def dispW : Nat := 64

/-- DISP_H (R6). -/
def dispH : Nat := 32

/-- The number of display cells, DISP_W x DISP_H (R6, R34). -/
def dispCells : Nat := 2048

/-- RESERVED_WRITE_POLICY (R7, R54, D9). -/
inductive ReservedWritePolicy where
  | fault
  | allow
deriving DecidableEq, Repr

/-- SYS_POLICY (R7, R78, D12). -/
inductive SysPolicy where
  | decodeFailure
  | nop
deriving DecidableEq, Repr

/-- SHIFT_SOURCE (R7, R150, D10): the register that `SHR` and `SHL` shift. -/
inductive ShiftSource where
  | vx
  | vy
deriving DecidableEq, Repr

/-- VF_ALIAS_ORDER (R7, R140, D11): the order of the flag write and the result write. -/
inductive VfAliasOrder where
  | sequential
  | flagLast
deriving DecidableEq, Repr

/-- DRAW_CLIP_MODE (R7, R112, D14). -/
inductive DrawClipMode where
  | linear
  | clipXy
deriving DecidableEq, Repr

/-- ODD_PC_POLICY (R7, R56, D7). -/
inductive OddPcPolicy where
  | fault
  | fetch
deriving DecidableEq, Repr

/-- AWAIT_KEY_CONSUME (R7, R184, D20). -/
inductive AwaitKeyConsume where
  | none
  | clearSelected
deriving DecidableEq, Repr

/-- The configurable parameters of R7. -/
structure Config where
  /-- GLYPH_TABLE: the 80 bytes at 0x000 after construction (R33, D18). -/
  glyphTable : Vector Byte 80
  /-- RESERVED_WRITE_POLICY. -/
  reservedWrite : ReservedWritePolicy
  /-- STRICT_DECODE (R77, D13). -/
  strictDecode : Bool
  /-- SYS_POLICY. -/
  sysPolicy : SysPolicy
  /-- SHIFT_SOURCE. -/
  shiftSource : ShiftSource
  /-- VF_ALIAS_ORDER. -/
  vfAliasOrder : VfAliasOrder
  /-- DRAW_CLIP_MODE. -/
  drawClip : DrawClipMode
  /-- ODD_PC_POLICY. -/
  oddPc : OddPcPolicy
  /-- AWAIT_KEY_CONSUME. -/
  awaitKey : AwaitKeyConsume
deriving DecidableEq, Repr

/-- Glyphs 0 to 3 of the default GLYPH_TABLE of R33, five rows a glyph, top row first. -/
def glyphs0to3 : Vector Byte 20 :=
  #v[0xF0, 0x90, 0x90, 0x90, 0xF0,
    0x20, 0x60, 0x20, 0x20, 0x70,
    0xF0, 0x10, 0xF0, 0x80, 0xF0,
    0xF0, 0x10, 0xF0, 0x10, 0xF0]

/-- Glyphs 4 to 7 of the default GLYPH_TABLE of R33, five rows a glyph, top row first. -/
def glyphs4to7 : Vector Byte 20 :=
  #v[0x90, 0x90, 0xF0, 0x10, 0x10,
    0xF0, 0x80, 0xF0, 0x10, 0xF0,
    0xF0, 0x80, 0xF0, 0x90, 0xF0,
    0xF0, 0x10, 0x20, 0x40, 0x40]

/-- Glyphs 8 to B of the default GLYPH_TABLE of R33, five rows a glyph, top row first. -/
def glyphs8toB : Vector Byte 20 :=
  #v[0xF0, 0x90, 0xF0, 0x90, 0xF0,
    0xF0, 0x90, 0xF0, 0x10, 0xF0,
    0xF0, 0x90, 0xF0, 0x90, 0x90,
    0xE0, 0x90, 0xE0, 0x90, 0xE0]

/-- Glyphs C to F of the default GLYPH_TABLE of R33, five rows a glyph, top row first. -/
def glyphsCtoF : Vector Byte 20 :=
  #v[0xF0, 0x80, 0x80, 0x80, 0xF0,
    0xE0, 0x90, 0x90, 0x90, 0xE0,
    0xF0, 0x80, 0xF0, 0x80, 0xF0,
    0xF0, 0x80, 0xF0, 0x80, 0x80]

/-- The default GLYPH_TABLE of R33. PRESUMED, unsafe (notes/assumptions/3.md): the spec takes these bytes from general knowledge. -/
def defaultGlyphs : Vector Byte 80 := (glyphs0to3 ++ glyphs4to7) ++ (glyphs8toB ++ glyphsCtoF)

/-- The default of every parameter (R7). DESIGN CHOICE of the spec, unsafe where a default is wrong (notes/assumptions/2.md). -/
def Config.default : Config where
  glyphTable := defaultGlyphs
  reservedWrite := .fault
  strictDecode := false
  sysPolicy := .decodeFailure
  shiftSource := .vx
  vfAliasOrder := .sequential
  drawClip := .linear
  oddPc := .fault
  awaitKey := .none

/-- The free value of the model: the random byte of the `n`-th draw that the host gives no byte for. It has no body, so no proof
can see its value: "A claim about a program holds only if it holds for every draw" (R180, D17; notes/assumptions/5.md). -/
opaque Config.randomByte : Nat → BitVec 8

end Sys2Proof
end

