-- ==== Sys2Proof/Syntax.lean ====
section
/-! DEFINITION. The 34 instructions of spec/30_encoding.md R75, one constructor for each row of spec/opcode_table.json, with the
fields of R71 that the row names. `SYS NNN` (R78) is no row of the table and no constructor: see `Decoded` in Decode.lean. -/

namespace Sys2Proof

/-- One constructor for each row of the opcode table. `x` and `y` are the register fields, `n` the height, `nn` the byte
immediate, `nnn` the address immediate. -/
inductive Instr where
  /-- `CLS`, row 1 (R110). -/
  | cls
  /-- `RET`, row 2 (R121). -/
  | ret
  /-- `JP NNN`, row 3 (R122). -/
  | jp (nnn : Addr12)
  /-- `CALL NNN`, row 4 (R123). -/
  | call (nnn : Addr12)
  /-- `SE Vx, NN`, row 5 (R124). -/
  | seImm (x : Nibble) (nn : Byte)
  /-- `SNE Vx, NN`, row 6 (R125). -/
  | sneImm (x : Nibble) (nn : Byte)
  /-- `SE Vx, Vy`, row 7 (R126). -/
  | seReg (x y : Nibble)
  /-- `LD Vx, NN`, row 8 (R141). -/
  | ldImm (x : Nibble) (nn : Byte)
  /-- `ADD Vx, NN`, row 9 (R142). -/
  | addImm (x : Nibble) (nn : Byte)
  /-- `LD Vx, Vy`, row 10 (R143). -/
  | ldReg (x y : Nibble)
  /-- `OR Vx, Vy`, row 11 (R144). -/
  | orReg (x y : Nibble)
  /-- `AND Vx, Vy`, row 12 (R145). -/
  | andReg (x y : Nibble)
  /-- `XOR Vx, Vy`, row 13 (R146). -/
  | xorReg (x y : Nibble)
  /-- `ADD Vx, Vy`, row 14 (R147). -/
  | addReg (x y : Nibble)
  /-- `SUB Vx, Vy`, row 15 (R148). -/
  | sub (x y : Nibble)
  /-- `SUBN Vx, Vy`, row 16 (R149). -/
  | subn (x y : Nibble)
  /-- `SHR Vx {, Vy}`, row 17 (R150). -/
  | shr (x y : Nibble)
  /-- `SHL Vx {, Vy}`, row 18 (R151). -/
  | shl (x y : Nibble)
  /-- `SNE Vx, Vy`, row 19 (R127). -/
  | sneReg (x y : Nibble)
  /-- `LD I, NNN`, row 20 (R160). -/
  | ldI (nnn : Addr12)
  /-- `JP V0, NNN`, row 21 (R129). -/
  | jpV0 (nnn : Addr12)
  /-- `RND Vx, NN`, row 22 (R180). -/
  | rnd (x : Nibble) (nn : Byte)
  /-- `DRW Vx, Vy, N`, row 23 (R111). -/
  | drw (x y n : Nibble)
  /-- `SKP Vx`, row 24 (R181). -/
  | skp (x : Nibble)
  /-- `SKNP Vx`, row 25 (R182). -/
  | sknp (x : Nibble)
  /-- `LD Vx, DT`, row 26 (R183). -/
  | ldVxDt (x : Nibble)
  /-- `LD Vx, K`, row 27 (R184). -/
  | ldVxK (x : Nibble)
  /-- `LD DT, Vx`, row 28 (R185). -/
  | ldDtVx (x : Nibble)
  /-- `LD ST, Vx`, row 29 (R186). -/
  | ldStVx (x : Nibble)
  /-- `ADD I, Vx`, row 30 (R161). -/
  | addI (x : Nibble)
  /-- `LD F, Vx`, row 31 (R162). -/
  | ldF (x : Nibble)
  /-- `LD B, Vx`, row 32 (R163). -/
  | ldB (x : Nibble)
  /-- `LD [I], Vx`, row 33 (R164). -/
  | ldMemVx (x : Nibble)
  /-- `LD Vx, [I]`, row 34 (R165). -/
  | ldVxMem (x : Nibble)
deriving DecidableEq, Repr

end Sys2Proof
end

