-- ==== Sys2Proof/WellFormed.lean ====
section
/-! DEFINITION. The checks on terms that come from outside the machine: an instruction, a configuration, a program image and a key
value. -/

namespace Sys2Proof

/-- `n` fits a field of `bits` bits (R71). -/
def fits (bits n : Nat) : Bool := decide (n < 2 ^ bits)

/-- Every operand fits the field that encodes it (R71, R75). The field types of `Instr` already say so, so no term of `Instr` is
ill-formed ("every value 0x0–0xF is a valid register, including 0xF", R73); `Instr.wellFormed_all` in Laws/Decode.lean. -/
def Instr.wellFormed : Instr → Bool
  | .cls | .ret => true
  | .jp nnn | .call nnn | .ldI nnn | .jpV0 nnn => fits 12 nnn.toNat
  | .seImm x nn | .sneImm x nn | .ldImm x nn | .addImm x nn | .rnd x nn => fits 4 x.toNat && fits 8 nn.toNat
  | .seReg x y | .sneReg x y | .ldReg x y | .orReg x y | .andReg x y | .xorReg x y | .addReg x y | .sub x y | .subn x y
  | .shr x y | .shl x y => fits 4 x.toNat && fits 4 y.toNat
  | .drw x y n => fits 4 x.toNat && fits 4 y.toNat && fits 4 n.toNat
  | .skp x | .sknp x | .ldVxDt x | .ldVxK x | .ldDtVx x | .ldStVx x | .addI x | .ldF x | .ldB x | .ldMemVx x | .ldVxMem x =>
    fits 4 x.toNat

/-- GLYPH_TABLE has "4 significant bits per row, MSB-first" (R33): bits 3..0 of every row are 0. -/
def Config.wellFormed (cfg : Config) : Bool := cfg.glyphTable.toList.all fun row => row &&& 0x0F#8 == 0#8

/-- A program image of at most PROG_MAX bytes (R231). -/
def imageWellFormed (image : List Byte) : Bool := decide (image.length ≤ progMax)

/-- A key-state value the host may write: 0 or 1 (R35, R221). -/
def keyValueWellFormed (v : Byte) : Bool := v == 0#8 || v == 1#8

end Sys2Proof
end

