-- ==== Sys2Proof/Decode.lean ====
section
/-! DEFINITION. Decoding a 16-bit instruction word (spec/30_encoding.md R70 to R79), total and rejecting by name, then the encoder
and the opcode table written from the same rule R75. -/

namespace Sys2Proof

/-- Field `F`, `w[15:12]`: the family (R71). -/
def fieldF (w : Word) : Nibble := w.extractLsb' 12 4

/-- Field `X`, `w[11:8]` (R71). -/
def fieldX (w : Word) : Nibble := w.extractLsb' 8 4

/-- Field `Y`, `w[7:4]` (R71). -/
def fieldY (w : Word) : Nibble := w.extractLsb' 4 4

/-- Field `N`, `w[3:0]` (R71). -/
def fieldN (w : Word) : Nibble := w.extractLsb' 0 4

/-- Field `NN`, `w[7:0]` (R71). -/
def fieldNN (w : Word) : Byte := w.extractLsb' 0 8

/-- Field `NNN`, `w[11:0]` (R71). -/
def fieldNNN (w : Word) : Addr12 := w.extractLsb' 0 12

/-- What decoding a word gives (R74): one of the 34 instructions, `SYS NNN` (only under SYS_POLICY = nop, R78), or a failure by
name that carries the word and its family (R201). -/
inductive Decoded where
  | instr (i : Instr)
  | sys (nnn : Addr12)
  | undecodable (w : Word) (family : Nibble)
deriving DecidableEq, Repr

/-- The failure of R74, "carrying the opcode and its family". -/
def reject (w : Word) : Decoded := .undecodable w (fieldF w)

/-- A nibble that decode ignores unless STRICT_DECODE asks for zero there (`ok0` and `okN` of R74). -/
def ignoredOk (cfg : Config) (n : Nibble) : Bool := !cfg.strictDecode || n == 0#4

/-- Family 0x0: a second dispatch on the low byte (R74, R78). Under nop a non-canonical `0XE0` or `0XEE` that STRICT_DECODE rejects is
`SYS`, as R74 has it: DEDUCED, unsafe (notes/assumptions/13.md). -/
def decodeFamily0 (cfg : Config) (w : Word) : Decoded :=
  if ignoredOk cfg (fieldX w) ∧ fieldNN w = 0xE0#8 then .instr .cls
  else if ignoredOk cfg (fieldX w) ∧ fieldNN w = 0xEE#8 then .instr .ret
  else match cfg.sysPolicy with
    | .nop => .sys (fieldNNN w)
    | .decodeFailure => reject w

/-- Family 0x8: a second dispatch on the low nibble (R74). -/
def decodeFamily8 (w : Word) : Decoded :=
  let x := fieldX w
  let y := fieldY w
  match (fieldN w).toNat with
  | 0x0 => .instr (.ldReg x y)
  | 0x1 => .instr (.orReg x y)
  | 0x2 => .instr (.andReg x y)
  | 0x3 => .instr (.xorReg x y)
  | 0x4 => .instr (.addReg x y)
  | 0x5 => .instr (.sub x y)
  | 0x6 => .instr (.shr x y)
  | 0x7 => .instr (.subn x y)
  | 0xE => .instr (.shl x y)
  | _ => reject w

/-- Family 0xE: a second dispatch on the low byte (R74). -/
def decodeFamilyE (w : Word) : Decoded :=
  if fieldNN w = 0x9E#8 then .instr (.skp (fieldX w))
  else if fieldNN w = 0xA1#8 then .instr (.sknp (fieldX w))
  else reject w

/-- Family 0xF: a second dispatch on the low byte (R74). -/
def decodeFamilyF (w : Word) : Decoded :=
  let x := fieldX w
  if fieldNN w = 0x07#8 then .instr (.ldVxDt x)
  else if fieldNN w = 0x0A#8 then .instr (.ldVxK x)
  else if fieldNN w = 0x15#8 then .instr (.ldDtVx x)
  else if fieldNN w = 0x18#8 then .instr (.ldStVx x)
  else if fieldNN w = 0x1E#8 then .instr (.addI x)
  else if fieldNN w = 0x29#8 then .instr (.ldF x)
  else if fieldNN w = 0x33#8 then .instr (.ldB x)
  else if fieldNN w = 0x55#8 then .instr (.ldMemVx x)
  else if fieldNN w = 0x65#8 then .instr (.ldVxMem x)
  else reject w

/-- `decode(w)` of R74, by the family in the high nibble. The numbers are PRESUMED, unsafe (notes/assumptions/4.md): the spec takes most of
them from general knowledge. -/
def decode (cfg : Config) (w : Word) : Decoded :=
  match (fieldF w).toNat with
  | 0x0 => decodeFamily0 cfg w
  | 0x1 => .instr (.jp (fieldNNN w))
  | 0x2 => .instr (.call (fieldNNN w))
  | 0x3 => .instr (.seImm (fieldX w) (fieldNN w))
  | 0x4 => .instr (.sneImm (fieldX w) (fieldNN w))
  | 0x5 => if ignoredOk cfg (fieldN w) then .instr (.seReg (fieldX w) (fieldY w)) else reject w
  | 0x6 => .instr (.ldImm (fieldX w) (fieldNN w))
  | 0x7 => .instr (.addImm (fieldX w) (fieldNN w))
  | 0x8 => decodeFamily8 w
  | 0x9 => if ignoredOk cfg (fieldN w) then .instr (.sneReg (fieldX w) (fieldY w)) else reject w
  | 0xA => .instr (.ldI (fieldNNN w))
  | 0xB => .instr (.jpV0 (fieldNNN w))
  | 0xC => .instr (.rnd (fieldX w) (fieldNN w))
  | 0xD => .instr (.drw (fieldX w) (fieldY w) (fieldN w))
  | 0xE => decodeFamilyE w
  | 0xF => decodeFamilyF w
  | _ => reject w

/-- Big-endian assembly of the instruction word: "the decoded instruction word is `(high << 8) | low`" (R52). -/
def wordOfBytes (high low : Byte) : Word := high ++ low

/-- The byte of a word at the lower address, bits 15..8 (R52, R70). -/
def highByte (w : Word) : Byte := w.extractLsb' 8 8

/-- The byte of a word at the higher address, bits 7..0 (R52, R70). -/
def lowByte (w : Word) : Byte := w.extractLsb' 0 8

/-- Decoding the two bytes of an instruction as they lie in memory (R52, R74). -/
def decodeBytes (cfg : Config) (high low : Byte) : Decoded := decode cfg (wordOfBytes high low)

/-- The word that spec/opcode_table.json numbers `w`, with every bit at or above `nbits` zero. Every instruction is one word of
16 bits (R70), so bits above 15 name nothing. -/
def tableWord (nbits w : Nat) : Word := BitVec.ofNat 16 (w % 2 ^ nbits)

/-- The instruction the decoder reads from the two bytes of a table word laid out as memory holds them, under the default
configuration (R7, R75; notes/assumptions/12.md). -/
def decodeTableWord (nbits w : Nat) : Option Instr :=
  match decodeBytes Config.default (highByte (tableWord nbits w)) (lowByte (tableWord nbits w)) with
  | .instr i => some i
  | .sys _ => none
  | .undecodable _ _ => none

/-! The encoder. -/

/-- Formats `xy` and `xyn` of R72: `F:4 · X:4 · Y:4 · N:4`. -/
def wordXYN (f x y n : Nibble) : Word := f ++ x ++ y ++ n

/-- Formats `op8` and `xkk` of R72: `F:4 · X:4 · NN:8`. -/
def wordXNN (f x : Nibble) (nn : Byte) : Word := f ++ x ++ nn

/-- Format `nnn` of R72: `F:4 · NNN:12`. -/
def wordNNN (f : Nibble) (nnn : Addr12) : Word := f ++ nnn

/-- The word of an instruction, by the patterns of R75. A nibble the pattern writes `?` is 0, its conventional spelling (R77):
DESIGN CHOICE, safe (notes/assumptions/14.md). -/
def encode : Instr → Word
  | .cls => wordXNN 0x0 0 0xE0
  | .ret => wordXNN 0x0 0 0xEE
  | .jp nnn => wordNNN 0x1 nnn
  | .call nnn => wordNNN 0x2 nnn
  | .seImm x nn => wordXNN 0x3 x nn
  | .sneImm x nn => wordXNN 0x4 x nn
  | .seReg x y => wordXYN 0x5 x y 0
  | .ldImm x nn => wordXNN 0x6 x nn
  | .addImm x nn => wordXNN 0x7 x nn
  | .ldReg x y => wordXYN 0x8 x y 0x0
  | .orReg x y => wordXYN 0x8 x y 0x1
  | .andReg x y => wordXYN 0x8 x y 0x2
  | .xorReg x y => wordXYN 0x8 x y 0x3
  | .addReg x y => wordXYN 0x8 x y 0x4
  | .sub x y => wordXYN 0x8 x y 0x5
  | .subn x y => wordXYN 0x8 x y 0x7
  | .shr x y => wordXYN 0x8 x y 0x6
  | .shl x y => wordXYN 0x8 x y 0xE
  | .sneReg x y => wordXYN 0x9 x y 0
  | .ldI nnn => wordNNN 0xA nnn
  | .jpV0 nnn => wordNNN 0xB nnn
  | .rnd x nn => wordXNN 0xC x nn
  | .drw x y n => wordXYN 0xD x y n
  | .skp x => wordXNN 0xE x 0x9E
  | .sknp x => wordXNN 0xE x 0xA1
  | .ldVxDt x => wordXNN 0xF x 0x07
  | .ldVxK x => wordXNN 0xF x 0x0A
  | .ldDtVx x => wordXNN 0xF x 0x15
  | .ldStVx x => wordXNN 0xF x 0x18
  | .addI x => wordXNN 0xF x 0x1E
  | .ldF x => wordXNN 0xF x 0x29
  | .ldB x => wordXNN 0xF x 0x33
  | .ldMemVx x => wordXNN 0xF x 0x55
  | .ldVxMem x => wordXNN 0xF x 0x65

/-! The opcode table of R75. -/

/-- A row of the opcode table: the bits it fixes and their values. -/
structure OpcodeRow where
  mask : Word
  value : Word
deriving DecidableEq, Repr

/-- The row's fixed bits stand in `w`. -/
def OpcodeRow.covers (r : OpcodeRow) (w : Word) : Bool := w &&& r.mask == r.value

/-- The mask of rows 1 and 2, whose `X` nibble only STRICT_DECODE fixes (R75, R77). -/
def maskOp0 (strict : Bool) : Word := if strict then 0xFFFF else 0xF0FF

/-- The mask of rows 7 and 19, whose `N` nibble only STRICT_DECODE fixes (R75, R77). -/
def maskXY (strict : Bool) : Word := if strict then 0xF00F else 0xF000

/-- The row of R75 of each instruction. -/
def Instr.row (strict : Bool) : Instr → OpcodeRow
  | .cls => ⟨maskOp0 strict, 0x00E0⟩
  | .ret => ⟨maskOp0 strict, 0x00EE⟩
  | .jp _ => ⟨0xF000, 0x1000⟩
  | .call _ => ⟨0xF000, 0x2000⟩
  | .seImm _ _ => ⟨0xF000, 0x3000⟩
  | .sneImm _ _ => ⟨0xF000, 0x4000⟩
  | .seReg _ _ => ⟨maskXY strict, 0x5000⟩
  | .ldImm _ _ => ⟨0xF000, 0x6000⟩
  | .addImm _ _ => ⟨0xF000, 0x7000⟩
  | .ldReg _ _ => ⟨0xF00F, 0x8000⟩
  | .orReg _ _ => ⟨0xF00F, 0x8001⟩
  | .andReg _ _ => ⟨0xF00F, 0x8002⟩
  | .xorReg _ _ => ⟨0xF00F, 0x8003⟩
  | .addReg _ _ => ⟨0xF00F, 0x8004⟩
  | .sub _ _ => ⟨0xF00F, 0x8005⟩
  | .subn _ _ => ⟨0xF00F, 0x8007⟩
  | .shr _ _ => ⟨0xF00F, 0x8006⟩
  | .shl _ _ => ⟨0xF00F, 0x800E⟩
  | .sneReg _ _ => ⟨maskXY strict, 0x9000⟩
  | .ldI _ => ⟨0xF000, 0xA000⟩
  | .jpV0 _ => ⟨0xF000, 0xB000⟩
  | .rnd _ _ => ⟨0xF000, 0xC000⟩
  | .drw _ _ _ => ⟨0xF000, 0xD000⟩
  | .skp _ => ⟨0xF0FF, 0xE09E⟩
  | .sknp _ => ⟨0xF0FF, 0xE0A1⟩
  | .ldVxDt _ => ⟨0xF0FF, 0xF007⟩
  | .ldVxK _ => ⟨0xF0FF, 0xF00A⟩
  | .ldDtVx _ => ⟨0xF0FF, 0xF015⟩
  | .ldStVx _ => ⟨0xF0FF, 0xF018⟩
  | .addI _ => ⟨0xF0FF, 0xF01E⟩
  | .ldF _ => ⟨0xF0FF, 0xF029⟩
  | .ldB _ => ⟨0xF0FF, 0xF033⟩
  | .ldMemVx _ => ⟨0xF0FF, 0xF055⟩
  | .ldVxMem _ => ⟨0xF0FF, 0xF065⟩

/-- One instruction of each constructor, in the order of R75, its operands 0. -/
def representatives : List Instr :=
  [.cls, .ret, .jp 0, .call 0, .seImm 0 0, .sneImm 0 0, .seReg 0 0, .ldImm 0 0, .addImm 0 0, .ldReg 0 0, .orReg 0 0,
    .andReg 0 0, .xorReg 0 0, .addReg 0 0, .sub 0 0, .subn 0 0, .shr 0 0, .shl 0 0]
  ++ [.sneReg 0 0, .ldI 0, .jpV0 0, .rnd 0 0, .drw 0 0 0, .skp 0, .sknp 0, .ldVxDt 0, .ldVxK 0, .ldDtVx 0, .ldStVx 0,
    .addI 0, .ldF 0, .ldB 0, .ldMemVx 0, .ldVxMem 0]

/-- The opcode map of R75: the rows, in the rule's order. -/
def opcodeTable (strict : Bool) : List OpcodeRow := representatives.map (Instr.row strict)

end Sys2Proof
end

