-- ==== Sys2Proof/Machine/State.lean ====
section
/-! DEFINITION. The state of the block: every piece of state of spec/10_state.md, the reasons a step can stop, and the state after
construction (spec/70_reset_and_hazards.md R230, R232). -/

namespace Sys2Proof.Machine

/-- The kind of a memory access (R53, R200). -/
inductive AccessKind where
  | fetch
  | read
  | write
deriving DecidableEq, Repr

/-- The fault records of spec/60_exceptions.md R200, in the order of their codes 1 to 8. -/
inductive Fault where
  /-- Raised by a step whose fetched word is undecodable (R201). The spec's own effect: safe. -/
  | decodeFailure (w : Word) (family : Nibble)
  /-- Raised by `CALL` when all 16 slots are in use (R203, D1): safe. -/
  | stackOverflow (pc : Word)
  /-- Raised by `RET` when the stack is empty (R204, D2): safe. -/
  | stackUnderflow (pc : Word)
  /-- Raised by a fetch, `DRW`, `LD B`, `LD [I]` or `LD Vx, [I]` at an address at or above 0x1000 (R205, D5, D6): safe. -/
  | memoryOutOfRange (a : Nat) (kind : AccessKind)
  /-- Raised by a fetch at an odd `pc` under ODD_PC_POLICY = fault (R206, D7): safe. -/
  | misalignedFetch (pc : Word)
  /-- Raised by `SKP` and `SKNP` on a key index above 15 (R207, D8): safe. -/
  | keyIndexOutOfRange (v : Byte)
  /-- Raised by `LD B` and `LD [I]` at or below 0x1FF under RESERVED_WRITE_POLICY = fault (R208, D9): safe. -/
  | reservedWrite (a : Nat)
  /-- The result of a program load longer than 3584 bytes (R231). No step raises it and it never enters `status` (R200):
  DEDUCED, safe (notes/assumptions/15.md). -/
  | programTooLarge (len : Nat)
deriving DecidableEq, Repr

/-- The fault codes of R200: "numbers are for reports only" (D4). -/
def Fault.code : Fault → Nat
  | .decodeFailure _ _ => 1
  | .stackOverflow _ => 2
  | .stackUnderflow _ => 3
  | .memoryOutOfRange _ _ => 4
  | .misalignedFetch _ => 5
  | .keyIndexOutOfRange _ => 6
  | .reservedWrite _ => 7
  | .programTooLarge _ => 8

/-- The reasons for which the model has no transition. No step and no meaning answers with any of them. -/
inductive Refusal where
  /-- For an arm of `exec` with no meaning yet; no arm of this model uses it. Safe. -/
  | notModelled (mnemonic : String)
  /-- A host write of a key value other than 0 or 1: "a model refuses it (no transition)" (R221, D19). Safe. -/
  | keyValueNotZeroOrOne (v : Byte)
  /-- A second program load, or a load after a step (R231, D31). Safe. -/
  | loadNotAdmitted
  /-- A step after a failed load: the host "must not run the block after a load-time failure" (R221). Safe. -/
  | runAfterFailedLoad
deriving DecidableEq, Repr

/-- The run status (R38). -/
inductive RunStatus where
  | running
  | halted (f : Fault)
deriving DecidableEq, Repr

/-- The address space as the bytes that differ from what construction leaves, in rising order of address: the canonical form
of `Memory.wf` in Machine/Ops.lean. An unlisted address reads as `Memory.unlisted` says. -/
abbrev Memory := List Host.Cell

/-- The display bitmap as the cells that are not 0, in rising order of index: the canonical form of `Bitmap.wf`. -/
abbrev Bitmap := List Host.Cell

/-- Every piece of state of R232, the configuration record of R7, and the random-byte input of R41. -/
structure State where
  /-- The configuration parameters, which no step changes (R7; notes/assumptions/1.md). -/
  config : Config
  /-- `V0`..`VF`, the general registers; `VF` is the flag register (R20, R21). -/
  V : Vector Byte 16
  /-- `I`, the address register (R27). -/
  I : Word
  /-- `pc`, the program counter (R23). -/
  pc : Word
  /-- `stack[0]`..`stack[15]` (R28). -/
  stack : Vector Word 16
  /-- `sp`, the number of occupied slots, 0..16 (R29): DEDUCED, safe (notes/assumptions/8.md). -/
  sp : Fin 17
  /-- `DT`, the delay timer (R30). -/
  DT : Byte
  /-- `ST`, the sound timer (R31). -/
  ST : Byte
  /-- The 4096-byte address space (R32, R50). -/
  mem : Memory
  /-- `disp`, the 2048 one-byte display cells (R34). -/
  disp : Bitmap
  /-- `key[0]`..`key[15]`, the key-state array the host writes (R35). -/
  key : Vector Byte 16
  /-- `redraw`, the frame-ready signal (R36). -/
  redraw : Bool
  /-- `beep`, the audio-ready signal (R37). -/
  beep : Bool
  /-- `status`, the run status (R38). -/
  status : RunStatus
  /-- `rnd`, the random byte the host gives this step (R41), or none where the draw is free. -/
  rnd : Option Byte
  /-- The number of draws made so far, the argument of `Config.randomByte`: the model's own field (notes/assumptions/5.md). -/
  draws : Nat
deriving DecidableEq, Repr

/-- Construction under a configuration (R230): the table of R232. The key array's 0 is D23 (notes/assumptions/6.md). -/
def State.construct (cfg : Config) : State where
  config := cfg
  V := Vector.replicate 16 0
  I := 0
  pc := 0x200
  stack := Vector.replicate 16 0
  sp := 0
  DT := 0
  ST := 0
  mem := []
  disp := []
  key := Vector.replicate 16 0
  redraw := true
  beep := false
  status := .running
  rnd := none
  draws := 0

/-- The machine right after reset: construction under the default configuration (R7, R230, R232). -/
def State.reset : State := State.construct Config.default

end Sys2Proof.Machine
end

