-- ==== Sys2Proof/Machine/Ops.lean ====
section
/-! DEFINITION. The operations that every meaning shares: register, stack, memory, display and key access (spec/10_state.md,
spec/20_memory.md), raising a fault (spec/40_step_cycle.md R95), the fetch, and the end-of-step tick (spec/60_exceptions.md R210,
R211). -/

namespace Sys2Proof.Machine

/-- What a step or a meaning answers. -/
abbrev Result := Host.Outcome State Fault Refusal

/-! Registers and plain fields. Each field has one function that writes it. -/

/-- `x[i]` (R10, R20). -/
def State.reg (s : State) (x : Nibble) : Byte := s.V[x.toNat]'x.isLt

/-- `x[i] <- v` (R10, R20). -/
def State.setReg (s : State) (x : Nibble) (v : Byte) : State := { s with V := s.V.set x.toNat v x.isLt }

/-- FLAG_REG, the number of `VF` (R6, R21). -/
def flagReg : Nibble := 0xF

/-- `x[0xF]`, the flag register (R21). -/
def State.flag (s : State) : Byte := s.reg flagReg

/-- `I <- v`: "Every write to it wraps modulo 2^16" (R27), which the type of `v` says. -/
def State.setI (s : State) (v : Word) : State := { s with I := v }

/-- `pc <- v`, modulo 2^16 by the type of `v` (R24). -/
def State.setPc (s : State) (v : Word) : State := { s with pc := v }

/-- `DT <- v` (R30). -/
def State.setDT (s : State) (v : Byte) : State := { s with DT := v }

/-- `ST <- v` (R31). -/
def State.setST (s : State) (v : Byte) : State := { s with ST := v }

/-- The address space becomes `m`. -/
def State.setMem (s : State) (m : Memory) : State := { s with mem := m }

/-- The display becomes `d`. -/
def State.setDisp (s : State) (d : Bitmap) : State := { s with disp := d }

/-- `redraw <- b` (R36). -/
def State.setRedraw (s : State) (b : Bool) : State := { s with redraw := b }

/-- `beep <- b` (R37). -/
def State.setBeep (s : State) (b : Bool) : State := { s with beep := b }

/-- The stack pointer and the slots together (R28, R29). -/
def State.setStack (s : State) (sp : Fin 17) (stack : Vector Word 16) : State := { s with sp := sp, stack := stack }

/-- `key[k] <- v` (R35). -/
def State.setKey (s : State) (k : Nibble) (v : Byte) : State := { s with key := s.key.set k.toNat v k.isLt }

/-- `status <- r` (R38). -/
def State.setStatus (s : State) (r : RunStatus) : State := { s with status := r }

/-- The random-byte input of a step (R41). -/
def State.setRnd (s : State) (r : Option Byte) : State := { s with rnd := r }

/-- The count of draws. -/
def State.setDraws (s : State) (n : Nat) : State := { s with draws := n }

/-- `pc <- p + n`, with `p` the fetch-time `pc`, which no earlier write of an instruction changes (R24, R91, R93). -/
def State.advance (s : State) (n : Nat) : State := s.setPc (s.pc + BitVec.ofNat 16 n)

/-- `if c then pc <- p + 4 else pc <- p + 2` (R96). -/
def State.skipIf (s : State) (c : Bool) : State := s.advance (if c then 4 else 2)

/-! Raising a fault. -/

/-- `raise F(info)`: the step ends at once with the fault (R11, R95). Every check stands before the first write, so nothing is
undone. -/
def raise (f : Fault) : Result := .fault f

/-- The next state, unless a check failed (R11). -/
def checked (c : Option Fault) (t : State) : Result :=
  match c with
  | some f => raise f
  | none => .next t

/-- `status <- halted(f)`, "the only change" a fault makes (R95, R202). -/
def State.halt (s : State) (f : Fault) : State := s.setStatus (.halted f)

/-- The block's state after a step from `s` that answered `r` (R90, R95): a fault leaves `s` halted. DEDUCED, safe
(notes/assumptions/9.md). -/
def stateAfter (s : State) (r : Result) : State :=
  match r with
  | .next t => t
  | .fault f => s.halt f
  | .refused _ => s

/-! Call stack. -/

/-- A pop: `sp <- sp - 1`, and the slot `stack[sp]`; none when the stack is empty. The slot keeps its value (R121, D40). -/
def State.pop (s : State) : Option (Word × State) :=
  if h : 0 < s.sp.val then
    some (s.stack[s.sp.val - 1]'(by have := s.sp.isLt; omega), s.setStack ⟨s.sp.val - 1, by have := s.sp.isLt; omega⟩ s.stack)
  else none

/-- A push: `stack[sp] <- a`, then `sp <- sp + 1`; none when the stack is full (R123). -/
def State.push (s : State) (a : Word) : Option State :=
  if h : s.sp.val < 16 then some (s.setStack ⟨s.sp.val + 1, by omega⟩ (s.stack.set s.sp.val a h)) else none

/-! Cells: the canonical sparse form that memory and the display share. `base` says what an unlisted index reads as. -/

/-- The cell at `a`. -/
def cellRead (base : Nat → Byte) : List Host.Cell → Nat → Byte
  | [], a => base a
  | (k, v) :: m, a => if a = k then v else cellRead base m a

/-- The cells `m` with `v` put before them at `a`, unless `a` reads as `v` unlisted. -/
def cellCons (base : Nat → Byte) (a : Nat) (v : Byte) (m : List Host.Cell) : List Host.Cell :=
  if v = base a then m else (a, v) :: m

/-- `m` with the cell at `a` made `v`, keeping the form of `cellsWf`. -/
def cellWrite (base : Nat → Byte) : List Host.Cell → Nat → Byte → List Host.Cell
  | [], a, v => cellCons base a v []
  | (k, u) :: m, a, v =>
    if a < k then cellCons base a v ((k, u) :: m)
    else if a = k then cellCons base a v m
    else (k, u) :: cellWrite base m a v

/-- Indices rise from `lo` and stay below `size`, and no cell holds what its index reads as unlisted. -/
def cellsWf (base : Nat → Byte) (size : Nat) : Nat → List Host.Cell → Bool
  | _, [] => true
  | lo, (k, v) :: m => decide (lo ≤ k) && decide (k < size) && (v != base k) && cellsWf base size (k + 1) m

/-! Memory. -/

/-- What an unlisted address reads as: its reset value, the glyph table at 0x000..0x04F and 0 elsewhere (R32, R33, R232). -/
def Memory.unlisted (cfg : Config) (a : Nat) : Byte := if h : a < 80 then cfg.glyphTable[a] else 0

/-- `mem[a]`. -/
def Memory.read (cfg : Config) (m : Memory) (a : Nat) : Byte := cellRead (Memory.unlisted cfg) m a

/-- `mem[a] <- v`. -/
def Memory.write (cfg : Config) (m : Memory) (a : Nat) (v : Byte) : Memory := cellWrite (Memory.unlisted cfg) m a v

/-- The canonical form of the 4096-byte address space (R50). -/
def Memory.wf (cfg : Config) (m : Memory) : Bool := cellsWf (Memory.unlisted cfg) memSize 0 m

/-- The byte at `a`. Instructions reach it only through `memCheck`, so `a < 0x1000` (R53). -/
def State.byteAt (s : State) (a : Nat) : Byte := Memory.read s.config s.mem a

/-- `mem[a] <- v`, once `memCheck` has passed. -/
def State.storeByte (s : State) (a : Nat) (v : Byte) : State := s.setMem (Memory.write s.config s.mem a v)

/-- The `n` bytes at `a`, `a + 1`, …, the byte at `a` first (R10, R53). -/
def State.loadBytes (s : State) (a n : Nat) : List Byte := (List.range n).map fun k => s.byteAt (a + k)

/-- The bytes `vs` stored at `a`, `a + 1`, …, in that order (R10, R53). -/
def State.storeBytes (s : State) (a : Nat) : List Byte → State
  | [] => s
  | v :: vs => (s.storeByte a v).storeBytes (a + 1) vs

/-- The fault, if any, of one address of an access (R53, R54): the range check, then the reserved-write policy. -/
def addressFault (cfg : Config) (kind : AccessKind) (a : Nat) : Option Fault :=
  if memSize ≤ a then some (.memoryOutOfRange a kind)
  else if kind = .write ∧ a ≤ reservedTop ∧ cfg.reservedWrite = .fault then some (.reservedWrite a)
  else none

/-- `MemCheck(addr, n, kind)` of R53: "The check raises on the lowest failing address". `addr + k` does not wrap. -/
def memCheck (cfg : Config) (kind : AccessKind) : Nat → Nat → Option Fault
  | _, 0 => none
  | a, n + 1 =>
    match addressFault cfg kind a with
    | some f => some f
    | none => memCheck cfg kind (a + 1) n

/-! Display. -/

/-- `disp[o]` (R34). -/
def Bitmap.read (d : Bitmap) (o : Nat) : Byte := cellRead (fun _ => 0) d o

/-- `disp[o] <- v`. -/
def Bitmap.write (d : Bitmap) (o : Nat) (v : Byte) : Bitmap := cellWrite (fun _ => 0) d o v

/-- The canonical form of the 2048 cells, "values restricted to {0,1}" (R34): every listed cell is 1. -/
def Bitmap.wf (d : Bitmap) : Bool := cellsWf (fun _ => 0) dispCells 0 d && d.all fun c => c.2 == 1#8

/-- The display cell at linear index `o` (R34). -/
def State.pixel (s : State) (o : Nat) : Byte := Bitmap.read s.disp o

/-! Keys. -/

/-- `key[k]` (R35). -/
def State.keyAt (s : State) (k : Nibble) : Byte := s.key[k.toNat]'k.isLt

/-- Whether the key that a register value names is "currently pressed" (R35, D19); none for an index above 15 (R181).
DESIGN CHOICE, unsafe for a host that writes other values than 0 and 1 (notes/assumptions/16.md). -/
def State.keyPressed (s : State) (v : Byte) : Option Bool :=
  if v.toNat ≤ 15 then some (s.keyAt (v.setWidth 4) == 1#8) else none

/-- The key numbers in index order. -/
def allKeys : List Nibble := [0, 1, 2, 3, 4, 5, 6, 7, 8, 9, 10, 11, 12, 13, 14, 15]

/-- The scan of R184: "overwrite, not break: the highest index wins". -/
def State.scanKeys (s : State) : Option Nibble :=
  allKeys.foldl (fun found k => if s.keyAt k == 1#8 then some k else found) none

/-! The random byte. -/

/-- `draw_random()` (R12): the step's random-byte input, free where the host gave none (D17; notes/assumptions/5.md). -/
def State.randomByte (s : State) : Byte := s.rnd.getD (Config.randomByte s.draws)

/-! Fetch. -/

/-- Fetch (R90, R91): the alignment check of R56, then the range check of R55, then the big-endian word of R52. -/
def State.fetch (s : State) : Except Fault Word :=
  if s.pc.toNat % 2 = 1 ∧ s.config.oddPc = .fault then .error (.misalignedFetch s.pc)
  else match memCheck s.config .fetch s.pc.toNat 2 with
    | some f => .error f
    | none => .ok (wordOfBytes (s.byteAt s.pc.toNat) (s.byteAt (s.pc.toNat + 1)))

/-- The word `w` laid at `pc` as fetch reads it: its high byte at `pc`, its low byte at `pc + 1` (R52). -/
def State.placeWord (s : State) (w : Word) : State := s.storeBytes s.pc.toNat [highByte w, lowByte w]

/-! The end of a step. -/

/-- The delay-timer tick (R210). -/
def State.tickDelay (s : State) : State := if 0#8 < s.DT then s.setDT (s.DT - 1) else s

/-- The sound-timer tick, which raises `beep` when `ST` goes from 1 to 0 (R211). -/
def State.tickSound (s : State) : State :=
  if 0#8 < s.ST then (s.setBeep (s.beep || s.ST == 1#8)).setST (s.ST - 1) else s

/-- `tick()`, the end-of-step timer tick (R94, R210, R211). -/
def State.tick (s : State) : State := s.tickDelay.tickSound

/-- The end of a completed step: the tick; and the step's random byte is spent, the next step having a fresh one (R94, R180). -/
def State.endStep (s : State) : State := s.tick.setRnd none

end Sys2Proof.Machine
end

