-- ==== Sys2Proof/Machine/Flags.lean ====
section
/-! DEFINITION. Every flag computation of the spec (spec/10_state.md R21; spec/43_alu.md R140, R147 to R151;
spec/44_index_memory.md R161), and the order in which a flag and a result are written. -/

namespace Sys2Proof.Machine

/-- A flag value: VF takes 1 or 0. -/
def flagByte (b : Bool) : Byte := if b then 1 else 0

/-- The carry of `ADD Vx, Vy`: 1 if `a + b > 255` (R147). -/
def carryFlag (a b : Byte) : Byte := flagByte (decide (255 < a.toNat + b.toNat))

/-- NOT borrow of `SUB Vx, Vy`: 0 if `b > a`, else 1 (R148). -/
def subFlag (a b : Byte) : Byte := flagByte (!decide (a.toNat < b.toNat))

/-- NOT borrow of `SUBN Vx, Vy`: 0 if `a > b`, else 1 (R149, D41). -/
def subnFlag (a b : Byte) : Byte := flagByte (!decide (b.toNat < a.toNat))

/-- The bit `SHR` shifts out, `b & 1` (R150). -/
def shrFlag (_ b : Byte) : Byte := flagByte (b.getLsbD 0)

/-- The bit `SHL` shifts out, `(b >> 7) & 1` (R151). -/
def shlFlag (_ b : Byte) : Byte := flagByte (b.getLsbD 7)

/-- The unwrapped sum of `ADD I, Vx` (R161). -/
def addISum (i : Word) (v : Byte) : Nat := i.toNat + v.toNat

/-- The flag of `ADD I, Vx`: 1 if the unwrapped sum exceeds 0xFFF (R161, C6). -/
def addIFlag (i : Word) (v : Byte) : Byte := flagByte (decide (0xFFF < addISum i v))

/-- The flag and result writes of R140 under VF_ALIAS_ORDER: `x[X]` with the operand register `src`, which is `Y` for `ADD`, `SUB`
and `SUBN` and `S` for the shifts (R150). Under `sequential` the result re-reads both registers after the flag write. -/
def State.writeFlagged (s : State) (x src : Nibble) (flag op : Byte → Byte → Byte) : State :=
  let a := s.reg x
  let b := s.reg src
  match s.config.vfAliasOrder with
  | .sequential =>
    let s' := s.setReg flagReg (flag a b)
    s'.setReg x (op (s'.reg x) (s'.reg src))
  | .flagLast => (s.setReg x (op a b)).setReg flagReg (flag a b)

end Sys2Proof.Machine
end

