-- ==== Sys2Proof/Machine/Operands.lean ====
section
/-! DEFINITION. Every operand form of the spec (spec/30_encoding.md R73; spec/43_alu.md R150; spec/44_index_memory.md;
spec/41_display.md R111): how a field or a register becomes the value an instruction uses. -/

namespace Sys2Proof.Machine

/-- `zext_16(NNN)`, the address immediate (R73). -/
def addrOf (nnn : Addr12) : Word := nnn.setWidth 16

/-- The target of `JP V0, NNN`: the 16-bit sum, not masked to 12 bits (R129, D36). -/
def State.jumpV0Target (s : State) (nnn : Addr12) : Word := addrOf nnn + (s.reg 0).setWidth 16

/-- `S`, the register that `SHR` and `SHL` shift: X or Y, by SHIFT_SOURCE (R150, D10). -/
def State.shiftReg (s : State) (x y : Nibble) : Nibble :=
  match s.config.shiftSource with
  | .vx => x
  | .vy => y

/-- The base address that memory instructions use, `I` as a number, so that `base + k` does not wrap (R53). -/
def State.base (s : State) : Nat := s.I.toNat

/-- The registers `x[0]` .. `x[X]`, in order (R164). -/
def State.regsUpTo (s : State) (x : Nibble) : List Byte := (List.range (x.toNat + 1)).map fun k => s.reg (BitVec.ofNat 4 k)

/-- `x[k] <- MemRead(base + k, 1)` for `k` in 0 .. X (R165). -/
def State.loadRegs (s : State) (x : Nibble) : State :=
  (List.range (x.toNat + 1)).foldl (fun t k => t.setReg (BitVec.ofNat 4 k) (s.byteAt (s.base + k))) s

/-- The post-increment of the block store and the block load: `I <- trunc_16(base + X + 1)` (R164, R165). -/
def State.bumpI (s : State) (x : Nibble) : State := s.setI (BitVec.ofNat 16 (s.base + x.toNat + 1))

/-- The glyph address of `LD F, Vx`: the register value times 5, not masked (R162, D37). -/
def glyphAddr (v : Byte) : Word := BitVec.ofNat 16 (v.toNat * 5)

/-- The decimal digits that `LD B, Vx` stores: hundreds, tens, ones (R163). -/
def bcdDigits (v : Byte) : List Byte :=
  [BitVec.ofNat 8 (v.toNat / 100), BitVec.ofNat 8 (v.toNat / 10 % 10), BitVec.ofNat 8 (v.toNat % 10)]

/-- The sprite rows of `DRW`: the N bytes at `I` (R111). -/
def State.spriteRows (s : State) (n : Nibble) : List Byte := s.loadBytes s.base n.toNat

end Sys2Proof.Machine
end

