-- ==== Sys2Proof/Machine/Alu.lean ====
section
/-! DEFINITION. The register and ALU instructions (spec/43_alu.md R140 to R152). Each advances `pc` by 2 and raises nothing. -/

namespace Sys2Proof.Machine

/-- `LD Vx, NN` (R141). -/
def execLdImm (x : Nibble) (nn : Byte) (s : State) : Result := .next ((s.setReg x nn).advance 2)

/-- `ADD Vx, NN` (R142): no flag effect. -/
def execAddImm (x : Nibble) (nn : Byte) (s : State) : Result := .next ((s.setReg x (s.reg x + nn)).advance 2)

/-- `LD Vx, Vy` (R143). -/
def execLdReg (x y : Nibble) (s : State) : Result := .next ((s.setReg x (s.reg y)).advance 2)

/-- `OR Vx, Vy` (R144): VF is not written as a flag. -/
def execOrReg (x y : Nibble) (s : State) : Result := .next ((s.setReg x (s.reg x ||| s.reg y)).advance 2)

/-- `AND Vx, Vy` (R145): VF is not written as a flag. -/
def execAndReg (x y : Nibble) (s : State) : Result := .next ((s.setReg x (s.reg x &&& s.reg y)).advance 2)

/-- `XOR Vx, Vy` (R146): VF is not written as a flag. -/
def execXorReg (x y : Nibble) (s : State) : Result := .next ((s.setReg x (s.reg x ^^^ s.reg y)).advance 2)

/-- `ADD Vx, Vy` (R147). -/
def execAddReg (x y : Nibble) (s : State) : Result :=
  .next ((s.writeFlagged x y carryFlag fun a b => a + b).advance 2)

/-- `SUB Vx, Vy` (R148). -/
def execSub (x y : Nibble) (s : State) : Result :=
  .next ((s.writeFlagged x y subFlag fun a b => a - b).advance 2)

/-- `SUBN Vx, Vy` (R149). -/
def execSubn (x y : Nibble) (s : State) : Result :=
  .next ((s.writeFlagged x y subnFlag fun a b => b - a).advance 2)

/-- `SHR Vx {, Vy}` (R150). -/
def execShr (x y : Nibble) (s : State) : Result :=
  .next ((s.writeFlagged x (s.shiftReg x y) shrFlag fun _ b => b >>> 1).advance 2)

/-- `SHL Vx {, Vy}` (R151). -/
def execShl (x y : Nibble) (s : State) : Result :=
  .next ((s.writeFlagged x (s.shiftReg x y) shlFlag fun _ b => b <<< 1).advance 2)

end Sys2Proof.Machine
end

