-- ==== Sys2Proof/Machine/Control.lean ====
section
/-! DEFINITION. Control transfer (spec/42_control_flow.md R120 to R129), and `SYS` (spec/30_encoding.md R78). A target is written
without an alignment or range check (R120). -/

namespace Sys2Proof.Machine

/-- `RET` (R121): pop, then two bytes past the address the `CALL` pushed. -/
def execRet (s : State) : Result :=
  match s.pop with
  | none => raise (.stackUnderflow s.pc)
  | some (a, t) => .next (t.setPc (a + 2))

/-- `JP NNN` (R122). -/
def execJp (nnn : Addr12) (s : State) : Result := .next (s.setPc (addrOf nnn))

/-- `CALL NNN` (R123): pushes its own address. -/
def execCall (nnn : Addr12) (s : State) : Result :=
  match s.push s.pc with
  | none => raise (.stackOverflow s.pc)
  | some t => .next (t.setPc (addrOf nnn))

/-- `SE Vx, NN` (R124). -/
def execSeImm (x : Nibble) (nn : Byte) (s : State) : Result := .next (s.skipIf (s.reg x == nn))

/-- `SNE Vx, NN` (R125). -/
def execSneImm (x : Nibble) (nn : Byte) (s : State) : Result := .next (s.skipIf (s.reg x != nn))

/-- `SE Vx, Vy` (R126). -/
def execSeReg (x y : Nibble) (s : State) : Result := .next (s.skipIf (s.reg x == s.reg y))

/-- `SNE Vx, Vy` (R127). -/
def execSneReg (x y : Nibble) (s : State) : Result := .next (s.skipIf (s.reg x != s.reg y))

/-- `JP V0, NNN` (R129). -/
def execJpV0 (nnn : Addr12) (s : State) : Result := .next (s.setPc (s.jumpV0Target nnn))

/-- `SYS NNN` under SYS_POLICY = nop: "no effect except `pc <- pc + 2` and the end-of-step tick" (R78). -/
def execSys (_ : Addr12) (s : State) : Result := .next (s.advance 2)

end Sys2Proof.Machine
end

