-- ==== Sys2Proof/Machine/Display.lean ====
section
/-! DEFINITION. The display instructions `CLS` and `DRW` (spec/41_display.md R110 to R113). -/

namespace Sys2Proof.Machine

/-- `CLS` (R110). -/
def execCls (s : State) : Result := .next (((s.setDisp []).setRedraw true).advance 2)

/-- `visible(cx, cy)` for the unreduced column and row, by DRAW_CLIP_MODE (R112, D14, D16). -/
def visible (mode : DrawClipMode) (cx cy : Nat) : Bool :=
  match mode with
  | .linear => decide (cy * 64 + cx ≤ 2047)
  | .clipXy => decide (cx < dispW) && decide (cy < dispH)

/-- A draw in progress: the bitmap, and whether a pixel went from 1 to 0. -/
structure Drawing where
  disp : Bitmap
  hit : Bool
deriving DecidableEq, Repr

/-- One XORed pixel: `if disp[o] = 1 then hit <- 1; disp[o] <- disp[o] ^ 1` (R111). -/
def Drawing.toggle (d : Drawing) (o : Nat) : Drawing where
  disp := Bitmap.write d.disp o (Bitmap.read d.disp o ^^^ 1#8)
  hit := d.hit || Bitmap.read d.disp o == 1#8

/-- Column `c` of a sprite row at screen row `cy`: bit `7 - c` of the row byte, "MSB is column 0" (R111, D15). -/
def Drawing.bit (mode : DrawClipMode) (vx cy : Nat) (row : Byte) (d : Drawing) (c : Nat) : Drawing :=
  if row.getLsbD (7 - c) && visible mode (vx + c) cy then d.toggle (cy * 64 + (vx + c)) else d

/-- The eight columns of one sprite row (R111). -/
def Drawing.row (mode : DrawClipMode) (vx cy : Nat) (row : Byte) (d : Drawing) : Drawing :=
  [0, 1, 2, 3, 4, 5, 6, 7].foldl (Drawing.bit mode vx cy row) d

/-- The sprite rows, top row first (R111). -/
def Drawing.rows (mode : DrawClipMode) (vx : Nat) : Nat → List Byte → Drawing → Drawing
  | _, [], d => d
  | cy, row :: rest, d => Drawing.rows mode vx (cy + 1) rest (d.row mode vx cy row)

/-- The whole draw of `DRW Vx, Vy, N` from the values before any write (R111, D16). -/
def State.draw (s : State) (x y n : Nibble) : Drawing :=
  Drawing.rows s.config.drawClip (s.reg x).toNat (s.reg y).toNat (s.spriteRows n) ⟨s.disp, false⟩

/-- `DRW Vx, Vy, N` (R111). With N = 0 the check is empty and no pixel changes (D35). -/
def execDrw (x y n : Nibble) (s : State) : Result :=
  let d := s.draw x y n
  checked (memCheck s.config .read s.base n.toNat)
    ((((s.setDisp d.disp).setReg flagReg (flagByte d.hit)).setRedraw true).advance 2)

end Sys2Proof.Machine
end

