-- ==== Sys2Proof/Machine/Index.lean ====
section
/-! DEFINITION. The address-register and memory instructions (spec/44_index_memory.md R160 to R165). -/

namespace Sys2Proof.Machine

/-- `LD I, NNN` (R160). -/
def execLdI (nnn : Addr12) (s : State) : Result := .next ((s.setI (addrOf nnn)).advance 2)

/-- `ADD I, Vx` (R161): the sum of the old values first, then the flag. -/
def execAddI (x : Nibble) (s : State) : Result :=
  .next (((s.setI (BitVec.ofNat 16 (addISum s.I (s.reg x)))).setReg flagReg (addIFlag s.I (s.reg x))).advance 2)

/-- `LD F, Vx` (R162). -/
def execLdF (x : Nibble) (s : State) : Result := .next ((s.setI (glyphAddr (s.reg x))).advance 2)

/-- `LD B, Vx` (R163): all three addresses are checked before any byte is written. `I` keeps its value. -/
def execLdB (x : Nibble) (s : State) : Result :=
  checked (memCheck s.config .write s.base 3) ((s.storeBytes s.base (bcdDigits (s.reg x))).advance 2)

/-- `LD [I], Vx`, the block store (R164). -/
def execLdMemVx (x : Nibble) (s : State) : Result :=
  checked (memCheck s.config .write s.base (x.toNat + 1)) (((s.storeBytes s.base (s.regsUpTo x)).bumpI x).advance 2)

/-- `LD Vx, [I]`, the block load (R165). -/
def execLdVxMem (x : Nibble) (s : State) : Result :=
  checked (memCheck s.config .read s.base (x.toNat + 1)) (((s.loadRegs x).bumpI x).advance 2)

end Sys2Proof.Machine
end

