-- ==== Sys2Proof/Machine/Input.lean ====
section
/-! DEFINITION. The random, keypad and timer instructions (spec/45_timers_keys_random.md R180 to R186). Each runs before its step's
tick (R94). -/

namespace Sys2Proof.Machine

/-- `RND Vx, NN` (R180): the step's random byte AND the mask. The draw is counted, so that no two draws share a free value. -/
def execRnd (x : Nibble) (nn : Byte) (s : State) : Result :=
  .next (((s.setReg x (s.randomByte &&& nn)).setDraws (s.draws + 1)).advance 2)

/-- `SKP Vx` (R181). -/
def execSkp (x : Nibble) (s : State) : Result :=
  match s.keyPressed (s.reg x) with
  | none => raise (.keyIndexOutOfRange (s.reg x))
  | some down => .next (s.skipIf down)

/-- `SKNP Vx` (R182). -/
def execSknp (x : Nibble) (s : State) : Result :=
  match s.keyPressed (s.reg x) with
  | none => raise (.keyIndexOutOfRange (s.reg x))
  | some down => .next (s.skipIf !down)

/-- `LD Vx, DT` (R183): `DT` before this step's tick. -/
def execLdVxDt (x : Nibble) (s : State) : Result := .next ((s.setReg x s.DT).advance 2)

/-- The key that `LD Vx, K` found, cleared under AWAIT_KEY_CONSUME = clear_selected (R184, D20). -/
def State.consumeKey (s : State) (k : Nibble) : State :=
  match s.config.awaitKey with
  | .none => s
  | .clearSelected => s.setKey k 0

/-- `LD Vx, K` (R184): with no key pressed `pc` stays, and the step still completes. -/
def execLdVxK (x : Nibble) (s : State) : Result :=
  match s.scanKeys with
  | none => .next s
  | some k => .next (((s.setReg x (k.setWidth 8)).consumeKey k).advance 2)

/-- `LD DT, Vx` (R185). -/
def execLdDtVx (x : Nibble) (s : State) : Result := .next ((s.setDT (s.reg x)).advance 2)

/-- `LD ST, Vx` (R186). -/
def execLdStVx (x : Nibble) (s : State) : Result := .next ((s.setST (s.reg x)).advance 2)

end Sys2Proof.Machine
end

