-- ==== Sys2Proof/Machine/Cycle.lean ====
section
/-! DEFINITION. The step cycle (spec/40_step_cycle.md R90 to R97): fetch, decode, execute, tick. -/

namespace Sys2Proof.Machine

/-- The end-of-step tick after a completed instruction body; none in a step that raised (R94, R95). -/
def finish (r : Result) : Result :=
  match r with
  | .next s => .next s.endStep
  | .fault f => .fault f
  | .refused r => .refused r

/-- Execute and tick what decode gave (R92, R93, R94); an undecodable word raises `DecodeFailure(w, F)`. -/
def runDecoded (d : Decoded) (s : State) : Result :=
  match d with
  | .instr i => finish (exec i s)
  | .sys nnn => finish (execSys nnn s)
  | .undecodable w family => raise (.decodeFailure w family)

/-- One step of R90, in the order of checks of R209. A halted block changes nothing and answers its fault again (R97). -/
def cycle (s : State) : Result :=
  match s.status with
  | .halted f => raise f
  | .running =>
    match s.fetch with
    | .error f => raise f
    | .ok w => runDecoded (decode s.config w) s

end Sys2Proof.Machine
end

