-- ==== Sys2Proof/Machine/Step.lean ====
section
/-! DEFINITION. The step of the machine, and the placing of a word where it fetches next. -/

namespace Sys2Proof.Machine

/-- One step (R90). Its random byte is `State.rnd`, free where the host gave none. -/
def step (s : State) : Host.Outcome State Fault Refusal := cycle s

/-- `s` with a word of spec/opcode_table.json stored at `pc`, as a program load would have put it there
(notes/assumptions/11.md). -/
def State.withFetchWord (s : State) (nbits w : Nat) : State := s.placeWord (tableWord nbits w)

end Sys2Proof.Machine
end

