-- ==== Sys2Proof/Machine/Session.lean ====
section
/-! DEFINITION. The block interface of spec/10_state.md R41: what the host may do to the block between steps (spec/60_exceptions.md
R220, R221), the program load (spec/70_reset_and_hazards.md R231) and the order of R233. -/

namespace Sys2Proof.Machine

/-- How far the order of R233 has come. It is the protocol's, not the block's: the load is admitted once, before the first step
(R231, D31). DESIGN CHOICE, safe (notes/assumptions/10.md). -/
inductive Phase where
  /-- After construction, before a load and before a step. -/
  | constructed
  /-- After a load that succeeded. -/
  | loaded
  /-- After `ProgramTooLarge`: the host must not run the block (R221). -/
  | loadFailed
  /-- After the first step. -/
  | stepping
deriving DecidableEq, Repr

/-- The block with the host at it. -/
structure Session where
  phase : Phase
  block : State
deriving DecidableEq, Repr

/-- The inputs of R41. -/
inductive HostAction where
  /-- `construct` (R230). -/
  | construct
  /-- `load(image)` (R231). -/
  | load (image : List Byte)
  /-- `step`, with the step's random byte (R90). -/
  | step (rnd : Byte)
  /-- The host writes `key[k]` (R35, R221). -/
  | writeKey (k : Nibble) (v : Byte)
  /-- `clear_redraw` (R220). -/
  | clearRedraw
  /-- `clear_beep` (R220). -/
  | clearBeep
deriving DecidableEq, Repr

/-- `result` and `load_result` of R41: `ok` or a fault. -/
inductive Reply where
  | ok
  | fault (f : Fault)
deriving DecidableEq, Repr

/-- A session right after construction (R230). -/
def Session.start (cfg : Config) : Session where
  phase := .constructed
  block := State.construct cfg

/-- `step(s, rnd)` of R90: the next state and the result. -/
def stepWith (rnd : Byte) (s : State) : Result := step (s.setRnd (some rnd))

/-- The result of a step: `ok` or the fault (R90). -/
def replyOf (r : Result) : Reply :=
  match r with
  | .fault f => .fault f
  | .next _ => .ok
  | .refused _ => .ok

/-- The image copied "byte-for-byte starting at 0x200" (R231). -/
def State.copyImage (s : State) (image : List Byte) : State := s.storeBytes progBase image

/-- `load(image)` of R231. -/
def State.load (s : State) (image : List Byte) : State × Reply :=
  if imageWellFormed image then (s.copyImage image, .ok) else (s, .fault (.programTooLarge image.length))

/-- The phase after a load. -/
def phaseAfterLoad (r : Reply) : Phase :=
  match r with
  | .ok => .loaded
  | .fault _ => .loadFailed

/-- One action of the host between steps: the session after it and the reply, or a refusal where the spec admits no such action
(R221, R231). -/
def Session.act (a : HostAction) (p : Session) : Except Refusal (Session × Reply) :=
  match a with
  | .construct => .ok (Session.start p.block.config, .ok)
  | .load image =>
    if p.phase = .constructed then
      let r := p.block.load image
      .ok (⟨phaseAfterLoad r.2, r.1⟩, r.2)
    else .error .loadNotAdmitted
  | .step rnd =>
    if p.phase = .loadFailed then .error .runAfterFailedLoad
    else .ok (⟨.stepping, stateAfter p.block (stepWith rnd p.block)⟩, replyOf (stepWith rnd p.block))
  | .writeKey k v =>
    if keyValueWellFormed v then .ok (⟨p.phase, p.block.setKey k v⟩, .ok) else .error (.keyValueNotZeroOrOne v)
  | .clearRedraw => .ok (⟨p.phase, p.block.setRedraw false⟩, .ok)
  | .clearBeep => .ok (⟨p.phase, p.block.setBeep false⟩, .ok)

end Sys2Proof.Machine
end

