-- ==== Sys2Proof/Safety.lean ====
section
/-! DEFINITION. The words in which claims about the block are stated: what an instruction changes, where it raises a fault of its
own, when a step can complete, and the invariant of the block. None of these calls a meaning; each restates the spec's rule. -/

namespace Sys2Proof.Machine

/-! Frames. -/

/-- The parts of the state besides the general registers and `pc` that an instruction may change. -/
inductive Part where
  /-- `I` (R27). -/
  | addr
  /-- The stack pointer and the slots (R28, R29). -/
  | stack
  /-- `DT` (R30). -/
  | delay
  /-- `ST` (R31). -/
  | sound
  /-- Every byte of the address space (R50). -/
  | memory
  /-- Every display cell (R34). -/
  | display
  /-- Every key cell (R35). -/
  | keys
  /-- `redraw` (R36). -/
  | redraw
  /-- `beep` (R37). -/
  | beep
  /-- The count of random draws, the model's own. -/
  | draws
deriving DecidableEq, Repr

/-- The part is the same in both states. -/
def Part.Same (s t : State) : Part → Prop
  | .addr => t.I = s.I
  | .stack => t.sp = s.sp ∧ t.stack = s.stack
  | .delay => t.DT = s.DT
  | .sound => t.ST = s.ST
  | .memory => ∀ a, t.byteAt a = s.byteAt a
  | .display => ∀ o, t.pixel o = s.pixel o
  | .keys => ∀ k, t.keyAt k = s.keyAt k
  | .redraw => t.redraw = s.redraw
  | .beep => t.beep = s.beep
  | .draws => t.draws = s.draws

/-- Nothing but `pc`, the registers `regs` and the parts `parts` differs between `s` and `t`: the configuration, the run status, the
random-byte input, every other register and every other part are the same. -/
def ChangesOnly (regs : List Nibble) (parts : List Part) (s t : State) : Prop :=
  t.config = s.config ∧ t.status = s.status ∧ t.rnd = s.rnd ∧
  (∀ r, r ∉ regs → t.reg r = s.reg r) ∧ ∀ p, p ∉ parts → p.Same s t

/-- The instruction completes: `exec` answers a next state whose `pc` is `newPc` modulo 2^16 (R24), that changes only `pc`, `regs` and
`parts`, and that meets `P`. -/
def Completes (i : Instr) (s : State) (newPc : Nat) (regs : List Nibble) (parts : List Part) (P : State → Prop) : Prop :=
  ∃ t, exec i s = .next t ∧ t.pc.toNat = newPc % 65536 ∧ ChangesOnly regs parts s t ∧ P t

/-! Memory accesses. -/

/-- The `n` addresses from `I` exist (R53). -/
def Readable (s : State) (n : Nat) : Prop := ∀ k < n, s.I.toNat + k < 0x1000

/-- The `n` addresses from `I` exist and may be written (R53, R54). -/
def Writable (s : State) (n : Nat) : Prop :=
  ∀ k < n, s.I.toNat + k < 0x1000 ∧ (s.config.reservedWrite = .fault → 0x1FF < s.I.toNat + k)

/-- What one address of an access raises (R53, R54): the range check first, then the reserved-write policy. -/
def AddressRaises (cfg : Config) (kind : AccessKind) (a : Nat) (f : Fault) : Prop :=
  (0x1000 ≤ a ∧ f = .memoryOutOfRange a kind) ∨
  (a < 0x1000 ∧ kind = .write ∧ a ≤ 0x1FF ∧ cfg.reservedWrite = .fault ∧ f = .reservedWrite a)

/-- An access of `n` bytes at `a` raises `f` at its lowest failing address (R53). -/
def AccessRaises (cfg : Config) (kind : AccessKind) (a n : Nat) (f : Fault) : Prop :=
  ∃ k < n, AddressRaises cfg kind (a + k) f ∧ ∀ j < k, ∀ g, ¬AddressRaises cfg kind (a + j) g

/-- The fault that an instruction raises by itself (R200, R209): the "Exceptions" of its rule. -/
def OwnFault (i : Instr) (s : State) (f : Fault) : Prop :=
  match i with
  | .ret => s.sp.val = 0 ∧ f = .stackUnderflow s.pc
  | .call _ => s.sp.val = 16 ∧ f = .stackOverflow s.pc
  | .skp x | .sknp x => 15 < (s.reg x).toNat ∧ f = .keyIndexOutOfRange (s.reg x)
  | .drw _ _ n => AccessRaises s.config .read s.I.toNat n.toNat f
  | .ldB _ => AccessRaises s.config .write s.I.toNat 3 f
  | .ldMemVx x => AccessRaises s.config .write s.I.toNat (x.toNat + 1) f
  | .ldVxMem x => AccessRaises s.config .read s.I.toNat (x.toNat + 1) f
  | .cls | .jp _ | .seImm _ _ | .sneImm _ _ | .seReg _ _ | .sneReg _ _ | .jpV0 _ => False
  | .ldImm _ _ | .addImm _ _ | .ldReg _ _ | .orReg _ _ | .andReg _ _ | .xorReg _ _ => False
  | .addReg _ _ | .sub _ _ | .subn _ _ | .shr _ _ | .shl _ _ => False
  | .ldI _ | .addI _ | .ldF _ | .rnd _ _ | .ldVxDt _ | .ldVxK _ | .ldDtVx _ | .ldStVx _ => False

/-! Steps. -/

/-- Fetch at `pc` succeeds (R55, R56). -/
def Fetchable (s : State) : Prop := (s.config.oddPc = .fault → s.pc.toNat % 2 = 0) ∧ s.pc.toNat + 1 < 0x1000

/-- The word at `pc`, high byte first (R52). -/
def WordAtPc (s : State) (w : Word) : Prop :=
  w.toNat = (s.byteAt s.pc.toNat).toNat * 256 + (s.byteAt (s.pc.toNat + 1)).toNat

/-- Ready to complete a step: running, fetchable, decodable, and the instruction raises nothing of its own (R97, R209, R236). -/
def Ready (s : State) : Prop :=
  s.status = .running ∧ Fetchable s ∧ ∀ w, WordAtPc s w →
    (∃ nnn, decode s.config w = .sys nnn) ∨ ∃ i, decode s.config w = .instr i ∧ ∀ f, ¬OwnFault i s f

/-- The end-of-step tick took `u` to `t` (R94, R210, R211): both timers counted down by one and stopped at 0, `beep` raised if the
sound timer was 1, and nothing else changed; the step's random byte is spent. -/
def Ticked (u t : State) : Prop :=
  t.DT.toNat = u.DT.toNat - 1 ∧ t.ST.toNat = u.ST.toNat - 1 ∧ (t.beep = true ↔ u.beep = true ∨ u.ST.toNat = 1) ∧
  t.pc = u.pc ∧ t.rnd = none ∧ ChangesOnly [] [.delay, .sound, .beep] (u.setRnd none) t

/-- A run of `n` steps from `s` that ends in no fault and no refusal. -/
def SafeRun (n : Nat) (s : State) : Prop := ∃ t, Host.Core.run core n s = .next t

/-! Drawing. -/

/-- `visible(cx, cy)` (R112). -/
def VisibleAt (mode : DrawClipMode) (cx cy : Nat) : Prop :=
  match mode with
  | .linear => cy * 64 + cx ≤ 2047
  | .clipXy => cx < 64 ∧ cy < 32

/-- A set bit of the sprite at `I` falls visibly on display cell `o` (R111, R112): row `r`, column `c`, bit `7 - c`. -/
def Covers (s : State) (x y n : Nibble) (o : Nat) : Prop :=
  ∃ r c, r < n.toNat ∧ c < 8 ∧ (s.byteAt (s.I.toNat + r)).getLsbD (7 - c) = true ∧
    VisibleAt s.config.drawClip ((s.reg x).toNat + c) ((s.reg y).toNat + r) ∧
    o = ((s.reg y).toNat + r) * 64 + ((s.reg x).toNat + c)

/-! Flags. -/

/-- The outcome of a flag-writing ALU instruction on `x[X]` and the register `src` under VF_ALIAS_ORDER (R140), with the flag and the
result as numbers. Under `sequential` an operand that is VF is read after the flag is written; a destination that is VF ends as the
result. Under `flag_last` both come from the old values and VF ends as the flag. -/
def FlaggedOutcome (s t : State) (x src : Nibble) (flag op : Nat → Nat → Nat) : Prop :=
  let a := (s.reg x).toNat
  let b := (s.reg src).toNat
  match s.config.vfAliasOrder with
  | .sequential =>
    (x ≠ 0xF → t.flag.toNat = flag a b) ∧
    (t.reg x).toNat = op (if x = 0xF then flag a b else a) (if src = 0xF then flag a b else b)
  | .flagLast => t.flag.toNat = flag a b ∧ (x ≠ 0xF → (t.reg x).toNat = op a b)

/-! The invariant. -/

/-- What every reachable state of the block keeps. -/
structure State.Inv (s : State) : Prop where
  /-- Memory has its canonical form, inside 0x000..0xFFF (R50). -/
  memory : Memory.wf s.config s.mem = true
  /-- The display has its canonical form: 2048 cells, each 0 or 1 (R34). -/
  display : Bitmap.wf s.disp = true
  /-- Every key cell is 0 or 1 (R35). -/
  keys : ∀ k, s.keyAt k = 0 ∨ s.keyAt k = 1
  /-- Under RESERVED_WRITE_POLICY = fault the reserved region is as constructed, so the glyph table is "never mutated" (R33, R54). -/
  reserved : s.config.reservedWrite = .fault → ∀ a ≤ 0x1FF, s.byteAt a = Memory.unlisted s.config a
  /-- `ProgramTooLarge` "never sets `status`" (R200). -/
  status : ∀ n, s.status ≠ .halted (.programTooLarge n)

/-- The invariant of a block with its host. -/
def Session.Inv (p : Session) : Prop := p.block.Inv

end Sys2Proof.Machine
end

