-- ==== Sys2Proof/Certificates/Slice0/Obligations.lean ====
section
/-! DEFINITION. The statements for the provers, from the numbered rules of spec/. A clause that rests on a decision D<n> of
spec/92_eei_decisions.md, "the spec's own choice", says so in its docstring. -/

open Sys2Proof Sys2Proof.Machine

/-! Encoding (spec/30_encoding.md). -/

/-- R74, R75: decoding the encoder's word of any instruction gives it back, with every operand at every value, under every
configuration. Every instruction is well-formed (Instr.wellFormed_all). -/
def Obligations.DecodeOfEncodeIsTheInstruction : Prop :=
  ∀ (cfg : Config) (i : Instr), decode cfg (encode i) = .instr i

/-- R74, R75, R77: a word that decodes to an instruction is that instruction's encoding, but for the nibble written `?` in rows 1, 2, 7
and 19, and there only under STRICT_DECODE = false (D13). -/
def Obligations.EncodeOfDecodeIsTheWord : Prop :=
  ∀ (cfg : Config) (w : Word) (i : Instr), decode cfg w = .instr i →
    w = encode i ∨ (cfg.strictDecode = false ∧
      (((i = .cls ∨ i = .ret) ∧ ∃ x, x ≠ 0#4 ∧ w = wordXNN 0x0 x (fieldNN (encode i))) ∨
        ∃ x y n, n ≠ 0#4 ∧ ((i = .seReg x y ∧ w = wordXYN 0x5 x y n) ∨ (i = .sneReg x y ∧ w = wordXYN 0x9 x y n))))

/-- R75: under every configuration a word decodes to an instruction exactly when a row of the table covers it, the row that covers it is
that instruction's, and no word is covered by two rows. -/
def Obligations.DecodeFollowsTheOpcodeTable : Prop :=
  ∀ (cfg : Config) (w : Word),
    ((∃ i, decode cfg w = .instr i) ↔ ∃ r ∈ opcodeTable cfg.strictDecode, r.covers w = true) ∧
    (∀ i, decode cfg w = .instr i → (i.row cfg.strictDecode).covers w = true) ∧
    (∀ r ∈ opcodeTable cfg.strictDecode, ∀ r' ∈ opcodeTable cfg.strictDecode, r.covers w = true → r'.covers w = true → r = r')

/-- R76, R78: under STRICT_DECODE = false the undecodable words are exactly those of the rule's four lists, of which the list of family
0x0 holds under SYS_POLICY = decode_failure alone; each is reported with the word and its family. -/
def Obligations.UndecodableWordsAreTheListedOnes : Prop :=
  ∀ (cfg : Config) (w : Word), cfg.strictDecode = false →
    (decode cfg w = .undecodable w (fieldF w) ↔
      (cfg.sysPolicy = .decodeFailure ∧ w.toNat / 4096 = 0x0 ∧ w.toNat % 256 ≠ 0xE0 ∧ w.toNat % 256 ≠ 0xEE) ∨
      (w.toNat / 4096 = 0x8 ∧ w.toNat % 16 ∈ [0x8, 0x9, 0xA, 0xB, 0xC, 0xD, 0xF]) ∨
      (w.toNat / 4096 = 0xE ∧ w.toNat % 256 ≠ 0x9E ∧ w.toNat % 256 ≠ 0xA1) ∨
      (w.toNat / 4096 = 0xF ∧ w.toNat % 256 ∉ [0x07, 0x0A, 0x15, 0x18, 0x1E, 0x29, 0x33, 0x55, 0x65])) ∧
    ∀ v F, decode cfg w = .undecodable v F → v = w ∧ F.toNat = w.toNat / 4096

/-- R77: STRICT_DECODE = true makes `0XE0` and `0XEE` with X not 0, and `5XYN` and `9XYN` with N not 0, undecodable, and changes the
decoding of no other word, under both values of SYS_POLICY outside family 0x0 and under decode_failure inside it. Under nop every word
of family 0x0 but `00E0` and `00EE` is `SYS`, as R74 has it and R77 does not: the model's choice (notes/assumptions/13.md). -/
def Obligations.StrictDecodeRejectsNonCanonicalWords : Prop :=
  ∀ (cfg : Config) (w : Word),
    ((cfg.sysPolicy = .decodeFailure ∨ w.toNat / 4096 ≠ 0x0) → decode { cfg with strictDecode := true } w =
      if (w.toNat / 4096 = 0x0 ∧ (w.toNat % 256 = 0xE0 ∨ w.toNat % 256 = 0xEE) ∧ w.toNat / 256 % 16 ≠ 0) ∨
          ((w.toNat / 4096 = 0x5 ∨ w.toNat / 4096 = 0x9) ∧ w.toNat % 16 ≠ 0)
      then .undecodable w (fieldF w) else decode { cfg with strictDecode := false } w) ∧
    (cfg.sysPolicy = .nop → w.toNat / 4096 = 0x0 → decode { cfg with strictDecode := true } w =
      if w.toNat = 0x00E0 then .instr .cls else if w.toNat = 0x00EE then .instr .ret else .sys (BitVec.ofNat 12 w.toNat))

/-- R78: a family-0x0 word that is not CLS or RET is a decode failure under SYS_POLICY = decode_failure; under nop it decodes as `SYS
NNN`, whose step has no effect except `pc <- pc + 2` and the tick. That under nop and STRICT_DECODE = true the words `0XE0` and `0XEE` with X
not 0 are `SYS` too follows R74, where R77 calls them undecodable: the model's choice (notes/assumptions/13.md). -/
def Obligations.SysWordsFollowSysPolicy : Prop :=
  ∀ (s : State) (w : Word), s.status = .running → Fetchable s → WordAtPc s w → w.toNat / 4096 = 0 →
    decode s.config w ≠ .instr .cls → decode s.config w ≠ .instr .ret →
    (s.config.sysPolicy = .decodeFailure → step s = .fault (.decodeFailure w 0)) ∧
    (s.config.sysPolicy = .nop → decode s.config w = .sys (BitVec.ofNat 12 w.toNat) ∧
      ∃ u t, step s = .next t ∧ u.pc.toNat = (s.pc.toNat + 2) % 65536 ∧ ChangesOnly [] [] s u ∧ Ticked u t)

/-- R75 (rows 1, 3, 8, 14, 20, 23, 24, 28, 34): words written out from the rule's patterns decode to the instructions they stand
for. -/
def Obligations.WrittenOutWordsDecode : Prop :=
  decode Config.default 0x00E0 = .instr .cls ∧ decode Config.default 0x1300 = .instr (.jp 0x300) ∧
  decode Config.default 0x6A05 = .instr (.ldImm 0xA 0x05) ∧ decode Config.default 0x8124 = .instr (.addReg 1 2) ∧
  decode Config.default 0xA20C = .instr (.ldI 0x20C) ∧ decode Config.default 0xD01F = .instr (.drw 0 1 0xF) ∧
  decode Config.default 0xE59E = .instr (.skp 5) ∧ decode Config.default 0xF015 = .instr (.ldDtVx 0) ∧
  decode Config.default 0xF265 = .instr (.ldVxMem 2) ∧ decode Config.default 0x0000 = .undecodable 0x0000 0

/-! The step (spec/40_step_cycle.md, spec/60_exceptions.md). -/

/-- R90, R93, R94: when the word at `pc` decodes to an instruction, a running block's step is `exec` of it followed by the tick, and a
fault of `exec` is the step's, with no tick. -/
def Obligations.StepRunsTheDecodedInstruction : Prop :=
  ∀ (s : State) (w : Word) (i : Instr), s.status = .running → Fetchable s → WordAtPc s w →
    decode s.config w = .instr i → i.wellFormed = true →
    (∀ u, exec i s = .next u → ∃ t, step s = .next t ∧ Ticked u t) ∧ ∀ f, exec i s = .fault f → step s = .fault f

/-- R55, R56, R209: the faults of a step, in the order of R209: the old fault of a halted block; an odd `pc` under ODD_PC_POLICY =
fault (D7); the lower of `pc` and `pc + 1` at or above 0x1000 (D6); an undecodable word; the instruction's own fault. -/
def Obligations.StepFaultsInTheOrderOfChecks : Prop :=
  ∀ (s : State) (f : Fault), step s = .fault f ↔
    s.status = .halted f ∨ (s.status = .running ∧
      ((s.pc.toNat % 2 = 1 ∧ s.config.oddPc = .fault ∧ f = .misalignedFetch s.pc) ∨
        (¬(s.pc.toNat % 2 = 1 ∧ s.config.oddPc = .fault) ∧ 0x1000 ≤ s.pc.toNat + 1 ∧
          f = .memoryOutOfRange (if 0x1000 ≤ s.pc.toNat then s.pc.toNat else s.pc.toNat + 1) .fetch) ∨
        (Fetchable s ∧ ∃ w, WordAtPc s w ∧
          ((decode s.config w = .undecodable w (fieldF w) ∧ f = .decodeFailure w (fieldF w)) ∨
            ∃ i, decode s.config w = .instr i ∧ OwnFault i s f))))

/-- R236 and the rules it names: a step completes exactly from a state that is running, with `pc` fetchable and the word at `pc`
decodable to an instruction that raises nothing of its own. -/
def Obligations.StepCompletesExactlyWhenReady : Prop :=
  ∀ s : State, (∃ t, step s = .next t) ↔ Ready s

/-- R200, R209: each instruction answers a fault exactly as its rule's "Exceptions" say, and otherwise completes; none is refused. -/
def Obligations.ExecFaultsExactlyAsItsRuleSays : Prop :=
  ∀ (i : Instr) (s : State), (∀ f, exec i s = .fault f ↔ OwnFault i s f) ∧
    ((∀ f, ¬OwnFault i s f) → ∃ t, exec i s = .next t)

/-- R90, R99: no step of the block is refused, so every step answers a next state or a fault. -/
def Obligations.NoStepIsRefused : Prop :=
  ∀ (s : State) (r : Refusal), step s ≠ .refused r

/-- R53, R54 (D5, D9, D24): the check of an access raises the fault of its lowest failing address, range before reserved, and passes
exactly when no address fails. -/
def Obligations.MemCheckRaisesItsLowestFailingAddress : Prop :=
  ∀ (cfg : Config) (kind : AccessKind) (a n : Nat),
    (∀ f, memCheck cfg kind a n = some f ↔ AccessRaises cfg kind a n f) ∧
    (memCheck cfg kind a n = none ↔
      ∀ k < n, a + k < 0x1000 ∧ (kind = .write → cfg.reservedWrite = .fault → 0x1FF < a + k))

/-- R210, R211: what the end-of-step tick does to the two timers and `beep`, and that it changes nothing else. -/
def Obligations.TickCountsTimersDownAndBeeps : Prop :=
  ∀ s : State, s.tick.DT.toNat = s.DT.toNat - 1 ∧ s.tick.ST.toNat = s.ST.toNat - 1 ∧
    (s.tick.beep = true ↔ s.beep = true ∨ s.ST.toNat = 1) ∧ s.tick.pc = s.pc ∧
    ChangesOnly [] [.delay, .sound, .beep] s s.tick

/-- R97 (D29): a step of a halted block returns its fault again and changes nothing. -/
def Obligations.HaltedBlockStaysAsItIs : Prop :=
  ∀ (s : State) (f : Fault) (rnd : Byte), s.status = .halted f →
    stepWith rnd s = .fault f ∧ stateAfter s (stepWith rnd s) = s

/-- R95, R202 (D3): a fault leaves the whole state as it was but for `status`, which is halted with that fault; a further step returns
it again, and no host action but construction clears it. -/
def Obligations.FaultHaltsTheBlockAndWritesNothingElse : Prop :=
  (∀ (s : State) (f : Fault) (rnd : Byte), stepWith rnd s = .fault f →
    stateAfter s (stepWith rnd s) = { s with status := .halted f } ∧ step (stateAfter s (stepWith rnd s)) = .fault f) ∧
  ∀ (p q : Session) (a : HostAction) (r : Reply) (f : Fault), p.block.status = .halted f → a ≠ .construct →
    Session.act a p = .ok (q, r) → q.block.status = .halted f

/-- R96: how every instruction writes `pc`, by the rule's table; `CALL` pushes the `pc` of its fetch. That the
sum of `JP V0` is not masked is the spec's choice D36, and that every value is taken modulo 2^16 its choice D21 (notes/assumptions/17.md). -/
def Obligations.EveryInstructionWritesPcByTheTable : Prop :=
  ∀ (i : Instr) (s t : State), exec i s = .next t →
    match i with
    | .jp nnn => t.pc.toNat = nnn.toNat
    | .call nnn => t.pc.toNat = nnn.toNat ∧ ∃ k : Fin 16, s.sp.val = k.val ∧ t.stack[k] = s.pc
    | .ret => ∃ k : Fin 16, s.sp.val = k.val + 1 ∧ t.pc.toNat = (s.stack[k].toNat + 2) % 65536
    | .jpV0 nnn => t.pc.toNat = (nnn.toNat + (s.reg 0).toNat) % 65536
    | .seImm x nn => t.pc.toNat = (s.pc.toNat + if s.reg x = nn then 4 else 2) % 65536
    | .sneImm x nn => t.pc.toNat = (s.pc.toNat + if s.reg x = nn then 2 else 4) % 65536
    | .seReg x y => t.pc.toNat = (s.pc.toNat + if s.reg x = s.reg y then 4 else 2) % 65536
    | .sneReg x y => t.pc.toNat = (s.pc.toNat + if s.reg x = s.reg y then 2 else 4) % 65536
    | .skp x => t.pc.toNat = (s.pc.toNat + if s.keyAt ((s.reg x).setWidth 4) = 1 then 4 else 2) % 65536
    | .sknp x => t.pc.toNat = (s.pc.toNat + if s.keyAt ((s.reg x).setWidth 4) = 1 then 2 else 4) % 65536
    | .ldVxK _ => t.pc.toNat = (s.pc.toNat + if ∃ k, s.keyAt k = 1 then 2 else 0) % 65536
    | _ => t.pc.toNat = (s.pc.toNat + 2) % 65536

/-! Display (spec/41_display.md). -/

/-- R110: `CLS`. -/
def Obligations.ClsClearsEveryPixelAndSetsRedraw : Prop :=
  ∀ (x : Nibble) (s : State),
    ((s.config.strictDecode = false ∨ x = 0) → decode s.config (wordXNN 0x0 x 0xE0) = .instr .cls) ∧
    Completes .cls s (s.pc.toNat + 2) [] [.display, .redraw] fun t => (∀ o, t.pixel o = 0) ∧ t.redraw = true

/-- R111, R112 (D14, D15, D16, D35): `DRW` XORs exactly the cells its visible set bits fall on, sets VF to 1 if one of them was 1 and
else to 0, sets `redraw`, and reads all its rows or raises. -/
def Obligations.DrwXorsTheVisibleSpriteBits : Prop :=
  ∀ (x y n : Nibble) (s : State), Bitmap.wf s.disp = true →
    decode s.config (wordXYN 0xD x y n) = .instr (.drw x y n) ∧
    (Readable s n.toNat → Completes (.drw x y n) s (s.pc.toNat + 2) [0xF] [.display, .redraw] fun t =>
      (∀ o, Covers s x y n o → t.pixel o = s.pixel o ^^^ 1#8) ∧ (∀ o, ¬Covers s x y n o → t.pixel o = s.pixel o) ∧
      ((∃ o, Covers s x y n o ∧ s.pixel o = 1) → t.flag = 1) ∧ ((∀ o, Covers s x y n o → s.pixel o ≠ 1) → t.flag = 0) ∧
      t.redraw = true) ∧
    ∀ f, AccessRaises s.config .read s.I.toNat n.toNat f → exec (.drw x y n) s = .fault f

/-- R112: the two settings of DRAW_CLIP_MODE draw alike whenever every set bit falls in a column below 64, and so always when
`vx + 7 < 64`. -/
def Obligations.ClipModesAgreeLeftOfColumn64 : Prop :=
  ∀ (x y n : Nibble) (s : State),
    ((s.reg x).toNat + 7 < 64 ∨ ∀ r c, r < n.toNat → c < 8 → (s.byteAt (s.I.toNat + r)).getLsbD (7 - c) = true →
      (s.reg x).toNat + c < 64) →
    State.draw { s with config := { s.config with drawClip := .linear } } x y n =
      State.draw { s with config := { s.config with drawClip := .clipXy } } x y n

/-- R113 (a): `CLS` then `DRW` leaves exactly the sprite's visible bits, and VF = 0. -/
def Obligations.ClsThenDrwShowsExactlyTheSprite : Prop :=
  ∀ (x y n : Nibble) (s : State), Readable s n.toNat →
    ∃ u t, exec .cls s = .next u ∧ exec (.drw x y n) u = .next t ∧
      (∀ o, Covers s x y n o → t.pixel o = 1) ∧ (∀ o, ¬Covers s x y n o → t.pixel o = 0) ∧ t.flag = 0

/-- R113 (b): a second `DRW` of the same sprite at the same place restores every pixel, and its VF is 1 if the first draw set a pixel
to 1, else 0. Where X or Y is 0xF the first draw writes the coordinate, so "the same place" is a premise. -/
def Obligations.DrwTwiceRestoresTheDisplay : Prop :=
  ∀ (x y n : Nibble) (s u : State), Bitmap.wf s.disp = true → exec (.drw x y n) s = .next u →
    u.reg x = s.reg x → u.reg y = s.reg y →
    ∃ t, exec (.drw x y n) u = .next t ∧ (∀ o, t.pixel o = s.pixel o) ∧
      ((∃ o, Covers s x y n o ∧ u.pixel o = 1) → t.flag = 1) ∧ ((∀ o, Covers s x y n o → u.pixel o = 0) → t.flag = 0)

/-! Control transfer (spec/42_control_flow.md). -/

/-- R122, R129 (D36): `JP NNN` and `JP V0, NNN` write the target to `pc`, unmasked, and nothing else. -/
def Obligations.JumpsWriteTheirTarget : Prop :=
  ∀ (nnn : Addr12) (s : State),
    decode s.config (wordNNN 0x1 nnn) = .instr (.jp nnn) ∧ decode s.config (wordNNN 0xB nnn) = .instr (.jpV0 nnn) ∧
    (Completes (.jp nnn) s nnn.toNat [] [] fun t => t.pc.toNat = nnn.toNat) ∧
    Completes (.jpV0 nnn) s (nnn.toNat + (s.reg 0).toNat) [] [] fun t => t.pc.toNat = nnn.toNat + (s.reg 0).toNat

/-- R123 (D1): `CALL` pushes its own address and jumps; with 16 calls nested it raises. -/
def Obligations.CallPushesItsOwnAddress : Prop :=
  ∀ (nnn : Addr12) (s : State), decode s.config (wordNNN 0x2 nnn) = .instr (.call nnn) ∧
    (∀ k : Fin 16, s.sp.val = k.val → Completes (.call nnn) s nnn.toNat [] [.stack] fun t =>
      t.sp.val = k.val + 1 ∧ t.stack[k] = s.pc ∧ ∀ j : Fin 16, j ≠ k → t.stack[j] = s.stack[j]) ∧
    (s.sp.val = 16 → exec (.call nnn) s = .fault (.stackOverflow s.pc))

/-- R121 (D2, D40): `RET` pops and lands two bytes past the popped address; the slot keeps its value; with an empty stack it
raises. -/
def Obligations.RetReturnsPastThePoppedAddress : Prop :=
  ∀ (x : Nibble) (s : State),
    ((s.config.strictDecode = false ∨ x = 0) → decode s.config (wordXNN 0x0 x 0xEE) = .instr .ret) ∧
    (∀ k : Fin 16, s.sp.val = k.val + 1 → Completes .ret s (s.stack[k].toNat + 2) [] [.stack] fun t =>
      t.sp.val = k.val ∧ t.stack = s.stack) ∧
    (s.sp.val = 0 → exec .ret s = .fault (.stackUnderflow s.pc))

/-- R128, which the spec derives from R121 and R123: a `CALL` at `a`, then a `RET` from any state with `sp` and the `CALL`'s own slot as
the `CALL` left them, resumes at `a + 2` with `sp` back. Calls and returns nested between the two leave both: no step changes a slot
that is in use before it and after it. The slots above `sp` may hold anything (D40). -/
def Obligations.CallThenRetResumesAfterTheCall : Prop :=
  (∀ (nnn : Addr12) (s : State), s.sp.val < 16 →
    ∃ u, exec (.call nnn) s = .next u ∧
      ∀ v : State, v.sp = u.sp → (∀ k : Fin 16, k.val = s.sp.val → v.stack[k] = u.stack[k]) →
        ∃ t, exec .ret v = .next t ∧ t.pc.toNat = (s.pc.toNat + 2) % 65536 ∧ t.sp = s.sp) ∧
  ∀ s t : State, step s = .next t → ∀ k : Fin 16, k.val < s.sp.val → k.val < t.sp.val → t.stack[k] = s.stack[k]

/-- R124, R125: the two skips on an immediate, VF compared like any other register. -/
def Obligations.ImmediateSkipsAdvanceByFourOrTwo : Prop :=
  ∀ (x : Nibble) (nn : Byte) (s : State),
    decode s.config (wordXNN 0x3 x nn) = .instr (.seImm x nn) ∧ decode s.config (wordXNN 0x4 x nn) = .instr (.sneImm x nn) ∧
    (Completes (.seImm x nn) s (s.pc.toNat + if s.reg x = nn then 4 else 2) [] [] fun _ => True) ∧
    (Completes (.sneImm x nn) s (s.pc.toNat + if s.reg x ≠ nn then 4 else 2) [] [] fun _ => True)

/-- R126, R127 (D13 for the ignored nibble): the two skips on registers. -/
def Obligations.RegisterSkipsAdvanceByFourOrTwo : Prop :=
  ∀ (x y n : Nibble) (s : State),
    ((s.config.strictDecode = false ∨ n = 0) → decode s.config (wordXYN 0x5 x y n) = .instr (.seReg x y) ∧
      decode s.config (wordXYN 0x9 x y n) = .instr (.sneReg x y)) ∧
    (Completes (.seReg x y) s (s.pc.toNat + if s.reg x = s.reg y then 4 else 2) [] [] fun _ => True) ∧
    (Completes (.sneReg x y) s (s.pc.toNat + if s.reg x ≠ s.reg y then 4 else 2) [] [] fun _ => True)

/-! Registers and ALU (spec/43_alu.md). -/

/-- R141, R142, R143: `LD Vx, NN`, `ADD Vx, NN` and `LD Vx, Vy` write `x[X]` alone; with X = 0xF that is VF, as a destination. -/
def Obligations.LoadsAndAddImmediateWriteOneRegister : Prop :=
  ∀ (x y : Nibble) (nn : Byte) (s : State),
    decode s.config (wordXNN 0x6 x nn) = .instr (.ldImm x nn) ∧ decode s.config (wordXNN 0x7 x nn) = .instr (.addImm x nn) ∧
    decode s.config (wordXYN 0x8 x y 0x0) = .instr (.ldReg x y) ∧
    (Completes (.ldImm x nn) s (s.pc.toNat + 2) [x] [] fun t => t.reg x = nn) ∧
    (Completes (.addImm x nn) s (s.pc.toNat + 2) [x] [] fun t => (t.reg x).toNat = ((s.reg x).toNat + nn.toNat) % 256) ∧
    Completes (.ldReg x y) s (s.pc.toNat + 2) [x] [] fun t => t.reg x = s.reg y

/-- R144, R145, R146: the logical operations, bit by bit; VF is not written as a flag. -/
def Obligations.LogicalOperationsActBitwise : Prop :=
  ∀ (x y : Nibble) (s : State),
    decode s.config (wordXYN 0x8 x y 0x1) = .instr (.orReg x y) ∧ decode s.config (wordXYN 0x8 x y 0x2) = .instr (.andReg x y) ∧
    decode s.config (wordXYN 0x8 x y 0x3) = .instr (.xorReg x y) ∧
    (Completes (.orReg x y) s (s.pc.toNat + 2) [x] [] fun t => ∀ b : Nat,
      (t.reg x).getLsbD b = true ↔ (s.reg x).getLsbD b = true ∨ (s.reg y).getLsbD b = true) ∧
    (Completes (.andReg x y) s (s.pc.toNat + 2) [x] [] fun t => ∀ b : Nat,
      (t.reg x).getLsbD b = true ↔ (s.reg x).getLsbD b = true ∧ (s.reg y).getLsbD b = true) ∧
    Completes (.xorReg x y) s (s.pc.toNat + 2) [x] [] fun t => ∀ b : Nat,
      (t.reg x).getLsbD b = true ↔ ((s.reg x).getLsbD b = true ↔ ¬(s.reg y).getLsbD b = true)

/-- R147, R148, R149 with the write order of R140 (D11, D41): the carry, the two NOT-borrow flags and the wrapped results, for every X
and Y, VF among them, under both orders. -/
def Obligations.AddSubSubnWriteFlagAndResult : Prop :=
  ∀ (x y : Nibble) (s : State),
    decode s.config (wordXYN 0x8 x y 0x4) = .instr (.addReg x y) ∧ decode s.config (wordXYN 0x8 x y 0x5) = .instr (.sub x y) ∧
    decode s.config (wordXYN 0x8 x y 0x7) = .instr (.subn x y) ∧
    (Completes (.addReg x y) s (s.pc.toNat + 2) [x, 0xF] [] fun t =>
      FlaggedOutcome s t x y (fun a b => if a + b > 255 then 1 else 0) fun a b => (a + b) % 256) ∧
    (Completes (.sub x y) s (s.pc.toNat + 2) [x, 0xF] [] fun t =>
      FlaggedOutcome s t x y (fun a b => if b > a then 0 else 1) fun a b => (a + 256 - b) % 256) ∧
    Completes (.subn x y) s (s.pc.toNat + 2) [x, 0xF] [] fun t =>
      FlaggedOutcome s t x y (fun a b => if a > b then 0 else 1) fun a b => (b + 256 - a) % 256

/-- R150, R151 with the write order of R140 (D10, D11): the shifted-out bit and the shifted value of `x[S]`, with S = X or Y by
SHIFT_SOURCE, for every X and Y, under both orders. -/
def Obligations.ShiftsWriteTheBitShiftedOut : Prop :=
  ∀ (x y S : Nibble) (s : State), (s.config.shiftSource = .vx → S = x) → (s.config.shiftSource = .vy → S = y) →
    decode s.config (wordXYN 0x8 x y 0x6) = .instr (.shr x y) ∧ decode s.config (wordXYN 0x8 x y 0xE) = .instr (.shl x y) ∧
    (Completes (.shr x y) s (s.pc.toNat + 2) [x, 0xF] [] fun t =>
      FlaggedOutcome s t x S (fun _ b => b % 2) fun _ b => b / 2) ∧
    Completes (.shl x y) s (s.pc.toNat + 2) [x, 0xF] [] fun t =>
      FlaggedOutcome s t x S (fun _ b => b / 128) fun _ b => b * 2 % 256

/-- R140, the sentence the spec derives from its two listings: when neither X nor Y is 0xF, both values of VF_ALIAS_ORDER give the
same state. -/
def Obligations.FlagOrdersAgreeAwayFromVF : Prop :=
  ∀ (x y : Nibble) (s : State) (i : Instr), x ≠ 0xF → y ≠ 0xF →
    i ∈ [Instr.addReg x y, .sub x y, .subn x y, .shr x y, .shl x y] →
    ∃ t t', exec i { s with config := { s.config with vfAliasOrder := .sequential } } = .next t ∧
      exec i { s with config := { s.config with vfAliasOrder := .flagLast } } = .next t' ∧
      { t with config := s.config } = { t' with config := s.config }

/-! Address register and memory (spec/44_index_memory.md). -/

/-- R160, R161: `LD I, NNN`, and `ADD I, Vx` with its flag on the unwrapped sum of the old values. -/
def Obligations.AddressRegisterInstructionsWriteI : Prop :=
  ∀ (x : Nibble) (nnn : Addr12) (s : State),
    decode s.config (wordNNN 0xA nnn) = .instr (.ldI nnn) ∧ decode s.config (wordXNN 0xF x 0x1E) = .instr (.addI x) ∧
    (Completes (.ldI nnn) s (s.pc.toNat + 2) [] [.addr] fun t => t.I.toNat = nnn.toNat) ∧
    Completes (.addI x) s (s.pc.toNat + 2) [0xF] [.addr] fun t =>
      t.I.toNat = (s.I.toNat + (s.reg x).toNat) % 65536 ∧
      t.flag.toNat = if s.I.toNat + (s.reg x).toNat > 0xFFF then 1 else 0

/-- R162 (D37): `LD F, Vx` sets `I` to five times the register value, not masked, and writes nothing else. -/
def Obligations.LdFPointsAtTheGlyph : Prop :=
  ∀ (x : Nibble) (s : State), decode s.config (wordXNN 0xF x 0x29) = .instr (.ldF x) ∧
    Completes (.ldF x) s (s.pc.toNat + 2) [] [.addr] fun t => t.I.toNat = (s.reg x).toNat * 5

/-- R163 (D5, D9, D24): `LD B, Vx` stores the three digits at `s.base`, that is at `I`, and nothing anywhere else; a failing address
raises before any byte is written. -/
def Obligations.LdBStoresThreeDecimalDigits : Prop :=
  ∀ (x : Nibble) (s : State), Memory.wf s.config s.mem = true →
    decode s.config (wordXNN 0xF x 0x33) = .instr (.ldB x) ∧
    (Writable s 3 → Completes (.ldB x) s (s.pc.toNat + 2) [] [.memory] fun t =>
      (t.byteAt s.base).toNat = (s.reg x).toNat / 100 ∧ (t.byteAt (s.base + 1)).toNat = (s.reg x).toNat / 10 % 10 ∧
      (t.byteAt (s.base + 2)).toNat = (s.reg x).toNat % 10 ∧
      ∀ a, a < s.base ∨ s.base + 3 ≤ a → t.byteAt a = s.byteAt a) ∧
    ∀ f, AccessRaises s.config .write s.I.toNat 3 f → exec (.ldB x) s = .fault f

/-- R164 (D5, D9, D24): `LD [I], Vx` stores `V0`..`VX` at `s.base`, that is at `I`, nothing anywhere else, and adds X + 1 to `I`; a
failing address raises before any byte is written. -/
def Obligations.BlockStoreStoresRegistersUpToX : Prop :=
  ∀ (x : Nibble) (s : State), Memory.wf s.config s.mem = true →
    decode s.config (wordXNN 0xF x 0x55) = .instr (.ldMemVx x) ∧
    (Writable s (x.toNat + 1) → Completes (.ldMemVx x) s (s.pc.toNat + 2) [] [.memory, .addr] fun t =>
      (∀ r : Nibble, r.toNat ≤ x.toNat → t.byteAt (s.base + r.toNat) = s.reg r) ∧
      (∀ a, a < s.base ∨ s.base + (x.toNat + 1) ≤ a → t.byteAt a = s.byteAt a) ∧
      t.I.toNat = (s.I.toNat + x.toNat + 1) % 65536) ∧
    ∀ f, AccessRaises s.config .write s.I.toNat (x.toNat + 1) f → exec (.ldMemVx x) s = .fault f

/-- R165 (D5, D24): `LD Vx, [I]` loads `V0`..`VX` from `I`, leaves the registers above X and all of memory, and adds X + 1 to `I`; a
failing address raises before any register is written. -/
def Obligations.BlockLoadLoadsRegistersUpToX : Prop :=
  ∀ (x : Nibble) (s : State),
    decode s.config (wordXNN 0xF x 0x65) = .instr (.ldVxMem x) ∧
    (Readable s (x.toNat + 1) → Completes (.ldVxMem x) s (s.pc.toNat + 2)
      ((List.range (x.toNat + 1)).map (BitVec.ofNat 4)) [.addr] fun t =>
      (∀ r : Nibble, r.toNat ≤ x.toNat → t.reg r = s.byteAt (s.I.toNat + r.toNat)) ∧
      t.I.toNat = (s.I.toNat + x.toNat + 1) % 65536) ∧
    ∀ f, AccessRaises s.config .read s.I.toNat (x.toNat + 1) f → exec (.ldVxMem x) s = .fault f

/-- R165, cases (a) and (b), which the spec derives: after a block store, a block load with `I` set back returns every register stored,
and one with no reset reads the X + 1 bytes after the block. -/
def Obligations.BlockStoreThenLoadRoundTrips : Prop :=
  ∀ (x : Nibble) (s : State), Memory.wf s.config s.mem = true → Writable s (x.toNat + 1) →
    ∃ u, exec (.ldMemVx x) s = .next u ∧
      (∀ v : State, v.I = s.I → (∀ a, v.byteAt a = u.byteAt a) → ∃ t, exec (.ldVxMem x) v = .next t ∧
        (∀ r : Nibble, r.toNat ≤ x.toNat → t.reg r = s.reg r) ∧ t.I.toNat = s.I.toNat + x.toNat + 1) ∧
      (Readable s (2 * (x.toNat + 1)) → ∃ t, exec (.ldVxMem x) u = .next t ∧
        (∀ r : Nibble, r.toNat ≤ x.toNat → t.reg r = s.byteAt (s.I.toNat + (x.toNat + 1) + r.toNat)) ∧
        t.I.toNat = s.I.toNat + 2 * (x.toNat + 1))

/-- R63, R235 (D26), which the spec derives: bytes that a block store wrote are what a later fetch of their address reads. -/
def Obligations.StoredBytesAreFetched : Prop :=
  ∀ (x : Nibble) (s u v : State) (k : Nat), Memory.wf s.config s.mem = true → exec (.ldMemVx x) s = .next u →
    k + 1 ≤ x.toNat → (∀ a, v.byteAt a = u.byteAt a) → v.pc.toNat = s.I.toNat + k → Fetchable v →
    ∃ w, v.fetch = .ok w ∧ w.toNat = (s.reg (BitVec.ofNat 4 k)).toNat * 256 + (s.reg (BitVec.ofNat 4 (k + 1))).toNat

/-! Random, keypad and timers (spec/45_timers_keys_random.md). -/

/-- R180 (D17): `RND` writes the step's random byte AND the mask, for every byte the host gives; where it gives none the byte is the free
value of the model (notes/assumptions/5.md), of which nothing is assumed. No bit outside the mask is set. -/
def Obligations.RndMasksTheRandomByte : Prop :=
  ∀ (x : Nibble) (nn : Byte) (s : State),
    decode s.config (wordXNN 0xC x nn) = .instr (.rnd x nn) ∧
    Completes (.rnd x nn) s (s.pc.toNat + 2) [x] [.draws] fun t =>
      (∀ b, s.rnd = some b → t.reg x = b &&& nn) ∧ (∃ b, t.reg x = b &&& nn) ∧
      (∀ k, (t.reg x).getLsbD k = true → nn.getLsbD k = true) ∧ t.draws = s.draws + 1

/-- R181, R182 (D8, D19): `SKP` and `SKNP` read the key that `x[X]` names, and raise for an index above 15. -/
def Obligations.KeySkipsReadTheNamedKey : Prop :=
  ∀ (x : Nibble) (s : State),
    decode s.config (wordXNN 0xE x 0x9E) = .instr (.skp x) ∧ decode s.config (wordXNN 0xE x 0xA1) = .instr (.sknp x) ∧
    (∀ k : Nibble, (s.reg x).toNat = k.toNat →
      (Completes (.skp x) s (s.pc.toNat + if s.keyAt k = 1 then 4 else 2) [] [] fun _ => True) ∧
      Completes (.sknp x) s (s.pc.toNat + if s.keyAt k ≠ 1 then 4 else 2) [] [] fun _ => True) ∧
    (15 < (s.reg x).toNat → exec (.skp x) s = .fault (.keyIndexOutOfRange (s.reg x)) ∧
      exec (.sknp x) s = .fault (.keyIndexOutOfRange (s.reg x)))

/-- R184 (D20): `LD Vx, K` stores the highest pressed key, and under AWAIT_KEY_CONSUME = clear_selected clears it; with no key pressed it
changes nothing, `pc` included. -/
def Obligations.AwaitKeyTakesTheHighestPressedKey : Prop :=
  ∀ (x : Nibble) (s : State),
    decode s.config (wordXNN 0xF x 0x0A) = .instr (.ldVxK x) ∧
    ((∀ k, s.keyAt k ≠ 1) → Completes (.ldVxK x) s s.pc.toNat [] [] fun _ => True) ∧
    ∀ k : Nibble, s.keyAt k = 1 → (∀ j : Nibble, k.toNat < j.toNat → s.keyAt j ≠ 1) →
      Completes (.ldVxK x) s (s.pc.toNat + 2) [x] [.keys] fun t => (t.reg x).toNat = k.toNat ∧
        (∀ j, j ≠ k → t.keyAt j = s.keyAt j) ∧
        t.keyAt k = match s.config.awaitKey with | .none => s.keyAt k | .clearSelected => 0

/-- R183, R185, R186: the timer moves, before the tick of their step. -/
def Obligations.TimerMovesCopyBeforeTheTick : Prop :=
  ∀ (x : Nibble) (s : State),
    decode s.config (wordXNN 0xF x 0x07) = .instr (.ldVxDt x) ∧ decode s.config (wordXNN 0xF x 0x15) = .instr (.ldDtVx x) ∧
    decode s.config (wordXNN 0xF x 0x18) = .instr (.ldStVx x) ∧
    (Completes (.ldVxDt x) s (s.pc.toNat + 2) [x] [] fun t => t.reg x = s.DT) ∧
    (Completes (.ldDtVx x) s (s.pc.toNat + 2) [] [.delay] fun t => t.DT = s.reg x) ∧
    Completes (.ldStVx x) s (s.pc.toNat + 2) [] [.sound] fun t => t.ST = s.reg x

/-- R37, R94, R210 to R212, and the corner cases that R183, R185 and R186 derive: over a completed step each timer goes down by one and
stops at 0, unless the step's instruction set it, and then from the value set; `beep` is raised exactly where ST goes from 1 to 0. -/
def Obligations.TimersCountCompletedSteps : Prop :=
  ∀ (s t : State) (w : Word), WordAtPc s w → step s = .next t →
    (∀ x, decode s.config w = .instr (.ldDtVx x) → t.DT.toNat = (s.reg x).toNat - 1) ∧
    ((∀ x, decode s.config w ≠ .instr (.ldDtVx x)) → t.DT.toNat = s.DT.toNat - 1) ∧
    (∀ x, decode s.config w = .instr (.ldStVx x) → t.ST.toNat = (s.reg x).toNat - 1 ∧
      (t.beep = true ↔ s.beep = true ∨ (s.reg x).toNat = 1)) ∧
    ((∀ x, decode s.config w ≠ .instr (.ldStVx x)) → t.ST.toNat = s.ST.toNat - 1 ∧
      (t.beep = true ↔ s.beep = true ∨ s.ST.toNat = 1))

/-! Rules about the whole machine. -/

/-- R21: only the seven flag-writing instructions, and those that name VF as their destination, change VF. -/
def Obligations.OnlyTheListedInstructionsWriteVF : Prop :=
  ∀ (i : Instr) (s t : State), exec i s = .next t → t.flag ≠ s.flag →
    (∃ x y, i ∈ [Instr.addReg x y, .sub x y, .subn x y, .shr x y, .shl x y]) ∨ (∃ x y n, i = .drw x y n) ∨ (∃ x, i = .addI x) ∨
    (∃ nn, i ∈ [Instr.ldImm 0xF nn, .addImm 0xF nn, .rnd 0xF nn]) ∨
    (∃ y, i ∈ [Instr.ldReg 0xF y, .orReg 0xF y, .andReg 0xF y, .xorReg 0xF y]) ∨
    i ∈ [Instr.ldVxDt 0xF, .ldVxK 0xF, .ldVxMem 0xF]

/-- R27: only the five instructions of the rule's list change `I`. -/
def Obligations.OnlyTheListedInstructionsWriteI : Prop :=
  ∀ (i : Instr) (s t : State), exec i s = .next t → t.I ≠ s.I →
    (∃ nnn, i = .ldI nnn) ∨ ∃ x, i ∈ [Instr.addI x, .ldF x, .ldMemVx x, .ldVxMem x]

/-- R28, R30, R31, R34, R36, R37, R58: only `CALL` and `RET` change the stack; only `LD DT` changes `DT`, and only `LD ST` changes `ST`;
only `CLS` and `DRW` change the display or `redraw`, which no instruction clears; only `LD B` and `LD [I]` change memory; only `LD Vx, K`
changes a key (D20); only `RND` counts a draw; and no instruction body changes `beep`, the configuration, the run status or the random
byte. `I` and `VF` have statements of their own above, and `pc` has its table. -/
def Obligations.EachPartHasItsOwnWriters : Prop :=
  ∀ (i : Instr) (s t : State), exec i s = .next t →
    ((t.sp ≠ s.sp ∨ t.stack ≠ s.stack) → i = .ret ∨ ∃ nnn, i = .call nnn) ∧
    (t.DT ≠ s.DT → ∃ x, i = .ldDtVx x) ∧
    (t.ST ≠ s.ST → ∃ x, i = .ldStVx x) ∧
    (((∃ o, t.pixel o ≠ s.pixel o) ∨ t.redraw ≠ s.redraw) → i = .cls ∨ ∃ x y n, i = .drw x y n) ∧
    (s.redraw = true → t.redraw = true) ∧
    ((∃ a, t.byteAt a ≠ s.byteAt a) → ∃ x, i = .ldB x ∨ i = .ldMemVx x) ∧
    ((∃ k, t.keyAt k ≠ s.keyAt k) → s.config.awaitKey = .clearSelected ∧ ∃ x, i = .ldVxK x) ∧
    (t.draws ≠ s.draws → ∃ x nn, i = .rnd x nn) ∧
    t.beep = s.beep ∧ t.config = s.config ∧ t.status = s.status ∧ t.rnd = s.rnd

/-- R33, R54, C7 (D9): under RESERVED_WRITE_POLICY = fault no step changes a byte of 0x000..0x1FF, so the glyph table is never mutated. -/
def Obligations.ReservedRegionIsNeverWritten : Prop :=
  ∀ s t : State, Memory.wf s.config s.mem = true → s.config.reservedWrite = .fault → step s = .next t →
    ∀ a ≤ 0x1FF, t.byteAt a = s.byteAt a

/-- R41, R180: the random byte is "consumed only by `RND`": every other instruction does the same whatever the random byte and the draw
count are, and leaves them. -/
def Obligations.OnlyRndDependsOnTheRandomByte : Prop :=
  ∀ (i : Instr) (s : State) (b : Option Byte) (n : Nat), (∀ x nn, i ≠ .rnd x nn) →
    (∀ t, exec i s = .next t → exec i ((s.setRnd b).setDraws n) = .next ((t.setRnd b).setDraws n)) ∧
    ∀ f, exec i s = .fault f → exec i ((s.setRnd b).setDraws n) = .fault f

/-! Reset, load and the host (spec/70_reset_and_hazards.md, spec/60_exceptions.md). -/

/-- R22, R26, R213 and the rows of R232 that the source states: the state after construction, under every configuration. -/
def Obligations.ConstructionLeavesTheResetTable : Prop :=
  ∀ cfg : Config, let s := State.construct cfg
    (∀ r, s.reg r = 0) ∧ s.pc = 0x200 ∧ s.I = 0 ∧ s.sp.val = 0 ∧ (∀ k : Fin 16, s.stack[k] = 0) ∧
    (∀ a : Fin 80, s.byteAt a.val = cfg.glyphTable[a]) ∧ (∀ a, 80 ≤ a → a < 0x1000 → s.byteAt a = 0) ∧
    (∀ o, s.pixel o = 0) ∧ s.DT = 0 ∧ s.ST = 0 ∧ s.redraw = true ∧ s.beep = false

/-- R38, R232: after construction the block is running (the spec's own state, D3) and no key is pressed. The key array's 0 is the
spec's choice D23 (notes/assumptions/6.md). The configuration is the one constructed under, and reset is construction under the
spec's defaults of R7 (notes/assumptions/2.md). -/
def Obligations.ConstructionRunsWithNoKeyPressed : Prop :=
  (∀ cfg : Config, (State.construct cfg).status = .running ∧ (∀ k, (State.construct cfg).keyAt k = 0) ∧
    (State.construct cfg).config = cfg) ∧
  State.reset = State.construct Config.default

/-- R231 (D31, D32): the program load. An image of at most 3584 bytes is copied from 0x200 and nothing else changes; a longer one is
`ProgramTooLarge` and changes nothing; exactly one load is admitted, after construction and before the first step. -/
def Obligations.LoadCopiesTheImageOnce : Prop :=
  (∀ (s : State) (image : List Byte), Memory.wf s.config s.mem = true → image.length ≤ 3584 →
    ∃ t, s.load image = (t, .ok) ∧ ChangesOnly [] [.memory] s t ∧ t.pc = s.pc ∧
      (∀ k (h : k < image.length), t.byteAt (0x200 + k) = image[k]) ∧
      ∀ a, a < 0x200 ∨ 0x200 + image.length ≤ a → t.byteAt a = s.byteAt a) ∧
  (∀ (s : State) (image : List Byte), 3584 < image.length → s.load image = (s, .fault (.programTooLarge image.length))) ∧
  (∀ (p : Session) (image : List Byte), p.phase = .constructed ↔ ∃ q r, Session.act (.load image) p = .ok (q, r)) ∧
  ∀ (p q : Session) (a : HostAction) (r : Reply), Session.act a p = .ok (q, r) → a ≠ .construct →
    (p.phase ≠ .constructed ∨ (∃ image, a = .load image) ∨ ∃ b, a = .step b) → q.phase ≠ .constructed

/-- R220: `clear_redraw` and `clear_beep` clear their flag and change nothing else; no other host action but construction and a step
changes either flag; and a step only ever sets them, `redraw` by `CLS` or `DRW` and `beep` by a sound timer that reaches 0. -/
def Obligations.HostClearsSignalsAndSetsNone : Prop :=
  (∀ p : Session, ∃ q, Session.act .clearRedraw p = .ok (q, .ok) ∧ q.block = { p.block with redraw := false }) ∧
  (∀ p : Session, ∃ q, Session.act .clearBeep p = .ok (q, .ok) ∧ q.block = { p.block with beep := false }) ∧
  (∀ (p q : Session) (a : HostAction) (r : Reply), Session.act a p = .ok (q, r) → a ≠ .construct → (∀ b, a ≠ .step b) →
    (a ≠ .clearRedraw → q.block.redraw = p.block.redraw) ∧ (a ≠ .clearBeep → q.block.beep = p.block.beep)) ∧
  ∀ (s t : State) (w : Word), WordAtPc s w → step s = .next t →
    (t.redraw ≠ s.redraw → t.redraw = true ∧ (decode s.config w = .instr .cls ∨ ∃ x y n, decode s.config w = .instr (.drw x y n))) ∧
    (t.beep ≠ s.beep → t.beep = true ∧ t.ST = 0)

/-- R35, R221 (D19): the host may write 0 or 1 to any key cell, which changes that cell alone; a write of another value has no
transition. -/
def Obligations.HostWritesKeysZeroOrOne : Prop :=
  ∀ (p : Session) (k : Nibble) (v : Byte),
    (v.toNat ≤ 1 → ∃ q, Session.act (.writeKey k v) p = .ok (q, .ok) ∧ q.block.keyAt k = v ∧
      (∀ j, j ≠ k → q.block.keyAt j = p.block.keyAt j) ∧ q.block.pc = p.block.pc ∧ ChangesOnly [] [.keys] p.block q.block) ∧
    (1 < v.toNat → Session.act (.writeKey k v) p = .error (.keyValueNotZeroOrOne v))

/-! Invariants. -/

/-- R230, R232: the invariant holds after construction, under every configuration, and so at reset. -/
def Obligations.InvariantHoldsAtReset : Prop :=
  (∀ cfg, (State.construct cfg).Inv) ∧ State.reset.Inv

/-- R33, R34, R35, R50, R54, R200: every step keeps the invariant: canonical memory and display, key cells 0 or 1, the reserved region as
constructed under RESERVED_WRITE_POLICY = fault, and no load fault in `status`. -/
def Obligations.EveryStepKeepsTheInvariant : Prop :=
  ∀ s t : State, s.Inv → step s = .next t → t.Inv

/-- R41, R220, R221, R230, R231: every admitted host action, a step that faults among them, keeps the invariant of the block. -/
def Obligations.EveryHostActionKeepsTheInvariant : Prop :=
  ∀ (p q : Session) (a : HostAction) (r : Reply), p.Inv → Session.act a p = .ok (q, r) → q.Inv

/-- R50, R59, R61: equal contents are equal data: two canonical memories that read alike at every address are the same list. It is the
model's own form of memory (notes/assumptions/7.md). -/
def Obligations.CanonicalMemoriesWithEqualBytesAreEqual : Prop :=
  ∀ (cfg : Config) (m m' : Memory), Memory.wf cfg m = true → Memory.wf cfg m' = true →
    (∀ a < 0x1000, Memory.read cfg m a = Memory.read cfg m' a) → m = m'
end

