-- ==== Sys2Proof/Laws/Decode.lean ====
section
/-! SUPPORT. What the fields of an assembled word read as, and that every instruction is well-formed. -/

namespace Sys2Proof

/-- Every instruction is well-formed: the field types admit no other (R73). -/
theorem Instr.wellFormed_all (i : Instr) : i.wellFormed = true := by
  have h4 : ∀ x : Nibble, fits 4 x.toNat = true := fun x => by simp [fits, x.isLt]
  have h8 : ∀ x : Byte, fits 8 x.toNat = true := fun x => by simp [fits, x.isLt]
  have h12 : ∀ x : Addr12, fits 12 x.toNat = true := fun x => by simp [fits, x.isLt]
  cases i <;> simp [Instr.wellFormed, h4, h8, h12]

/-! The value of each field as a number (R8, R71). -/

theorem fieldF_toNat (w : Word) : (fieldF w).toNat = w.toNat / 4096 % 16 := by
  simp [fieldF, BitVec.extractLsb'_toNat, Nat.shiftRight_eq_div_pow]

theorem fieldX_toNat (w : Word) : (fieldX w).toNat = w.toNat / 256 % 16 := by
  simp [fieldX, BitVec.extractLsb'_toNat, Nat.shiftRight_eq_div_pow]

theorem fieldY_toNat (w : Word) : (fieldY w).toNat = w.toNat / 16 % 16 := by
  simp [fieldY, BitVec.extractLsb'_toNat, Nat.shiftRight_eq_div_pow]

theorem fieldN_toNat (w : Word) : (fieldN w).toNat = w.toNat % 16 := by
  simp [fieldN, BitVec.extractLsb'_toNat]

theorem fieldNN_toNat (w : Word) : (fieldNN w).toNat = w.toNat % 256 := by
  simp [fieldNN, BitVec.extractLsb'_toNat]

theorem fieldNNN_toNat (w : Word) : (fieldNNN w).toNat = w.toNat % 4096 := by
  simp [fieldNNN, BitVec.extractLsb'_toNat]

/-! An assembled word as a number. -/

theorem append_toNat {m n : Nat} (a : BitVec m) (b : BitVec n) : (a ++ b).toNat = a.toNat * 2 ^ n + b.toNat := by
  rw [BitVec.toNat_append, Nat.shiftLeft_eq, Nat.mul_comm, Nat.two_pow_add_eq_or_of_lt b.isLt]

theorem wordXYN_toNat (f x y n : Nibble) :
    (wordXYN f x y n).toNat = f.toNat * 4096 + x.toNat * 256 + y.toNat * 16 + n.toNat := by
  simp only [wordXYN, append_toNat]; omega

theorem wordXNN_toNat (f x : Nibble) (nn : Byte) : (wordXNN f x nn).toNat = f.toNat * 4096 + x.toNat * 256 + nn.toNat := by
  simp only [wordXNN, append_toNat]; omega

theorem wordNNN_toNat (f : Nibble) (nnn : Addr12) : (wordNNN f nnn).toNat = f.toNat * 4096 + nnn.toNat := by
  simp only [wordNNN, append_toNat]; omega

theorem wordOfBytes_toNat (high low : Byte) : (wordOfBytes high low).toNat = high.toNat * 256 + low.toNat := by
  simp only [wordOfBytes, append_toNat]; omega

/-! The fields of an assembled word. -/

@[simp] theorem fieldF_wordXYN (f x y n : Nibble) : fieldF (wordXYN f x y n) = f := by
  apply BitVec.eq_of_toNat_eq; rw [fieldF_toNat, wordXYN_toNat]; omega

@[simp] theorem fieldX_wordXYN (f x y n : Nibble) : fieldX (wordXYN f x y n) = x := by
  apply BitVec.eq_of_toNat_eq; rw [fieldX_toNat, wordXYN_toNat]; omega

@[simp] theorem fieldY_wordXYN (f x y n : Nibble) : fieldY (wordXYN f x y n) = y := by
  apply BitVec.eq_of_toNat_eq; rw [fieldY_toNat, wordXYN_toNat]; omega

@[simp] theorem fieldN_wordXYN (f x y n : Nibble) : fieldN (wordXYN f x y n) = n := by
  apply BitVec.eq_of_toNat_eq; rw [fieldN_toNat, wordXYN_toNat]; omega

@[simp] theorem fieldF_wordXNN (f x : Nibble) (nn : Byte) : fieldF (wordXNN f x nn) = f := by
  apply BitVec.eq_of_toNat_eq; rw [fieldF_toNat, wordXNN_toNat]; omega

@[simp] theorem fieldX_wordXNN (f x : Nibble) (nn : Byte) : fieldX (wordXNN f x nn) = x := by
  apply BitVec.eq_of_toNat_eq; rw [fieldX_toNat, wordXNN_toNat]; omega

@[simp] theorem fieldNN_wordXNN (f x : Nibble) (nn : Byte) : fieldNN (wordXNN f x nn) = nn := by
  apply BitVec.eq_of_toNat_eq; rw [fieldNN_toNat, wordXNN_toNat]; omega

@[simp] theorem fieldF_wordNNN (f : Nibble) (nnn : Addr12) : fieldF (wordNNN f nnn) = f := by
  apply BitVec.eq_of_toNat_eq; rw [fieldF_toNat, wordNNN_toNat]; omega

@[simp] theorem fieldNNN_wordNNN (f : Nibble) (nnn : Addr12) : fieldNNN (wordNNN f nnn) = nnn := by
  apply BitVec.eq_of_toNat_eq; rw [fieldNNN_toNat, wordNNN_toNat]; omega

/-- A word is its four nibbles (R71). -/
theorem wordXYN_fields (w : Word) : wordXYN (fieldF w) (fieldX w) (fieldY w) (fieldN w) = w := by
  apply BitVec.eq_of_toNat_eq
  rw [wordXYN_toNat, fieldF_toNat, fieldX_toNat, fieldY_toNat, fieldN_toNat]; omega

/-- A word is its family, `X` and `NN` (R71). -/
theorem wordXNN_fields (w : Word) : wordXNN (fieldF w) (fieldX w) (fieldNN w) = w := by
  apply BitVec.eq_of_toNat_eq
  rw [wordXNN_toNat, fieldF_toNat, fieldX_toNat, fieldNN_toNat]; omega

/-- A word is its family and `NNN` (R71). -/
theorem wordNNN_fields (w : Word) : wordNNN (fieldF w) (fieldNNN w) = w := by
  apply BitVec.eq_of_toNat_eq
  rw [wordNNN_toNat, fieldF_toNat, fieldNNN_toNat]; omega

/-- The bytes of a word, laid out and fetched again, are the word (R52). -/
@[simp] theorem wordOfBytes_bytes (w : Word) : wordOfBytes (highByte w) (lowByte w) = w := by
  apply BitVec.eq_of_toNat_eq
  rw [wordOfBytes_toNat]
  simp only [highByte, lowByte, BitVec.extractLsb'_toNat, Nat.shiftRight_eq_div_pow]; omega

/-- The nibble that decode ignores never matters in the word the encoder writes. -/
@[simp] theorem ignoredOk_zero (cfg : Config) : ignoredOk cfg 0#4 = true := by simp [ignoredOk]

/-- When decode accepts an ignored nibble (R74). -/
theorem ignoredOk_iff {cfg : Config} {n : Nibble} : ignoredOk cfg n = true ↔ cfg.strictDecode = false ∨ n = 0 := by
  simp [ignoredOk]

/-- Under STRICT_DECODE = false decode ignores the nibble. -/
theorem ignoredOk_lenient {cfg : Config} (h : cfg.strictDecode = false) (n : Nibble) : ignoredOk cfg n = true := by
  simp [ignoredOk, h]

/-! Decode, family by family (R74). -/

theorem nibble_cases (n : Nibble) : n = 0x0 ∨ n = 0x1 ∨ n = 0x2 ∨ n = 0x3 ∨ n = 0x4 ∨ n = 0x5 ∨ n = 0x6 ∨ n = 0x7 ∨ n = 0x8 ∨
    n = 0x9 ∨ n = 0xA ∨ n = 0xB ∨ n = 0xC ∨ n = 0xD ∨ n = 0xE ∨ n = 0xF := by
  revert n; decide

theorem decode_family_0 (cfg : Config) {w : Word} (h : fieldF w = 0x0) :
    decode cfg w = decodeFamily0 cfg w := by
  unfold decode; rw [h]; rfl

theorem decode_family_1 (cfg : Config) {w : Word} (h : fieldF w = 0x1) :
    decode cfg w = .instr (.jp (fieldNNN w)) := by
  unfold decode; rw [h]; rfl

theorem decode_family_2 (cfg : Config) {w : Word} (h : fieldF w = 0x2) :
    decode cfg w = .instr (.call (fieldNNN w)) := by
  unfold decode; rw [h]; rfl

theorem decode_family_3 (cfg : Config) {w : Word} (h : fieldF w = 0x3) :
    decode cfg w = .instr (.seImm (fieldX w) (fieldNN w)) := by
  unfold decode; rw [h]; rfl

theorem decode_family_4 (cfg : Config) {w : Word} (h : fieldF w = 0x4) :
    decode cfg w = .instr (.sneImm (fieldX w) (fieldNN w)) := by
  unfold decode; rw [h]; rfl

theorem decode_family_5 (cfg : Config) {w : Word} (h : fieldF w = 0x5) :
    decode cfg w = if ignoredOk cfg (fieldN w) then .instr (.seReg (fieldX w) (fieldY w)) else reject w := by
  unfold decode; rw [h]; rfl

theorem decode_family_6 (cfg : Config) {w : Word} (h : fieldF w = 0x6) :
    decode cfg w = .instr (.ldImm (fieldX w) (fieldNN w)) := by
  unfold decode; rw [h]; rfl

theorem decode_family_7 (cfg : Config) {w : Word} (h : fieldF w = 0x7) :
    decode cfg w = .instr (.addImm (fieldX w) (fieldNN w)) := by
  unfold decode; rw [h]; rfl

theorem decode_family_8 (cfg : Config) {w : Word} (h : fieldF w = 0x8) :
    decode cfg w = decodeFamily8 w := by
  unfold decode; rw [h]; rfl

theorem decode_family_9 (cfg : Config) {w : Word} (h : fieldF w = 0x9) :
    decode cfg w = if ignoredOk cfg (fieldN w) then .instr (.sneReg (fieldX w) (fieldY w)) else reject w := by
  unfold decode; rw [h]; rfl

theorem decode_family_A (cfg : Config) {w : Word} (h : fieldF w = 0xA) :
    decode cfg w = .instr (.ldI (fieldNNN w)) := by
  unfold decode; rw [h]; rfl

theorem decode_family_B (cfg : Config) {w : Word} (h : fieldF w = 0xB) :
    decode cfg w = .instr (.jpV0 (fieldNNN w)) := by
  unfold decode; rw [h]; rfl

theorem decode_family_C (cfg : Config) {w : Word} (h : fieldF w = 0xC) :
    decode cfg w = .instr (.rnd (fieldX w) (fieldNN w)) := by
  unfold decode; rw [h]; rfl

theorem decode_family_D (cfg : Config) {w : Word} (h : fieldF w = 0xD) :
    decode cfg w = .instr (.drw (fieldX w) (fieldY w) (fieldN w)) := by
  unfold decode; rw [h]; rfl

theorem decode_family_E (cfg : Config) {w : Word} (h : fieldF w = 0xE) :
    decode cfg w = decodeFamilyE w := by
  unfold decode; rw [h]; rfl

theorem decode_family_F (cfg : Config) {w : Word} (h : fieldF w = 0xF) :
    decode cfg w = decodeFamilyF w := by
  unfold decode; rw [h]; rfl

/-! The bits that the masks of R75 keep. -/

/-- Mask F000 keeps the family. -/
theorem and_mask_F (w : Word) : w &&& 0xF000 = wordXYN (fieldF w) 0 0 0 := by
  apply BitVec.eq_of_getLsbD_eq
  intro k hk
  simp only [wordXYN, fieldF, BitVec.getLsbD_and, BitVec.getLsbD_append, BitVec.getLsbD_extractLsb']
  interval_cases k <;> simp

/-- Mask F00F keeps the family and the low nibble. -/
theorem and_mask_FN (w : Word) : w &&& 0xF00F = wordXYN (fieldF w) 0 0 (fieldN w) := by
  apply BitVec.eq_of_getLsbD_eq
  intro k hk
  simp only [wordXYN, fieldF, fieldN, BitVec.getLsbD_and, BitVec.getLsbD_append, BitVec.getLsbD_extractLsb']
  interval_cases k <;> simp

/-- Mask F0FF keeps the family and the low byte. -/
theorem and_mask_FNN (w : Word) : w &&& 0xF0FF = wordXNN (fieldF w) 0 (fieldNN w) := by
  apply BitVec.eq_of_getLsbD_eq
  intro k hk
  simp only [wordXNN, fieldF, fieldNN, BitVec.getLsbD_and, BitVec.getLsbD_append, BitVec.getLsbD_extractLsb']
  interval_cases k <;> simp

end Sys2Proof
end

