-- ==== Sys2Proof/Laws/State.lean ====
section
/-! SUPPORT. One lemma per field of State per update, true by unfolding, so that no later proof unfolds a record update; then what
the accessors read after each update. -/

namespace Sys2Proof.Machine

variable (s : State)

/-! `State.setReg` -/

@[simp] theorem State.setReg_config (x : Nibble) (v : Byte) : (s.setReg x v).config = s.config := rfl
@[simp] theorem State.setReg_I (x : Nibble) (v : Byte) : (s.setReg x v).I = s.I := rfl
@[simp] theorem State.setReg_pc (x : Nibble) (v : Byte) : (s.setReg x v).pc = s.pc := rfl
@[simp] theorem State.setReg_stack (x : Nibble) (v : Byte) : (s.setReg x v).stack = s.stack := rfl
@[simp] theorem State.setReg_sp (x : Nibble) (v : Byte) : (s.setReg x v).sp = s.sp := rfl
@[simp] theorem State.setReg_DT (x : Nibble) (v : Byte) : (s.setReg x v).DT = s.DT := rfl
@[simp] theorem State.setReg_ST (x : Nibble) (v : Byte) : (s.setReg x v).ST = s.ST := rfl
@[simp] theorem State.setReg_mem (x : Nibble) (v : Byte) : (s.setReg x v).mem = s.mem := rfl
@[simp] theorem State.setReg_disp (x : Nibble) (v : Byte) : (s.setReg x v).disp = s.disp := rfl
@[simp] theorem State.setReg_key (x : Nibble) (v : Byte) : (s.setReg x v).key = s.key := rfl
@[simp] theorem State.setReg_redraw (x : Nibble) (v : Byte) : (s.setReg x v).redraw = s.redraw := rfl
@[simp] theorem State.setReg_beep (x : Nibble) (v : Byte) : (s.setReg x v).beep = s.beep := rfl
@[simp] theorem State.setReg_status (x : Nibble) (v : Byte) : (s.setReg x v).status = s.status := rfl
@[simp] theorem State.setReg_rnd (x : Nibble) (v : Byte) : (s.setReg x v).rnd = s.rnd := rfl
@[simp] theorem State.setReg_draws (x : Nibble) (v : Byte) : (s.setReg x v).draws = s.draws := rfl

/-! `State.setI` -/

@[simp] theorem State.setI_config (v : Word) : (s.setI v).config = s.config := rfl
@[simp] theorem State.setI_V (v : Word) : (s.setI v).V = s.V := rfl
@[simp] theorem State.setI_I (v : Word) : (s.setI v).I = v := rfl
@[simp] theorem State.setI_pc (v : Word) : (s.setI v).pc = s.pc := rfl
@[simp] theorem State.setI_stack (v : Word) : (s.setI v).stack = s.stack := rfl
@[simp] theorem State.setI_sp (v : Word) : (s.setI v).sp = s.sp := rfl
@[simp] theorem State.setI_DT (v : Word) : (s.setI v).DT = s.DT := rfl
@[simp] theorem State.setI_ST (v : Word) : (s.setI v).ST = s.ST := rfl
@[simp] theorem State.setI_mem (v : Word) : (s.setI v).mem = s.mem := rfl
@[simp] theorem State.setI_disp (v : Word) : (s.setI v).disp = s.disp := rfl
@[simp] theorem State.setI_key (v : Word) : (s.setI v).key = s.key := rfl
@[simp] theorem State.setI_redraw (v : Word) : (s.setI v).redraw = s.redraw := rfl
@[simp] theorem State.setI_beep (v : Word) : (s.setI v).beep = s.beep := rfl
@[simp] theorem State.setI_status (v : Word) : (s.setI v).status = s.status := rfl
@[simp] theorem State.setI_rnd (v : Word) : (s.setI v).rnd = s.rnd := rfl
@[simp] theorem State.setI_draws (v : Word) : (s.setI v).draws = s.draws := rfl

/-! `State.setPc` -/

@[simp] theorem State.setPc_config (v : Word) : (s.setPc v).config = s.config := rfl
@[simp] theorem State.setPc_V (v : Word) : (s.setPc v).V = s.V := rfl
@[simp] theorem State.setPc_I (v : Word) : (s.setPc v).I = s.I := rfl
@[simp] theorem State.setPc_pc (v : Word) : (s.setPc v).pc = v := rfl
@[simp] theorem State.setPc_stack (v : Word) : (s.setPc v).stack = s.stack := rfl
@[simp] theorem State.setPc_sp (v : Word) : (s.setPc v).sp = s.sp := rfl
@[simp] theorem State.setPc_DT (v : Word) : (s.setPc v).DT = s.DT := rfl
@[simp] theorem State.setPc_ST (v : Word) : (s.setPc v).ST = s.ST := rfl
@[simp] theorem State.setPc_mem (v : Word) : (s.setPc v).mem = s.mem := rfl
@[simp] theorem State.setPc_disp (v : Word) : (s.setPc v).disp = s.disp := rfl
@[simp] theorem State.setPc_key (v : Word) : (s.setPc v).key = s.key := rfl
@[simp] theorem State.setPc_redraw (v : Word) : (s.setPc v).redraw = s.redraw := rfl
@[simp] theorem State.setPc_beep (v : Word) : (s.setPc v).beep = s.beep := rfl
@[simp] theorem State.setPc_status (v : Word) : (s.setPc v).status = s.status := rfl
@[simp] theorem State.setPc_rnd (v : Word) : (s.setPc v).rnd = s.rnd := rfl
@[simp] theorem State.setPc_draws (v : Word) : (s.setPc v).draws = s.draws := rfl

/-! `State.setDT` -/

@[simp] theorem State.setDT_config (v : Byte) : (s.setDT v).config = s.config := rfl
@[simp] theorem State.setDT_V (v : Byte) : (s.setDT v).V = s.V := rfl
@[simp] theorem State.setDT_I (v : Byte) : (s.setDT v).I = s.I := rfl
@[simp] theorem State.setDT_pc (v : Byte) : (s.setDT v).pc = s.pc := rfl
@[simp] theorem State.setDT_stack (v : Byte) : (s.setDT v).stack = s.stack := rfl
@[simp] theorem State.setDT_sp (v : Byte) : (s.setDT v).sp = s.sp := rfl
@[simp] theorem State.setDT_DT (v : Byte) : (s.setDT v).DT = v := rfl
@[simp] theorem State.setDT_ST (v : Byte) : (s.setDT v).ST = s.ST := rfl
@[simp] theorem State.setDT_mem (v : Byte) : (s.setDT v).mem = s.mem := rfl
@[simp] theorem State.setDT_disp (v : Byte) : (s.setDT v).disp = s.disp := rfl
@[simp] theorem State.setDT_key (v : Byte) : (s.setDT v).key = s.key := rfl
@[simp] theorem State.setDT_redraw (v : Byte) : (s.setDT v).redraw = s.redraw := rfl
@[simp] theorem State.setDT_beep (v : Byte) : (s.setDT v).beep = s.beep := rfl
@[simp] theorem State.setDT_status (v : Byte) : (s.setDT v).status = s.status := rfl
@[simp] theorem State.setDT_rnd (v : Byte) : (s.setDT v).rnd = s.rnd := rfl
@[simp] theorem State.setDT_draws (v : Byte) : (s.setDT v).draws = s.draws := rfl

/-! `State.setST` -/

@[simp] theorem State.setST_config (v : Byte) : (s.setST v).config = s.config := rfl
@[simp] theorem State.setST_V (v : Byte) : (s.setST v).V = s.V := rfl
@[simp] theorem State.setST_I (v : Byte) : (s.setST v).I = s.I := rfl
@[simp] theorem State.setST_pc (v : Byte) : (s.setST v).pc = s.pc := rfl
@[simp] theorem State.setST_stack (v : Byte) : (s.setST v).stack = s.stack := rfl
@[simp] theorem State.setST_sp (v : Byte) : (s.setST v).sp = s.sp := rfl
@[simp] theorem State.setST_DT (v : Byte) : (s.setST v).DT = s.DT := rfl
@[simp] theorem State.setST_ST (v : Byte) : (s.setST v).ST = v := rfl
@[simp] theorem State.setST_mem (v : Byte) : (s.setST v).mem = s.mem := rfl
@[simp] theorem State.setST_disp (v : Byte) : (s.setST v).disp = s.disp := rfl
@[simp] theorem State.setST_key (v : Byte) : (s.setST v).key = s.key := rfl
@[simp] theorem State.setST_redraw (v : Byte) : (s.setST v).redraw = s.redraw := rfl
@[simp] theorem State.setST_beep (v : Byte) : (s.setST v).beep = s.beep := rfl
@[simp] theorem State.setST_status (v : Byte) : (s.setST v).status = s.status := rfl
@[simp] theorem State.setST_rnd (v : Byte) : (s.setST v).rnd = s.rnd := rfl
@[simp] theorem State.setST_draws (v : Byte) : (s.setST v).draws = s.draws := rfl

/-! `State.setMem` -/

@[simp] theorem State.setMem_config (m : Memory) : (s.setMem m).config = s.config := rfl
@[simp] theorem State.setMem_V (m : Memory) : (s.setMem m).V = s.V := rfl
@[simp] theorem State.setMem_I (m : Memory) : (s.setMem m).I = s.I := rfl
@[simp] theorem State.setMem_pc (m : Memory) : (s.setMem m).pc = s.pc := rfl
@[simp] theorem State.setMem_stack (m : Memory) : (s.setMem m).stack = s.stack := rfl
@[simp] theorem State.setMem_sp (m : Memory) : (s.setMem m).sp = s.sp := rfl
@[simp] theorem State.setMem_DT (m : Memory) : (s.setMem m).DT = s.DT := rfl
@[simp] theorem State.setMem_ST (m : Memory) : (s.setMem m).ST = s.ST := rfl
@[simp] theorem State.setMem_mem (m : Memory) : (s.setMem m).mem = m := rfl
@[simp] theorem State.setMem_disp (m : Memory) : (s.setMem m).disp = s.disp := rfl
@[simp] theorem State.setMem_key (m : Memory) : (s.setMem m).key = s.key := rfl
@[simp] theorem State.setMem_redraw (m : Memory) : (s.setMem m).redraw = s.redraw := rfl
@[simp] theorem State.setMem_beep (m : Memory) : (s.setMem m).beep = s.beep := rfl
@[simp] theorem State.setMem_status (m : Memory) : (s.setMem m).status = s.status := rfl
@[simp] theorem State.setMem_rnd (m : Memory) : (s.setMem m).rnd = s.rnd := rfl
@[simp] theorem State.setMem_draws (m : Memory) : (s.setMem m).draws = s.draws := rfl

/-! `State.setDisp` -/

@[simp] theorem State.setDisp_config (d : Bitmap) : (s.setDisp d).config = s.config := rfl
@[simp] theorem State.setDisp_V (d : Bitmap) : (s.setDisp d).V = s.V := rfl
@[simp] theorem State.setDisp_I (d : Bitmap) : (s.setDisp d).I = s.I := rfl
@[simp] theorem State.setDisp_pc (d : Bitmap) : (s.setDisp d).pc = s.pc := rfl
@[simp] theorem State.setDisp_stack (d : Bitmap) : (s.setDisp d).stack = s.stack := rfl
@[simp] theorem State.setDisp_sp (d : Bitmap) : (s.setDisp d).sp = s.sp := rfl
@[simp] theorem State.setDisp_DT (d : Bitmap) : (s.setDisp d).DT = s.DT := rfl
@[simp] theorem State.setDisp_ST (d : Bitmap) : (s.setDisp d).ST = s.ST := rfl
@[simp] theorem State.setDisp_mem (d : Bitmap) : (s.setDisp d).mem = s.mem := rfl
@[simp] theorem State.setDisp_disp (d : Bitmap) : (s.setDisp d).disp = d := rfl
@[simp] theorem State.setDisp_key (d : Bitmap) : (s.setDisp d).key = s.key := rfl
@[simp] theorem State.setDisp_redraw (d : Bitmap) : (s.setDisp d).redraw = s.redraw := rfl
@[simp] theorem State.setDisp_beep (d : Bitmap) : (s.setDisp d).beep = s.beep := rfl
@[simp] theorem State.setDisp_status (d : Bitmap) : (s.setDisp d).status = s.status := rfl
@[simp] theorem State.setDisp_rnd (d : Bitmap) : (s.setDisp d).rnd = s.rnd := rfl
@[simp] theorem State.setDisp_draws (d : Bitmap) : (s.setDisp d).draws = s.draws := rfl

/-! `State.setRedraw` -/

@[simp] theorem State.setRedraw_config (b : Bool) : (s.setRedraw b).config = s.config := rfl
@[simp] theorem State.setRedraw_V (b : Bool) : (s.setRedraw b).V = s.V := rfl
@[simp] theorem State.setRedraw_I (b : Bool) : (s.setRedraw b).I = s.I := rfl
@[simp] theorem State.setRedraw_pc (b : Bool) : (s.setRedraw b).pc = s.pc := rfl
@[simp] theorem State.setRedraw_stack (b : Bool) : (s.setRedraw b).stack = s.stack := rfl
@[simp] theorem State.setRedraw_sp (b : Bool) : (s.setRedraw b).sp = s.sp := rfl
@[simp] theorem State.setRedraw_DT (b : Bool) : (s.setRedraw b).DT = s.DT := rfl
@[simp] theorem State.setRedraw_ST (b : Bool) : (s.setRedraw b).ST = s.ST := rfl
@[simp] theorem State.setRedraw_mem (b : Bool) : (s.setRedraw b).mem = s.mem := rfl
@[simp] theorem State.setRedraw_disp (b : Bool) : (s.setRedraw b).disp = s.disp := rfl
@[simp] theorem State.setRedraw_key (b : Bool) : (s.setRedraw b).key = s.key := rfl
@[simp] theorem State.setRedraw_redraw (b : Bool) : (s.setRedraw b).redraw = b := rfl
@[simp] theorem State.setRedraw_beep (b : Bool) : (s.setRedraw b).beep = s.beep := rfl
@[simp] theorem State.setRedraw_status (b : Bool) : (s.setRedraw b).status = s.status := rfl
@[simp] theorem State.setRedraw_rnd (b : Bool) : (s.setRedraw b).rnd = s.rnd := rfl
@[simp] theorem State.setRedraw_draws (b : Bool) : (s.setRedraw b).draws = s.draws := rfl

/-! `State.setBeep` -/

@[simp] theorem State.setBeep_config (b : Bool) : (s.setBeep b).config = s.config := rfl
@[simp] theorem State.setBeep_V (b : Bool) : (s.setBeep b).V = s.V := rfl
@[simp] theorem State.setBeep_I (b : Bool) : (s.setBeep b).I = s.I := rfl
@[simp] theorem State.setBeep_pc (b : Bool) : (s.setBeep b).pc = s.pc := rfl
@[simp] theorem State.setBeep_stack (b : Bool) : (s.setBeep b).stack = s.stack := rfl
@[simp] theorem State.setBeep_sp (b : Bool) : (s.setBeep b).sp = s.sp := rfl
@[simp] theorem State.setBeep_DT (b : Bool) : (s.setBeep b).DT = s.DT := rfl
@[simp] theorem State.setBeep_ST (b : Bool) : (s.setBeep b).ST = s.ST := rfl
@[simp] theorem State.setBeep_mem (b : Bool) : (s.setBeep b).mem = s.mem := rfl
@[simp] theorem State.setBeep_disp (b : Bool) : (s.setBeep b).disp = s.disp := rfl
@[simp] theorem State.setBeep_key (b : Bool) : (s.setBeep b).key = s.key := rfl
@[simp] theorem State.setBeep_redraw (b : Bool) : (s.setBeep b).redraw = s.redraw := rfl
@[simp] theorem State.setBeep_beep (b : Bool) : (s.setBeep b).beep = b := rfl
@[simp] theorem State.setBeep_status (b : Bool) : (s.setBeep b).status = s.status := rfl
@[simp] theorem State.setBeep_rnd (b : Bool) : (s.setBeep b).rnd = s.rnd := rfl
@[simp] theorem State.setBeep_draws (b : Bool) : (s.setBeep b).draws = s.draws := rfl

/-! `State.setStack` -/

@[simp] theorem State.setStack_config (n : Fin 17) (w : Vector Word 16) : (s.setStack n w).config = s.config := rfl
@[simp] theorem State.setStack_V (n : Fin 17) (w : Vector Word 16) : (s.setStack n w).V = s.V := rfl
@[simp] theorem State.setStack_I (n : Fin 17) (w : Vector Word 16) : (s.setStack n w).I = s.I := rfl
@[simp] theorem State.setStack_pc (n : Fin 17) (w : Vector Word 16) : (s.setStack n w).pc = s.pc := rfl
@[simp] theorem State.setStack_stack (n : Fin 17) (w : Vector Word 16) : (s.setStack n w).stack = w := rfl
@[simp] theorem State.setStack_sp (n : Fin 17) (w : Vector Word 16) : (s.setStack n w).sp = n := rfl
@[simp] theorem State.setStack_DT (n : Fin 17) (w : Vector Word 16) : (s.setStack n w).DT = s.DT := rfl
@[simp] theorem State.setStack_ST (n : Fin 17) (w : Vector Word 16) : (s.setStack n w).ST = s.ST := rfl
@[simp] theorem State.setStack_mem (n : Fin 17) (w : Vector Word 16) : (s.setStack n w).mem = s.mem := rfl
@[simp] theorem State.setStack_disp (n : Fin 17) (w : Vector Word 16) : (s.setStack n w).disp = s.disp := rfl
@[simp] theorem State.setStack_key (n : Fin 17) (w : Vector Word 16) : (s.setStack n w).key = s.key := rfl
@[simp] theorem State.setStack_redraw (n : Fin 17) (w : Vector Word 16) : (s.setStack n w).redraw = s.redraw := rfl
@[simp] theorem State.setStack_beep (n : Fin 17) (w : Vector Word 16) : (s.setStack n w).beep = s.beep := rfl
@[simp] theorem State.setStack_status (n : Fin 17) (w : Vector Word 16) : (s.setStack n w).status = s.status := rfl
@[simp] theorem State.setStack_rnd (n : Fin 17) (w : Vector Word 16) : (s.setStack n w).rnd = s.rnd := rfl
@[simp] theorem State.setStack_draws (n : Fin 17) (w : Vector Word 16) : (s.setStack n w).draws = s.draws := rfl

/-! `State.setKey` -/

@[simp] theorem State.setKey_config (k : Nibble) (v : Byte) : (s.setKey k v).config = s.config := rfl
@[simp] theorem State.setKey_V (k : Nibble) (v : Byte) : (s.setKey k v).V = s.V := rfl
@[simp] theorem State.setKey_I (k : Nibble) (v : Byte) : (s.setKey k v).I = s.I := rfl
@[simp] theorem State.setKey_pc (k : Nibble) (v : Byte) : (s.setKey k v).pc = s.pc := rfl
@[simp] theorem State.setKey_stack (k : Nibble) (v : Byte) : (s.setKey k v).stack = s.stack := rfl
@[simp] theorem State.setKey_sp (k : Nibble) (v : Byte) : (s.setKey k v).sp = s.sp := rfl
@[simp] theorem State.setKey_DT (k : Nibble) (v : Byte) : (s.setKey k v).DT = s.DT := rfl
@[simp] theorem State.setKey_ST (k : Nibble) (v : Byte) : (s.setKey k v).ST = s.ST := rfl
@[simp] theorem State.setKey_mem (k : Nibble) (v : Byte) : (s.setKey k v).mem = s.mem := rfl
@[simp] theorem State.setKey_disp (k : Nibble) (v : Byte) : (s.setKey k v).disp = s.disp := rfl
@[simp] theorem State.setKey_redraw (k : Nibble) (v : Byte) : (s.setKey k v).redraw = s.redraw := rfl
@[simp] theorem State.setKey_beep (k : Nibble) (v : Byte) : (s.setKey k v).beep = s.beep := rfl
@[simp] theorem State.setKey_status (k : Nibble) (v : Byte) : (s.setKey k v).status = s.status := rfl
@[simp] theorem State.setKey_rnd (k : Nibble) (v : Byte) : (s.setKey k v).rnd = s.rnd := rfl
@[simp] theorem State.setKey_draws (k : Nibble) (v : Byte) : (s.setKey k v).draws = s.draws := rfl

/-! `State.setStatus` -/

@[simp] theorem State.setStatus_config (q : RunStatus) : (s.setStatus q).config = s.config := rfl
@[simp] theorem State.setStatus_V (q : RunStatus) : (s.setStatus q).V = s.V := rfl
@[simp] theorem State.setStatus_I (q : RunStatus) : (s.setStatus q).I = s.I := rfl
@[simp] theorem State.setStatus_pc (q : RunStatus) : (s.setStatus q).pc = s.pc := rfl
@[simp] theorem State.setStatus_stack (q : RunStatus) : (s.setStatus q).stack = s.stack := rfl
@[simp] theorem State.setStatus_sp (q : RunStatus) : (s.setStatus q).sp = s.sp := rfl
@[simp] theorem State.setStatus_DT (q : RunStatus) : (s.setStatus q).DT = s.DT := rfl
@[simp] theorem State.setStatus_ST (q : RunStatus) : (s.setStatus q).ST = s.ST := rfl
@[simp] theorem State.setStatus_mem (q : RunStatus) : (s.setStatus q).mem = s.mem := rfl
@[simp] theorem State.setStatus_disp (q : RunStatus) : (s.setStatus q).disp = s.disp := rfl
@[simp] theorem State.setStatus_key (q : RunStatus) : (s.setStatus q).key = s.key := rfl
@[simp] theorem State.setStatus_redraw (q : RunStatus) : (s.setStatus q).redraw = s.redraw := rfl
@[simp] theorem State.setStatus_beep (q : RunStatus) : (s.setStatus q).beep = s.beep := rfl
@[simp] theorem State.setStatus_status (q : RunStatus) : (s.setStatus q).status = q := rfl
@[simp] theorem State.setStatus_rnd (q : RunStatus) : (s.setStatus q).rnd = s.rnd := rfl
@[simp] theorem State.setStatus_draws (q : RunStatus) : (s.setStatus q).draws = s.draws := rfl

/-! `State.setRnd` -/

@[simp] theorem State.setRnd_config (q : Option Byte) : (s.setRnd q).config = s.config := rfl
@[simp] theorem State.setRnd_V (q : Option Byte) : (s.setRnd q).V = s.V := rfl
@[simp] theorem State.setRnd_I (q : Option Byte) : (s.setRnd q).I = s.I := rfl
@[simp] theorem State.setRnd_pc (q : Option Byte) : (s.setRnd q).pc = s.pc := rfl
@[simp] theorem State.setRnd_stack (q : Option Byte) : (s.setRnd q).stack = s.stack := rfl
@[simp] theorem State.setRnd_sp (q : Option Byte) : (s.setRnd q).sp = s.sp := rfl
@[simp] theorem State.setRnd_DT (q : Option Byte) : (s.setRnd q).DT = s.DT := rfl
@[simp] theorem State.setRnd_ST (q : Option Byte) : (s.setRnd q).ST = s.ST := rfl
@[simp] theorem State.setRnd_mem (q : Option Byte) : (s.setRnd q).mem = s.mem := rfl
@[simp] theorem State.setRnd_disp (q : Option Byte) : (s.setRnd q).disp = s.disp := rfl
@[simp] theorem State.setRnd_key (q : Option Byte) : (s.setRnd q).key = s.key := rfl
@[simp] theorem State.setRnd_redraw (q : Option Byte) : (s.setRnd q).redraw = s.redraw := rfl
@[simp] theorem State.setRnd_beep (q : Option Byte) : (s.setRnd q).beep = s.beep := rfl
@[simp] theorem State.setRnd_status (q : Option Byte) : (s.setRnd q).status = s.status := rfl
@[simp] theorem State.setRnd_rnd (q : Option Byte) : (s.setRnd q).rnd = q := rfl
@[simp] theorem State.setRnd_draws (q : Option Byte) : (s.setRnd q).draws = s.draws := rfl

/-! `State.setDraws` -/

@[simp] theorem State.setDraws_config (n : Nat) : (s.setDraws n).config = s.config := rfl
@[simp] theorem State.setDraws_V (n : Nat) : (s.setDraws n).V = s.V := rfl
@[simp] theorem State.setDraws_I (n : Nat) : (s.setDraws n).I = s.I := rfl
@[simp] theorem State.setDraws_pc (n : Nat) : (s.setDraws n).pc = s.pc := rfl
@[simp] theorem State.setDraws_stack (n : Nat) : (s.setDraws n).stack = s.stack := rfl
@[simp] theorem State.setDraws_sp (n : Nat) : (s.setDraws n).sp = s.sp := rfl
@[simp] theorem State.setDraws_DT (n : Nat) : (s.setDraws n).DT = s.DT := rfl
@[simp] theorem State.setDraws_ST (n : Nat) : (s.setDraws n).ST = s.ST := rfl
@[simp] theorem State.setDraws_mem (n : Nat) : (s.setDraws n).mem = s.mem := rfl
@[simp] theorem State.setDraws_disp (n : Nat) : (s.setDraws n).disp = s.disp := rfl
@[simp] theorem State.setDraws_key (n : Nat) : (s.setDraws n).key = s.key := rfl
@[simp] theorem State.setDraws_redraw (n : Nat) : (s.setDraws n).redraw = s.redraw := rfl
@[simp] theorem State.setDraws_beep (n : Nat) : (s.setDraws n).beep = s.beep := rfl
@[simp] theorem State.setDraws_status (n : Nat) : (s.setDraws n).status = s.status := rfl
@[simp] theorem State.setDraws_rnd (n : Nat) : (s.setDraws n).rnd = s.rnd := rfl
@[simp] theorem State.setDraws_draws (n : Nat) : (s.setDraws n).draws = n := rfl

/-! `State.advance` -/

@[simp] theorem State.advance_config (n : Nat) : (s.advance n).config = s.config := rfl
@[simp] theorem State.advance_V (n : Nat) : (s.advance n).V = s.V := rfl
@[simp] theorem State.advance_I (n : Nat) : (s.advance n).I = s.I := rfl
@[simp] theorem State.advance_pc (n : Nat) : (s.advance n).pc = s.pc + BitVec.ofNat 16 n := rfl
@[simp] theorem State.advance_stack (n : Nat) : (s.advance n).stack = s.stack := rfl
@[simp] theorem State.advance_sp (n : Nat) : (s.advance n).sp = s.sp := rfl
@[simp] theorem State.advance_DT (n : Nat) : (s.advance n).DT = s.DT := rfl
@[simp] theorem State.advance_ST (n : Nat) : (s.advance n).ST = s.ST := rfl
@[simp] theorem State.advance_mem (n : Nat) : (s.advance n).mem = s.mem := rfl
@[simp] theorem State.advance_disp (n : Nat) : (s.advance n).disp = s.disp := rfl
@[simp] theorem State.advance_key (n : Nat) : (s.advance n).key = s.key := rfl
@[simp] theorem State.advance_redraw (n : Nat) : (s.advance n).redraw = s.redraw := rfl
@[simp] theorem State.advance_beep (n : Nat) : (s.advance n).beep = s.beep := rfl
@[simp] theorem State.advance_status (n : Nat) : (s.advance n).status = s.status := rfl
@[simp] theorem State.advance_rnd (n : Nat) : (s.advance n).rnd = s.rnd := rfl
@[simp] theorem State.advance_draws (n : Nat) : (s.advance n).draws = s.draws := rfl

/-! What the accessors read. -/

/-- A register reads as it was written, and every other register as before (R20). -/
theorem State.reg_setReg (x r : Nibble) (v : Byte) : (s.setReg x v).reg r = if r = x then v else s.reg r := by
  have hx : x.toNat = r.toNat ↔ r = x := by
    constructor
    · intro h; exact (BitVec.eq_of_toNat_eq h).symm
    · intro h; rw [h]
  simp only [State.reg, State.setReg, Vector.getElem_set, hx]

@[simp] theorem State.reg_setReg_same (x : Nibble) (v : Byte) : (s.setReg x v).reg x = v := by
  simp [State.reg_setReg]

theorem State.reg_setReg_other {x r : Nibble} (h : r ≠ x) (v : Byte) : (s.setReg x v).reg r = s.reg r := by
  simp [State.reg_setReg, h]

/-- A key cell reads as it was written, and every other cell as before (R35). -/
theorem State.keyAt_setKey (k r : Nibble) (v : Byte) : (s.setKey k v).keyAt r = if r = k then v else s.keyAt r := by
  have hk : k.toNat = r.toNat ↔ r = k := by
    constructor
    · intro h; exact (BitVec.eq_of_toNat_eq h).symm
    · intro h; rw [h]
  simp only [State.keyAt, State.setKey, Vector.getElem_set, hk]

/-! `State.reg` after each update. -/

@[simp] theorem State.reg_setI (v : Word) (r : Nibble) : (s.setI v).reg r = s.reg r := rfl
@[simp] theorem State.reg_setPc (v : Word) (r : Nibble) : (s.setPc v).reg r = s.reg r := rfl
@[simp] theorem State.reg_setDT (v : Byte) (r : Nibble) : (s.setDT v).reg r = s.reg r := rfl
@[simp] theorem State.reg_setST (v : Byte) (r : Nibble) : (s.setST v).reg r = s.reg r := rfl
@[simp] theorem State.reg_setMem (m : Memory) (r : Nibble) : (s.setMem m).reg r = s.reg r := rfl
@[simp] theorem State.reg_setDisp (d : Bitmap) (r : Nibble) : (s.setDisp d).reg r = s.reg r := rfl
@[simp] theorem State.reg_setRedraw (b : Bool) (r : Nibble) : (s.setRedraw b).reg r = s.reg r := rfl
@[simp] theorem State.reg_setBeep (b : Bool) (r : Nibble) : (s.setBeep b).reg r = s.reg r := rfl
@[simp] theorem State.reg_setStack (n : Fin 17) (w : Vector Word 16) (r : Nibble) : (s.setStack n w).reg r = s.reg r := rfl
@[simp] theorem State.reg_setKey (k : Nibble) (v : Byte) (r : Nibble) : (s.setKey k v).reg r = s.reg r := rfl
@[simp] theorem State.reg_setStatus (q : RunStatus) (r : Nibble) : (s.setStatus q).reg r = s.reg r := rfl
@[simp] theorem State.reg_setRnd (q : Option Byte) (r : Nibble) : (s.setRnd q).reg r = s.reg r := rfl
@[simp] theorem State.reg_setDraws (n : Nat) (r : Nibble) : (s.setDraws n).reg r = s.reg r := rfl
@[simp] theorem State.reg_advance (n : Nat) (r : Nibble) : (s.advance n).reg r = s.reg r := rfl

/-! `State.keyAt` after each update. -/

@[simp] theorem State.keyAt_setReg (x : Nibble) (v : Byte) (r : Nibble) : (s.setReg x v).keyAt r = s.keyAt r := rfl
@[simp] theorem State.keyAt_setI (v : Word) (r : Nibble) : (s.setI v).keyAt r = s.keyAt r := rfl
@[simp] theorem State.keyAt_setPc (v : Word) (r : Nibble) : (s.setPc v).keyAt r = s.keyAt r := rfl
@[simp] theorem State.keyAt_setDT (v : Byte) (r : Nibble) : (s.setDT v).keyAt r = s.keyAt r := rfl
@[simp] theorem State.keyAt_setST (v : Byte) (r : Nibble) : (s.setST v).keyAt r = s.keyAt r := rfl
@[simp] theorem State.keyAt_setMem (m : Memory) (r : Nibble) : (s.setMem m).keyAt r = s.keyAt r := rfl
@[simp] theorem State.keyAt_setDisp (d : Bitmap) (r : Nibble) : (s.setDisp d).keyAt r = s.keyAt r := rfl
@[simp] theorem State.keyAt_setRedraw (b : Bool) (r : Nibble) : (s.setRedraw b).keyAt r = s.keyAt r := rfl
@[simp] theorem State.keyAt_setBeep (b : Bool) (r : Nibble) : (s.setBeep b).keyAt r = s.keyAt r := rfl
@[simp] theorem State.keyAt_setStack (n : Fin 17) (w : Vector Word 16) (r : Nibble) : (s.setStack n w).keyAt r = s.keyAt r := rfl
@[simp] theorem State.keyAt_setStatus (q : RunStatus) (r : Nibble) : (s.setStatus q).keyAt r = s.keyAt r := rfl
@[simp] theorem State.keyAt_setRnd (q : Option Byte) (r : Nibble) : (s.setRnd q).keyAt r = s.keyAt r := rfl
@[simp] theorem State.keyAt_setDraws (n : Nat) (r : Nibble) : (s.setDraws n).keyAt r = s.keyAt r := rfl
@[simp] theorem State.keyAt_advance (n : Nat) (r : Nibble) : (s.advance n).keyAt r = s.keyAt r := rfl

/-! `State.byteAt` after each update. -/

@[simp] theorem State.byteAt_setReg (x : Nibble) (v : Byte) (a : Nat) : (s.setReg x v).byteAt a = s.byteAt a := rfl
@[simp] theorem State.byteAt_setI (v : Word) (a : Nat) : (s.setI v).byteAt a = s.byteAt a := rfl
@[simp] theorem State.byteAt_setPc (v : Word) (a : Nat) : (s.setPc v).byteAt a = s.byteAt a := rfl
@[simp] theorem State.byteAt_setDT (v : Byte) (a : Nat) : (s.setDT v).byteAt a = s.byteAt a := rfl
@[simp] theorem State.byteAt_setST (v : Byte) (a : Nat) : (s.setST v).byteAt a = s.byteAt a := rfl
@[simp] theorem State.byteAt_setDisp (d : Bitmap) (a : Nat) : (s.setDisp d).byteAt a = s.byteAt a := rfl
@[simp] theorem State.byteAt_setRedraw (b : Bool) (a : Nat) : (s.setRedraw b).byteAt a = s.byteAt a := rfl
@[simp] theorem State.byteAt_setBeep (b : Bool) (a : Nat) : (s.setBeep b).byteAt a = s.byteAt a := rfl
@[simp] theorem State.byteAt_setStack (n : Fin 17) (w : Vector Word 16) (a : Nat) : (s.setStack n w).byteAt a = s.byteAt a := rfl
@[simp] theorem State.byteAt_setKey (k : Nibble) (v : Byte) (a : Nat) : (s.setKey k v).byteAt a = s.byteAt a := rfl
@[simp] theorem State.byteAt_setStatus (q : RunStatus) (a : Nat) : (s.setStatus q).byteAt a = s.byteAt a := rfl
@[simp] theorem State.byteAt_setRnd (q : Option Byte) (a : Nat) : (s.setRnd q).byteAt a = s.byteAt a := rfl
@[simp] theorem State.byteAt_setDraws (n : Nat) (a : Nat) : (s.setDraws n).byteAt a = s.byteAt a := rfl
@[simp] theorem State.byteAt_advance (n : Nat) (a : Nat) : (s.advance n).byteAt a = s.byteAt a := rfl

/-! `State.pixel` after each update. -/

@[simp] theorem State.pixel_setReg (x : Nibble) (v : Byte) (o : Nat) : (s.setReg x v).pixel o = s.pixel o := rfl
@[simp] theorem State.pixel_setI (v : Word) (o : Nat) : (s.setI v).pixel o = s.pixel o := rfl
@[simp] theorem State.pixel_setPc (v : Word) (o : Nat) : (s.setPc v).pixel o = s.pixel o := rfl
@[simp] theorem State.pixel_setDT (v : Byte) (o : Nat) : (s.setDT v).pixel o = s.pixel o := rfl
@[simp] theorem State.pixel_setST (v : Byte) (o : Nat) : (s.setST v).pixel o = s.pixel o := rfl
@[simp] theorem State.pixel_setMem (m : Memory) (o : Nat) : (s.setMem m).pixel o = s.pixel o := rfl
@[simp] theorem State.pixel_setRedraw (b : Bool) (o : Nat) : (s.setRedraw b).pixel o = s.pixel o := rfl
@[simp] theorem State.pixel_setBeep (b : Bool) (o : Nat) : (s.setBeep b).pixel o = s.pixel o := rfl
@[simp] theorem State.pixel_setStack (n : Fin 17) (w : Vector Word 16) (o : Nat) : (s.setStack n w).pixel o = s.pixel o := rfl
@[simp] theorem State.pixel_setKey (k : Nibble) (v : Byte) (o : Nat) : (s.setKey k v).pixel o = s.pixel o := rfl
@[simp] theorem State.pixel_setStatus (q : RunStatus) (o : Nat) : (s.setStatus q).pixel o = s.pixel o := rfl
@[simp] theorem State.pixel_setRnd (q : Option Byte) (o : Nat) : (s.setRnd q).pixel o = s.pixel o := rfl
@[simp] theorem State.pixel_setDraws (n : Nat) (o : Nat) : (s.setDraws n).pixel o = s.pixel o := rfl
@[simp] theorem State.pixel_advance (n : Nat) (o : Nat) : (s.advance n).pixel o = s.pixel o := rfl

/-! `State.randomByte` after each update. -/

@[simp] theorem State.randomByte_setReg (x : Nibble) (v : Byte) : (s.setReg x v).randomByte = s.randomByte := rfl
@[simp] theorem State.randomByte_setI (v : Word) : (s.setI v).randomByte = s.randomByte := rfl
@[simp] theorem State.randomByte_setPc (v : Word) : (s.setPc v).randomByte = s.randomByte := rfl
@[simp] theorem State.randomByte_setDT (v : Byte) : (s.setDT v).randomByte = s.randomByte := rfl
@[simp] theorem State.randomByte_setST (v : Byte) : (s.setST v).randomByte = s.randomByte := rfl
@[simp] theorem State.randomByte_setMem (m : Memory) : (s.setMem m).randomByte = s.randomByte := rfl
@[simp] theorem State.randomByte_setDisp (d : Bitmap) : (s.setDisp d).randomByte = s.randomByte := rfl
@[simp] theorem State.randomByte_setRedraw (b : Bool) : (s.setRedraw b).randomByte = s.randomByte := rfl
@[simp] theorem State.randomByte_setBeep (b : Bool) : (s.setBeep b).randomByte = s.randomByte := rfl
@[simp] theorem State.randomByte_setStack (n : Fin 17) (w : Vector Word 16) : (s.setStack n w).randomByte = s.randomByte := rfl
@[simp] theorem State.randomByte_setKey (k : Nibble) (v : Byte) : (s.setKey k v).randomByte = s.randomByte := rfl
@[simp] theorem State.randomByte_setStatus (q : RunStatus) : (s.setStatus q).randomByte = s.randomByte := rfl
@[simp] theorem State.randomByte_advance (n : Nat) : (s.advance n).randomByte = s.randomByte := rfl

/-! `State.flag` after each update. -/

@[simp] theorem State.flag_setI (v : Word) : (s.setI v).flag = s.flag := rfl
@[simp] theorem State.flag_setPc (v : Word) : (s.setPc v).flag = s.flag := rfl
@[simp] theorem State.flag_setDT (v : Byte) : (s.setDT v).flag = s.flag := rfl
@[simp] theorem State.flag_setST (v : Byte) : (s.setST v).flag = s.flag := rfl
@[simp] theorem State.flag_setMem (m : Memory) : (s.setMem m).flag = s.flag := rfl
@[simp] theorem State.flag_setDisp (d : Bitmap) : (s.setDisp d).flag = s.flag := rfl
@[simp] theorem State.flag_setRedraw (b : Bool) : (s.setRedraw b).flag = s.flag := rfl
@[simp] theorem State.flag_setBeep (b : Bool) : (s.setBeep b).flag = s.flag := rfl
@[simp] theorem State.flag_setStack (n : Fin 17) (w : Vector Word 16) : (s.setStack n w).flag = s.flag := rfl
@[simp] theorem State.flag_setKey (k : Nibble) (v : Byte) : (s.setKey k v).flag = s.flag := rfl
@[simp] theorem State.flag_setStatus (q : RunStatus) : (s.setStatus q).flag = s.flag := rfl
@[simp] theorem State.flag_setRnd (q : Option Byte) : (s.setRnd q).flag = s.flag := rfl
@[simp] theorem State.flag_setDraws (n : Nat) : (s.setDraws n).flag = s.flag := rfl
@[simp] theorem State.flag_advance (n : Nat) : (s.advance n).flag = s.flag := rfl

@[simp] theorem State.byteAt_setMem (m : Memory) (a : Nat) : (s.setMem m).byteAt a = Memory.read s.config m a := rfl
@[simp] theorem State.pixel_setDisp (d : Bitmap) (o : Nat) : (s.setDisp d).pixel o = Bitmap.read d o := rfl
@[simp] theorem State.flag_setReg_flag (v : Byte) : (s.setReg flagReg v).flag = v := State.reg_setReg_same s flagReg v

end Sys2Proof.Machine
end

