-- ==== Sys2Proof/Laws/Memory.lean ====
section
/-! SUPPORT. What the sparse cells, memory and the display bitmap read after a write, and that every write keeps the canonical
form. -/

namespace Sys2Proof.Machine

/-! Cells. -/

theorem cellRead_cellCons (base : Nat → Byte) (k : Nat) (v : Byte) (m : List Host.Cell) (a : Nat)
    (hm : ∀ b, b ≤ k → cellRead base m b = base b) :
    cellRead base (cellCons base k v m) a = if a = k then v else cellRead base m a := by
  unfold cellCons
  by_cases hv : v = base k
  · rw [if_pos hv]
    by_cases ha : a = k
    · subst ha; rw [if_pos rfl, hm a (Nat.le_refl a), hv]
    · rw [if_neg ha]
  · rw [if_neg hv]; rfl

/-- In a canonical list, no index below the bound is listed. -/
theorem cellRead_below {base : Nat → Byte} {size : Nat} {m : List Host.Cell} {lo a : Nat}
    (hm : cellsWf base size lo m = true) (ha : a < lo) : cellRead base m a = base a := by
  induction m generalizing lo with
  | nil => rfl
  | cons c m ih =>
    obtain ⟨k, v⟩ := c
    simp only [cellsWf, Bool.and_eq_true, decide_eq_true_eq] at hm
    have hk : a ≠ k := by omega
    simp only [cellRead, if_neg hk]
    exact ih hm.2 (by omega)

/-- In a canonical list, no index at or above the size is listed. -/
theorem cellRead_above {base : Nat → Byte} {size : Nat} {m : List Host.Cell} {lo a : Nat}
    (hm : cellsWf base size lo m = true) (ha : size ≤ a) : cellRead base m a = base a := by
  induction m generalizing lo with
  | nil => rfl
  | cons c m ih =>
    obtain ⟨k, v⟩ := c
    simp only [cellsWf, Bool.and_eq_true, decide_eq_true_eq] at hm
    have hk : a ≠ k := by omega
    simp only [cellRead, if_neg hk]
    exact ih hm.2

/-- A lower bound of a canonical list may be lowered. -/
theorem cellsWf_mono {base : Nat → Byte} {size : Nat} {m : List Host.Cell} {lo lo' : Nat}
    (hm : cellsWf base size lo m = true) (h : lo' ≤ lo) : cellsWf base size lo' m = true := by
  cases m with
  | nil => rfl
  | cons c m =>
    obtain ⟨k, v⟩ := c
    simp only [cellsWf, Bool.and_eq_true, decide_eq_true_eq] at hm ⊢
    exact ⟨⟨⟨by omega, hm.1.1.2⟩, hm.1.2⟩, hm.2⟩

/-- Read after write at every index, in any list whose keys are listed in rising order or not: a write is seen where it went and
nowhere else. -/
theorem cellRead_cellWrite {base : Nat → Byte} {size : Nat} {m : List Host.Cell} {lo : Nat}
    (hm : cellsWf base size lo m = true) (k : Nat) (v : Byte) (a : Nat) :
    cellRead base (cellWrite base m k v) a = if a = k then v else cellRead base m a := by
  induction m generalizing lo with
  | nil => exact cellRead_cellCons base k v [] a (fun _ _ => rfl)
  | cons c m ih =>
    obtain ⟨j, u⟩ := c
    have hm' := hm
    simp only [cellsWf, Bool.and_eq_true, decide_eq_true_eq] at hm
    unfold cellWrite
    by_cases hlt : k < j
    · rw [if_pos hlt]
      refine cellRead_cellCons base k v _ a fun b hb => ?_
      have hbj : b ≠ j := by omega
      simp only [cellRead, if_neg hbj]
      exact cellRead_below hm.2 (by omega)
    · rw [if_neg hlt]
      by_cases hkj : k = j
      · rw [if_pos hkj]
        subst hkj
        rw [cellRead_cellCons base k v m a fun b hb => cellRead_below hm.2 (by omega)]
        by_cases ha : a = k
        · rw [if_pos ha, if_pos ha]
        · rw [if_neg ha, if_neg ha]; simp only [cellRead, if_neg ha]
      · rw [if_neg hkj]
        by_cases haj : a = j
        · have hak : a ≠ k := by omega
          simp only [cellRead, if_pos haj, if_neg hak]
        · simp only [cellRead, if_neg haj]
          exact ih hm.2

theorem cellsWf_cellCons {base : Nat → Byte} {size : Nat} {m : List Host.Cell} {k : Nat} (v : Byte)
    (hk : k < size) (hm : cellsWf base size (k + 1) m = true) {lo : Nat} (hlo : lo ≤ k) :
    cellsWf base size lo (cellCons base k v m) = true := by
  unfold cellCons
  by_cases hv : v = base k
  · rw [if_pos hv]; exact cellsWf_mono hm (by omega)
  · rw [if_neg hv]
    simp only [cellsWf, Bool.and_eq_true, decide_eq_true_eq, bne_iff_ne, ne_eq]
    exact ⟨⟨⟨hlo, hk⟩, hv⟩, hm⟩

/-- A write inside the size keeps the canonical form. -/
theorem cellsWf_cellWrite {base : Nat → Byte} {size : Nat} {m : List Host.Cell} {lo : Nat}
    (hm : cellsWf base size lo m = true) {k : Nat} (v : Byte) (hlo : lo ≤ k) (hk : k < size) :
    cellsWf base size lo (cellWrite base m k v) = true := by
  induction m generalizing lo with
  | nil => exact cellsWf_cellCons v hk rfl hlo
  | cons c m ih =>
    obtain ⟨j, u⟩ := c
    have hm' := hm
    simp only [cellsWf, Bool.and_eq_true, decide_eq_true_eq] at hm
    unfold cellWrite
    by_cases hlt : k < j
    · rw [if_pos hlt]
      refine cellsWf_cellCons v hk ?_ hlo
      simp only [cellsWf, Bool.and_eq_true, decide_eq_true_eq]
      exact ⟨⟨⟨by omega, hm.1.1.2⟩, hm.1.2⟩, hm.2⟩
    · rw [if_neg hlt]
      by_cases hkj : k = j
      · rw [if_pos hkj]; subst hkj
        exact cellsWf_cellCons v hk hm.2 hlo
      · rw [if_neg hkj]
        simp only [cellsWf, Bool.and_eq_true, decide_eq_true_eq]
        exact ⟨⟨⟨hm.1.1.1, hm.1.1.2⟩, hm.1.2⟩, ih hm.2 (by omega)⟩

/-! Memory. -/

@[simp] theorem Memory.read_nil (cfg : Config) (a : Nat) : Memory.read cfg [] a = Memory.unlisted cfg a := rfl

theorem Memory.read_write {cfg : Config} {m : Memory} (hm : Memory.wf cfg m = true) (k : Nat) (v : Byte) (a : Nat) :
    Memory.read cfg (Memory.write cfg m k v) a = if a = k then v else Memory.read cfg m a :=
  cellRead_cellWrite hm k v a

theorem Memory.write_wf {cfg : Config} {m : Memory} (hm : Memory.wf cfg m = true) {k : Nat} (hk : k < memSize) (v : Byte) :
    Memory.wf cfg (Memory.write cfg m k v) = true :=
  cellsWf_cellWrite hm v (Nat.zero_le k) hk

/-- Construction's memory, with nothing listed, is canonical. -/
theorem Memory.wf_nil (cfg : Config) : Memory.wf cfg [] = true := rfl

/-! Bytes of a state. -/

@[simp] theorem State.storeByte_eq (s : State) (k : Nat) (v : Byte) :
    s.storeByte k v = s.setMem (Memory.write s.config s.mem k v) := rfl

/-- Storing bytes changes memory and nothing else: every other field follows by the lemmas of `setMem`. -/
theorem State.storeBytes_eq_setMem (s : State) (a : Nat) (vs : List Byte) :
    s.storeBytes a vs = s.setMem (s.storeBytes a vs).mem := by
  induction vs generalizing s a with
  | nil => rfl
  | cons v vs ih =>
    rw [State.storeBytes, ih]
    rfl

@[simp] theorem State.storeBytes_config (s : State) (a : Nat) (vs : List Byte) : (s.storeBytes a vs).config = s.config := by
  rw [State.storeBytes_eq_setMem]; rfl

/-- Storing bytes inside the address space keeps memory canonical. -/
theorem State.storeBytes_wf {s : State} (hm : Memory.wf s.config s.mem = true) {a : Nat} {vs : List Byte}
    (ha : a + vs.length ≤ memSize) : Memory.wf s.config (s.storeBytes a vs).mem = true := by
  induction vs generalizing s a with
  | nil => exact hm
  | cons v vs ih =>
    rw [List.length_cons] at ha
    exact ih (s := s.storeByte a v) (Memory.write_wf hm (by omega) v) (by omega)

/-- What every address reads as after bytes are stored: the stored byte where one went, and as before elsewhere (R53, R61). -/
theorem State.byteAt_storeBytes {s : State} (hm : Memory.wf s.config s.mem = true) {k : Nat} {vs : List Byte}
    (hk : k + vs.length ≤ memSize) (a : Nat) :
    (s.storeBytes k vs).byteAt a = if k ≤ a then vs.getD (a - k) (s.byteAt a) else s.byteAt a := by
  induction vs generalizing s k with
  | nil => simp [State.storeBytes]
  | cons v vs ih =>
    rw [List.length_cons] at hk
    have hw : Memory.wf s.config (s.storeByte k v).mem = true := Memory.write_wf hm (by omega) v
    rw [State.storeBytes, ih (s := s.storeByte k v) hw (by omega)]
    have hb : (s.storeByte k v).byteAt a = if a = k then v else s.byteAt a := by
      rw [State.storeByte_eq, State.byteAt_setMem, Memory.read_write hm]; rfl
    rw [hb]
    by_cases h1 : a = k
    · subst h1
      rw [if_neg (by omega), if_pos rfl, if_pos (Nat.le_refl a), Nat.sub_self]; rfl
    · rw [if_neg h1]
      by_cases h2 : k ≤ a
      · rw [if_pos (by omega), if_pos h2]
        obtain ⟨d, hd⟩ : ∃ d, a - k = d + 1 := ⟨a - k - 1, by omega⟩
        rw [hd, show a - (k + 1) = d by omega]; rfl
      · rw [if_neg (by omega), if_neg h2]

/-- No byte outside the stored ones changes (R61). -/
theorem State.byteAt_storeBytes_outside {s : State} (hm : Memory.wf s.config s.mem = true) {k : Nat} {vs : List Byte}
    (hk : k + vs.length ≤ memSize) {a : Nat} (ha : a < k ∨ k + vs.length ≤ a) : (s.storeBytes k vs).byteAt a = s.byteAt a := by
  rw [State.byteAt_storeBytes hm hk]
  by_cases h : k ≤ a
  · rw [if_pos h, List.getD_eq_default _ _ (by omega)]
  · rw [if_neg h]

@[simp] theorem State.loadBytes_length (s : State) (a n : Nat) : (s.loadBytes a n).length = n := by simp [State.loadBytes]

theorem State.loadBytes_getElem (s : State) (a n k : Nat) (h : k < (s.loadBytes a n).length) :
    (s.loadBytes a n)[k] = s.byteAt (a + k) := by simp [State.loadBytes]

/-! The display. -/

theorem Bitmap.wf_nil : Bitmap.wf [] = true := rfl

theorem Bitmap.wf_cells {d : Bitmap} (hd : Bitmap.wf d = true) : cellsWf (fun _ => 0) dispCells 0 d = true := by
  simp only [Bitmap.wf, Bool.and_eq_true] at hd; exact hd.1

theorem Bitmap.read_write {d : Bitmap} (hd : Bitmap.wf d = true) (k : Nat) (v : Byte) (o : Nat) :
    Bitmap.read (Bitmap.write d k v) o = if o = k then v else Bitmap.read d o :=
  cellRead_cellWrite (Bitmap.wf_cells hd) k v o

/-- A display cell holds 0 or 1 (R34). -/
theorem Bitmap.read_binary {d : Bitmap} (hd : Bitmap.wf d = true) (o : Nat) : Bitmap.read d o = 0 ∨ Bitmap.read d o = 1 := by
  have h := (Bool.and_eq_true _ _ ▸ hd : _ ∧ _).2
  unfold Bitmap.read
  clear hd
  induction d with
  | nil => exact .inl rfl
  | cons c d ih =>
    obtain ⟨k, v⟩ := c
    simp only [List.all_cons, Bool.and_eq_true, beq_iff_eq] at h
    by_cases ho : o = k
    · right; simp only [cellRead, if_pos ho]; exact h.1
    · simp only [cellRead, if_neg ho]; exact ih h.2

theorem cellWrite_all_one {d : List Host.Cell} (hd : d.all (fun c => c.2 == 1#8) = true) (k : Nat) {v : Byte}
    (hv : v = 0 ∨ v = 1) : (cellWrite (fun _ => 0) d k v).all (fun c => c.2 == 1#8) = true := by
  have hcons : ∀ m : List Host.Cell, m.all (fun c => c.2 == 1#8) = true →
      (cellCons (fun _ => 0) k v m).all (fun c => c.2 == 1#8) = true := by
    intro m hm
    unfold cellCons
    rcases hv with rfl | rfl
    · rw [if_pos rfl]; exact hm
    · rw [if_neg (show ¬((1 : Byte) = (fun _ : Nat => (0 : Byte)) k) from fun h => absurd h (show ¬((1 : Byte) = 0) by decide))]
      simpa using hm
  induction d with
  | nil => exact hcons [] rfl
  | cons c d ih =>
    obtain ⟨j, u⟩ := c
    have hd' := hd
    simp only [List.all_cons, Bool.and_eq_true] at hd
    unfold cellWrite
    by_cases h1 : k < j
    · rw [if_pos h1]; exact hcons _ hd'
    · rw [if_neg h1]
      by_cases h2 : k = j
      · rw [if_pos h2]; exact hcons _ hd.2
      · rw [if_neg h2]; simp only [List.all_cons, Bool.and_eq_true]; exact ⟨hd.1, ih hd.2⟩

/-- Writing a 0 or a 1 inside the display keeps its form. -/
theorem Bitmap.write_wf {d : Bitmap} (hd : Bitmap.wf d = true) {k : Nat} (hk : k < dispCells) {v : Byte} (hv : v = 0 ∨ v = 1) :
    Bitmap.wf (Bitmap.write d k v) = true := by
  have h := (Bool.and_eq_true _ _ ▸ hd : _ ∧ _)
  simp only [Bitmap.wf, Bool.and_eq_true]
  exact ⟨cellsWf_cellWrite h.1 v (Nat.zero_le k) hk, cellWrite_all_one h.2 k hv⟩

/-- Two canonical lists that read alike everywhere are the same list: equal contents are equal data. -/
theorem cells_ext {base : Nat → Byte} {size : Nat} {m m' : List Host.Cell} {lo : Nat} (hm : cellsWf base size lo m = true)
    (hm' : cellsWf base size lo m' = true) (h : ∀ a, cellRead base m a = cellRead base m' a) : m = m' := by
  induction m generalizing m' lo with
  | nil =>
    cases m' with
    | nil => rfl
    | cons c m' =>
      obtain ⟨k, v⟩ := c
      simp only [cellsWf, Bool.and_eq_true, decide_eq_true_eq, bne_iff_ne, ne_eq] at hm'
      have := h k
      simp only [cellRead, if_pos] at this
      exact absurd this.symm hm'.1.2
  | cons c m ih =>
    obtain ⟨k, v⟩ := c
    have hmc := hm
    simp only [cellsWf, Bool.and_eq_true, decide_eq_true_eq, bne_iff_ne, ne_eq] at hm
    cases m' with
    | nil =>
      have := h k
      simp only [cellRead, if_pos] at this
      exact absurd this hm.1.2
    | cons c' m' =>
      obtain ⟨k', v'⟩ := c'
      have hmc' := hm'
      simp only [cellsWf, Bool.and_eq_true, decide_eq_true_eq, bne_iff_ne, ne_eq] at hm'
      have hk : k = k' := by
        rcases Nat.lt_trichotomy k k' with hlt | heq | hgt
        · have := h k
          simp only [cellRead, if_pos, if_neg (show k ≠ k' by omega)] at this
          rw [cellRead_below hm'.2 (by omega)] at this
          exact absurd this hm.1.2
        · exact heq
        · have := h k'
          simp only [cellRead, if_pos, if_neg (show k' ≠ k by omega)] at this
          rw [cellRead_below hm.2 (by omega)] at this
          exact absurd this.symm hm'.1.2
      subst hk
      have hv : v = v' := by have := h k; simpa only [cellRead, if_pos] using this
      subst hv
      refine congrArg _ (ih hm.2 hm'.2 fun a => ?_)
      by_cases ha : a = k
      · subst ha
        rw [cellRead_below hm.2 (by omega), cellRead_below hm'.2 (by omega)]
      · have := h a
        simpa only [cellRead, if_neg ha] using this

end Sys2Proof.Machine
end

