-- ==== Sys2Proof/Laws/Display.lean ====
section
/-! SUPPORT. What a draw does to the display (R111, R112): it is a list of distinct cells, each toggled once. -/

namespace Sys2Proof.Machine

/-- A visible pixel has its cell in the display (R112). -/
theorem visible_lt {mode : DrawClipMode} {cx cy : Nat} (h : visible mode cx cy = true) : cy * 64 + cx < dispCells := by
  unfold dispCells
  cases mode with
  | linear =>
    have h' : cy * 64 + cx ≤ 2047 := by simpa [visible] using h
    omega
  | clipXy =>
    simp only [visible, Bool.and_eq_true, decide_eq_true_eq] at h
    unfold dispW dispH at h
    omega

/-- The cells that one sprite row toggles, in column order. -/
def rowCells (mode : DrawClipMode) (vx cy : Nat) (row : Byte) : List Nat :=
  ([0, 1, 2, 3, 4, 5, 6, 7].filter fun c => row.getLsbD (7 - c) && visible mode (vx + c) cy).map fun c => cy * 64 + (vx + c)

/-- The cells that the sprite rows toggle, top row first. -/
def spriteCells (mode : DrawClipMode) (vx : Nat) : Nat → List Byte → List Nat
  | _, [] => []
  | cy, row :: rest => rowCells mode vx cy row ++ spriteCells mode vx (cy + 1) rest

theorem Drawing.row_eq (mode : DrawClipMode) (vx cy : Nat) (row : Byte) (d : Drawing) :
    d.row mode vx cy row = (rowCells mode vx cy row).foldl Drawing.toggle d := by
  unfold Drawing.row rowCells
  generalize [0, 1, 2, 3, 4, 5, 6, 7] = cols
  induction cols generalizing d with
  | nil => rfl
  | cons c cols ih =>
    rw [List.foldl_cons, ih]
    unfold Drawing.bit
    cases h : (row.getLsbD (7 - c) && visible mode (vx + c) cy) <;> simp [h]

/-- A draw toggles its cells one after the other. -/
theorem Drawing.rows_eq (mode : DrawClipMode) (vx cy : Nat) (rows : List Byte) (d : Drawing) :
    Drawing.rows mode vx cy rows d = (spriteCells mode vx cy rows).foldl Drawing.toggle d := by
  induction rows generalizing cy d with
  | nil => rfl
  | cons row rest ih =>
    rw [Drawing.rows, ih, Drawing.row_eq, spriteCells, List.foldl_append]

theorem mem_rowCells {mode : DrawClipMode} {vx cy : Nat} {row : Byte} {o : Nat} : o ∈ rowCells mode vx cy row ↔
    ∃ c < 8, row.getLsbD (7 - c) = true ∧ visible mode (vx + c) cy = true ∧ o = cy * 64 + (vx + c) := by
  have h8 : ∀ c, c ∈ [0, 1, 2, 3, 4, 5, 6, 7] ↔ c < 8 := by intro c; simp; omega
  simp only [rowCells, List.mem_map, List.mem_filter, h8, Bool.and_eq_true, and_assoc, eq_comm (a := o)]

/-- The cells of a draw: row `r`, column `c` (R111). -/
theorem mem_spriteCells {mode : DrawClipMode} {vx cy : Nat} {rows : List Byte} {o : Nat} : o ∈ spriteCells mode vx cy rows ↔
    ∃ r c, ∃ h : r < rows.length, c < 8 ∧ rows[r].getLsbD (7 - c) = true ∧ visible mode (vx + c) (cy + r) = true ∧
      o = (cy + r) * 64 + (vx + c) := by
  induction rows generalizing cy with
  | nil => simp [spriteCells]
  | cons row rest ih =>
    simp only [spriteCells, List.mem_append, mem_rowCells, ih]
    constructor
    · rintro (⟨c, h1, h2, h3, h4⟩ | ⟨r, c, h, h1, h2, h3, h4⟩)
      · exact ⟨0, c, by simp, h1, by simpa using h2, by simpa using h3, by simpa using h4⟩
      · exact ⟨r + 1, c, by simpa using h, h1, by simpa using h2, by rwa [show cy + (r + 1) = cy + 1 + r by omega],
          by rwa [show cy + (r + 1) = cy + 1 + r by omega]⟩
    · rintro ⟨r, c, h, h1, h2, h3, h4⟩
      rcases r with _ | r
      · exact .inl ⟨c, h1, by simpa using h2, by simpa using h3, by simpa using h4⟩
      · exact .inr ⟨r, c, by simpa using h, h1, by simpa using h2, by rwa [show cy + 1 + r = cy + (r + 1) by omega],
          by rwa [show cy + 1 + r = cy + (r + 1) by omega]⟩

theorem spriteCells_lt {mode : DrawClipMode} {vx cy : Nat} {rows : List Byte} {o : Nat} (h : o ∈ spriteCells mode vx cy rows) :
    o < dispCells := by
  obtain ⟨r, c, _, _, _, hv, rfl⟩ := mem_spriteCells.mp h
  exact visible_lt hv

/-- "Within one draw, no two sprite bits address the same cell, since `c < 8 < 64`" (R111). -/
theorem spriteCells_nodup (mode : DrawClipMode) (vx cy : Nat) (rows : List Byte) : (spriteCells mode vx cy rows).Nodup := by
  induction rows generalizing cy with
  | nil => exact List.nodup_nil
  | cons row rest ih =>
    rw [spriteCells, List.nodup_append]
    refine ⟨?_, ih (cy + 1), ?_⟩
    · refine List.Nodup.map (fun a b h => ?_) (List.Nodup.filter _ (by decide))
      have h' : cy * 64 + (vx + a) = cy * 64 + (vx + b) := h
      omega
    · intro o h1 o' h2 heq
      subst heq
      obtain ⟨c, hc, _, _, h3⟩ := mem_rowCells.mp h1
      obtain ⟨r, c', _, hc', _, _, h4⟩ := mem_spriteCells.mp h2
      omega

/-- A list of distinct cells toggled: the display keeps its form, each cell of the list is XORed with 1 and no other changes, and a
hit is recorded if one of them was 1 (R111). -/
theorem Drawing.toggles_spec {l : List Nat} {d : Drawing} (hl : l.Nodup) (hlt : ∀ o ∈ l, o < dispCells)
    (hd : Bitmap.wf d.disp = true) :
    Bitmap.wf (l.foldl Drawing.toggle d).disp = true ∧
    (∀ o, Bitmap.read (l.foldl Drawing.toggle d).disp o = if o ∈ l then Bitmap.read d.disp o ^^^ 1#8 else Bitmap.read d.disp o) ∧
    ((l.foldl Drawing.toggle d).hit = true ↔ d.hit = true ∨ ∃ o ∈ l, Bitmap.read d.disp o = 1#8) := by
  induction l generalizing d with
  | nil => simp [hd]
  | cons k l ih =>
    rw [List.nodup_cons] at hl
    have hbin : Bitmap.read d.disp k ^^^ 1#8 = 0 ∨ Bitmap.read d.disp k ^^^ 1#8 = 1 := by
      rcases Bitmap.read_binary hd k with h | h <;> rw [h] <;> decide
    have hw : Bitmap.wf (d.toggle k).disp = true := Bitmap.write_wf hd (hlt k (by simp)) hbin
    have hrd : ∀ o, Bitmap.read (d.toggle k).disp o = if o = k then Bitmap.read d.disp k ^^^ 1#8 else Bitmap.read d.disp o :=
      fun o => Bitmap.read_write hd k _ o
    obtain ⟨h1, h2, h3⟩ := ih (d := d.toggle k) hl.2 (fun o ho => hlt o (by simp [ho])) hw
    refine ⟨h1, fun o => ?_, ?_⟩
    · rw [List.foldl_cons, h2, hrd]
      by_cases hok : o = k
      · subst hok; simp [hl.1]
      · simp [hok]
    · rw [List.foldl_cons, h3]
      simp only [Drawing.toggle, Bool.or_eq_true, beq_iff_eq, List.mem_cons, exists_eq_or_imp, or_assoc]
      refine or_congr_right (or_congr_right ?_)
      refine exists_congr fun o => and_congr_right fun ho => ?_
      have hok : o ≠ k := fun h => hl.1 (h ▸ ho)
      have := hrd o
      simp only [Drawing.toggle, if_neg hok] at this
      rw [this]

/-- The draw of `DRW` on a well-formed display (R111). -/
theorem State.draw_spec {s : State} (hd : Bitmap.wf s.disp = true) (x y n : Nibble) :
    let cells := spriteCells s.config.drawClip (s.reg x).toNat (s.reg y).toNat (s.spriteRows n)
    Bitmap.wf (s.draw x y n).disp = true ∧
    (∀ o, Bitmap.read (s.draw x y n).disp o = if o ∈ cells then s.pixel o ^^^ 1#8 else s.pixel o) ∧
    ((s.draw x y n).hit = true ↔ ∃ o ∈ cells, s.pixel o = 1#8) := by
  intro cells
  unfold State.draw
  rw [Drawing.rows_eq]
  have h := Drawing.toggles_spec (d := ⟨s.disp, false⟩)
    (spriteCells_nodup s.config.drawClip (s.reg x).toNat (s.reg y).toNat (s.spriteRows n)) (fun o ho => spriteCells_lt ho) hd
  refine ⟨h.1, h.2.1, h.2.2.trans ?_⟩
  simp only [Bool.false_eq_true, false_or]
  exact Iff.rfl

end Sys2Proof.Machine
end

