-- ==== Sys2Proof/Laws/Ops.lean ====
section
/-! SUPPORT. One lemma for each shared operation, saying once everything it can do. -/

namespace Sys2Proof.Machine

/-! Checks and faults. -/

theorem checked_next {c : Option Fault} {s t : State} : checked c s = .next t ↔ c = none ∧ s = t := by
  cases c <;> simp [checked, raise]

theorem checked_fault {c : Option Fault} {s : State} {f : Fault} : checked c s = .fault f ↔ c = some f := by
  cases c <;> simp [checked, raise]

theorem checked_not_refused {c : Option Fault} {s : State} {r : Refusal} : checked c s ≠ .refused r := by
  cases c <;> simp [checked, raise]

/-- No address of the access fails exactly when the whole check passes (R53). -/
theorem memCheck_none {cfg : Config} {kind : AccessKind} {a n : Nat} :
    memCheck cfg kind a n = none ↔ ∀ k < n, addressFault cfg kind (a + k) = none := by
  induction n generalizing a with
  | zero => simp [memCheck]
  | succ n ih =>
    unfold memCheck
    cases h : addressFault cfg kind a with
    | some f => simp only [reduceCtorEq, false_iff]; exact fun hk => by simpa [h] using hk 0 (by omega)
    | none =>
      simp only [ih]
      constructor
      · intro hk k hkn
        rcases k with _ | k
        · simpa using h
        · have := hk k (by omega); rwa [show a + (k + 1) = a + 1 + k by omega]
      · intro hk k hkn
        have := hk (k + 1) (by omega); rwa [show a + 1 + k = a + (k + 1) by omega]

/-- The check raises the fault of its lowest failing address (R53). -/
theorem memCheck_some {cfg : Config} {kind : AccessKind} {a n : Nat} {f : Fault} :
    memCheck cfg kind a n = some f ↔
      ∃ k < n, addressFault cfg kind (a + k) = some f ∧ ∀ j < k, addressFault cfg kind (a + j) = none := by
  induction n generalizing a with
  | zero => simp [memCheck]
  | succ n ih =>
    unfold memCheck
    cases h : addressFault cfg kind a with
    | some g =>
      simp only [Option.some.injEq]
      constructor
      · rintro rfl; exact ⟨0, by omega, by simpa using h, by omega⟩
      · rintro ⟨k, hk, hf, hlow⟩
        rcases k with _ | k
        · simpa [h] using hf
        · have := hlow 0 (by omega); simp [h] at this
    | none =>
      simp only [ih]
      constructor
      · rintro ⟨k, hk, hf, hlow⟩
        refine ⟨k + 1, by omega, by rwa [show a + (k + 1) = a + 1 + k by omega], fun j hj => ?_⟩
        rcases j with _ | j
        · simpa using h
        · have := hlow j (by omega); rwa [show a + (j + 1) = a + 1 + j by omega]
      · rintro ⟨k, hk, hf, hlow⟩
        rcases k with _ | k
        · simp [h] at hf
        · refine ⟨k, by omega, by rwa [show a + 1 + k = a + (k + 1) by omega], fun j hj => ?_⟩
          have := hlow (j + 1) (by omega); rwa [show a + 1 + j = a + (j + 1) by omega]

theorem addressFault_none {cfg : Config} {kind : AccessKind} {a : Nat} : addressFault cfg kind a = none ↔
    a < memSize ∧ ¬(kind = .write ∧ a ≤ reservedTop ∧ cfg.reservedWrite = .fault) := by
  unfold addressFault
  split
  · simp; omega
  · split <;> simp_all

theorem addressFault_some {cfg : Config} {kind : AccessKind} {a : Nat} {f : Fault} : addressFault cfg kind a = some f ↔
    (memSize ≤ a ∧ f = .memoryOutOfRange a kind) ∨
    (a < memSize ∧ kind = .write ∧ a ≤ reservedTop ∧ cfg.reservedWrite = .fault ∧ f = .reservedWrite a) := by
  unfold addressFault
  split
  · rename_i h
    have h' : ¬ a < memSize := by omega
    simp [h, h', eq_comm]
  · rename_i h
    have h' : a < memSize := by omega
    split
    · rename_i hk; simp [h, h', hk, eq_comm]
    · rename_i hk
      simp only [reduceCtorEq, h, h', false_and, true_and, false_or, false_iff]
      exact fun ⟨h1, h2, h3, _⟩ => hk ⟨h1, h2, h3⟩

/-! The stack. -/

theorem State.pop_none {s : State} : s.pop = none ↔ s.sp = 0 := by
  unfold State.pop
  split
  · rename_i h
    have : s.sp ≠ 0 := fun h0 => by simp [h0] at h
    simp [this]
  · rename_i h
    have : s.sp = 0 := Fin.ext (by simpa using h)
    simp [this]

/-- A pop gives the slot below the pointer and changes only the pointer (R121). -/
theorem State.pop_some {s t : State} {a : Word} : s.pop = some (a, t) ↔
    ∃ h : 0 < s.sp.val, a = s.stack[s.sp.val - 1]'(by have := s.sp.isLt; omega) ∧
      t = s.setStack ⟨s.sp.val - 1, by have := s.sp.isLt; omega⟩ s.stack := by
  unfold State.pop
  split
  · rename_i h; simp [h, eq_comm]
  · rename_i h; simp [h]

theorem State.push_none {s : State} {a : Word} : s.push a = none ↔ s.sp = 16 := by
  unfold State.push
  have := s.sp.isLt
  split
  · rename_i h
    have : s.sp ≠ 16 := fun h0 => by simp [h0] at h
    simp [this]
  · rename_i h
    have : s.sp = 16 := Fin.ext (by simp; omega)
    simp [this]

/-- A push writes the slot at the pointer and moves the pointer up, and nothing else (R123). -/
theorem State.push_some {s t : State} {a : Word} : s.push a = some t ↔
    ∃ h : s.sp.val < 16, t = s.setStack ⟨s.sp.val + 1, by omega⟩ (s.stack.set s.sp.val a h) := by
  unfold State.push
  split
  · rename_i h; simp [h, eq_comm]
  · rename_i h; simp [h]

/-! Flags. -/

/-- What the flag-and-result writes leave in each register, under both orders (R140). -/
theorem State.reg_writeFlagged (s : State) (x src : Nibble) (flag op : Byte → Byte → Byte) (r : Nibble) :
    (s.writeFlagged x src flag op).reg r =
      let f := flag (s.reg x) (s.reg src)
      match s.config.vfAliasOrder with
      | .sequential =>
        if r = x then op (if x = flagReg then f else s.reg x) (if src = flagReg then f else s.reg src)
        else if r = flagReg then f else s.reg r
      | .flagLast => if r = flagReg then f else if r = x then op (s.reg x) (s.reg src) else s.reg r := by
  unfold State.writeFlagged
  cases s.config.vfAliasOrder <;> simp only [State.reg_setReg]

/-- The flag-and-result writes change registers only. -/
theorem State.writeFlagged_eq (s : State) (x src : Nibble) (flag op : Byte → Byte → Byte) :
    ∃ V, s.writeFlagged x src flag op = { s with V := V } := by
  unfold State.writeFlagged
  cases s.config.vfAliasOrder <;> exact ⟨_, rfl⟩

/-! The block load. -/

/-- A fold of register writes over 0 .. n-1 from a fixed source of values. -/
theorem State.foldl_setReg (s : State) (val : Nat → Byte) (n : Nat) (hn : n ≤ 16) :
    ∃ V, (List.range n).foldl (fun t k => t.setReg (BitVec.ofNat 4 k) (val k)) s = { s with V := V } ∧
      ∀ r : Nibble, V[r.toNat]'r.isLt = if r.toNat < n then val r.toNat else s.reg r := by
  induction n with
  | zero => exact ⟨s.V, rfl, fun r => by simp [State.reg]⟩
  | succ n ih =>
    obtain ⟨V, hV, hr⟩ := ih (by omega)
    have hlt : (BitVec.ofNat 4 n).toNat = n := by simp; omega
    refine ⟨V.set n (val n) (by omega), ?_, fun r => ?_⟩
    · rw [List.range_succ, List.foldl_append, hV]
      simp only [List.foldl_cons, List.foldl_nil, State.setReg, hlt]
    · rw [Vector.getElem_set]
      by_cases h : n = r.toNat
      · rw [if_pos h, if_pos (by omega), h]
      · rw [if_neg h, hr]
        by_cases h' : r.toNat < n
        · rw [if_pos h', if_pos (by omega)]
        · rw [if_neg h', if_neg (by omega)]

/-- The block load changes registers only, each to its byte up to X (R165). -/
theorem State.loadRegs_spec (s : State) (x : Nibble) :
    ∃ V, s.loadRegs x = { s with V := V } ∧
      ∀ r : Nibble, V[r.toNat]'r.isLt = if r.toNat ≤ x.toNat then s.byteAt (s.base + r.toNat) else s.reg r := by
  obtain ⟨V, hV, hr⟩ := s.foldl_setReg (fun k => s.byteAt (s.base + k)) (x.toNat + 1) (by omega)
  refine ⟨V, hV, fun r => ?_⟩
  rw [hr]
  by_cases h : r.toNat ≤ x.toNat
  · rw [if_pos h, if_pos (by omega)]
  · rw [if_neg h, if_neg (by omega)]

/-- The block store's bytes (R164). -/
@[simp] theorem State.regsUpTo_length (s : State) (x : Nibble) : (s.regsUpTo x).length = x.toNat + 1 := by
  simp [State.regsUpTo]

theorem State.regsUpTo_getD (s : State) (x r : Nibble) (h : r.toNat ≤ x.toNat) (d : Byte) :
    (s.regsUpTo x).getD r.toNat d = s.reg r := by
  have hr : r.toNat < x.toNat + 1 := by omega
  simp [State.regsUpTo, List.getD_eq_getElem?_getD, hr]

/-! Keys. -/

theorem State.keyPressed_none {s : State} {v : Byte} : s.keyPressed v = none ↔ 15 < v.toNat := by
  unfold State.keyPressed
  split <;> simp <;> omega

/-- The scan finds no key exactly when none is pressed (R184). -/
theorem State.scanKeys_none {s : State} : s.scanKeys = none ↔ ∀ k, s.keyAt k ≠ 1#8 := by
  have hf : ∀ (l : List Nibble) (acc : Option Nibble),
      l.foldl (fun found k => if s.keyAt k == 1#8 then some k else found) acc = none ↔
        acc = none ∧ ∀ k ∈ l, s.keyAt k ≠ 1#8 := by
    intro l
    induction l with
    | nil => simp
    | cons k l ih =>
      intro acc
      rw [List.foldl_cons, ih]
      by_cases h : s.keyAt k = 1#8
      · simp [h]
      · simp [h]
  have hall : ∀ k : Nibble, k ∈ allKeys := by decide
  unfold State.scanKeys
  rw [hf]
  exact ⟨fun h k => h.2 k (hall k), fun h => ⟨rfl, fun k _ => h k⟩⟩

/-- The scan finds the highest-indexed pressed key (R184). -/
theorem State.scanKeys_some {s : State} {k : Nibble} :
    s.scanKeys = some k ↔ s.keyAt k = 1#8 ∧ ∀ j : Nibble, k.toNat < j.toNat → s.keyAt j ≠ 1#8 := by
  have hf : ∀ (l : List Nibble), l.Pairwise (fun a b => a.toNat < b.toNat) → ∀ (acc : Option Nibble),
      l.foldl (fun found k => if s.keyAt k == 1#8 then some k else found) acc = some k ↔
        (k ∈ l ∧ s.keyAt k = 1#8 ∧ ∀ j ∈ l, k.toNat < j.toNat → s.keyAt j ≠ 1#8) ∨ (acc = some k ∧ ∀ j ∈ l, s.keyAt j ≠ 1#8) := by
    intro l hl
    induction l with
    | nil => simp
    | cons m l ih =>
      intro acc
      rw [List.pairwise_cons] at hl
      rw [List.foldl_cons, ih hl.2]
      by_cases h : s.keyAt m = 1#8
      · simp only [h, beq_self_eq_true, if_true, Option.some.injEq, List.mem_cons, forall_eq_or_imp, ne_eq, not_true_eq_false]
        constructor
        · rintro (⟨h1, h2, h3⟩ | ⟨rfl, h2⟩)
          · exact .inl ⟨.inr h1, h2, fun hlt => absurd (hl.1 _ h1) (by omega), h3⟩
          · exact .inl ⟨.inl rfl, h, fun hlt => absurd hlt (by omega), fun j hj _ => h2 j hj⟩
        · rintro (⟨rfl | h1, h2, -, h3⟩ | ⟨-, h2, -⟩)
          · exact .inr ⟨rfl, fun j hj => h3 j hj (hl.1 j hj)⟩
          · exact .inl ⟨h1, h2, h3⟩
          · exact h2.elim
      · have hb : (s.keyAt m == 1#8) = false := by simpa using h
        simp only [hb, Bool.false_eq_true, if_false, List.mem_cons, forall_eq_or_imp]
        constructor
        · rintro (⟨h1, h2, h3⟩ | ⟨h1, h2⟩)
          · exact .inl ⟨.inr h1, h2, fun hlt => absurd (hl.1 _ h1) (by omega), h3⟩
          · exact .inr ⟨h1, h, h2⟩
        · rintro (⟨rfl | h1, h2, -, h3⟩ | ⟨h1, -, h2⟩)
          · exact absurd h2 h
          · exact .inl ⟨h1, h2, h3⟩
          · exact .inr ⟨h1, h2⟩
  have hall : ∀ k : Nibble, k ∈ allKeys := by decide
  unfold State.scanKeys
  rw [hf allKeys (by decide)]
  simp only [hall, true_and, reduceCtorEq, false_and, or_false, true_implies]

/-! Fetch and step. -/

/-- Fetch, case by case, in the order of R209. -/
theorem State.fetch_spec (s : State) : s.fetch =
    if s.pc.toNat % 2 = 1 ∧ s.config.oddPc = .fault then .error (.misalignedFetch s.pc)
    else if memSize ≤ s.pc.toNat then .error (.memoryOutOfRange s.pc.toNat .fetch)
    else if memSize ≤ s.pc.toNat + 1 then .error (.memoryOutOfRange (s.pc.toNat + 1) .fetch)
    else .ok (wordOfBytes (s.byteAt s.pc.toNat) (s.byteAt (s.pc.toNat + 1))) := by
  unfold State.fetch
  split
  · rfl
  · simp only [memCheck, addressFault, reduceCtorEq, false_and, if_false]
    by_cases h1 : memSize ≤ s.pc.toNat
    · simp [h1]
    · by_cases h2 : memSize ≤ s.pc.toNat + 1
      · simp [h1, h2]
      · simp [h1, h2]

theorem finish_next {r : Result} {t : State} : finish r = .next t ↔ ∃ u, r = .next u ∧ u.endStep = t := by
  cases r <;> simp [finish]

theorem finish_fault {r : Result} {f : Fault} : finish r = .fault f ↔ r = .fault f := by
  cases r <;> simp [finish]

theorem finish_refused {r : Result} {q : Refusal} : finish r = .refused q ↔ r = .refused q := by
  cases r <;> simp [finish]

/-- A step that answers a next state fetched a word, and ran it as an instruction or as `SYS`, and ticked (R90). -/
theorem step_next {s t : State} : step s = .next t ↔ s.status = .running ∧ ∃ w, s.fetch = .ok w ∧
    ((∃ i u, decode s.config w = .instr i ∧ exec i s = .next u ∧ u.endStep = t) ∨
      ∃ nnn u, decode s.config w = .sys nnn ∧ execSys nnn s = .next u ∧ u.endStep = t) := by
  unfold step cycle
  cases hs : s.status with
  | halted f => simp [raise]
  | running =>
    simp only [true_and]
    cases hf : s.fetch with
    | error f => simp [raise]
    | ok w =>
      simp only [Except.ok.injEq, exists_eq_left']
      cases hd : decode s.config w with
      | instr i => simp [runDecoded, finish_next]
      | sys nnn => simp [runDecoded, finish_next]
      | undecodable w' f => simp [runDecoded, raise]

/-- The delay timer after the tick (R210). -/
theorem State.tick_DT (s : State) : s.tick.DT = if 0#8 < s.DT then s.DT - 1 else s.DT := by
  unfold State.tick State.tickSound State.tickDelay
  split <;> split <;> rfl

/-- The sound timer after the tick (R211). -/
theorem State.tick_ST (s : State) : s.tick.ST = if 0#8 < s.ST then s.ST - 1 else s.ST := by
  have h : s.tickDelay.ST = s.ST := by unfold State.tickDelay; split <;> rfl
  unfold State.tick State.tickSound
  rw [h]
  split
  · rfl
  · exact h

/-- The beep flag after the tick (R211). -/
theorem State.tick_beep (s : State) : s.tick.beep = (s.beep || s.ST == 1#8) := by
  have h : s.tickDelay.ST = s.ST := by unfold State.tickDelay; split <;> rfl
  have hb : s.tickDelay.beep = s.beep := by unfold State.tickDelay; split <;> rfl
  unfold State.tick State.tickSound
  rw [h]
  split
  · simp [hb]
  · rename_i h0
    have : s.ST = 0#8 := by bv_omega
    simp [hb, this]

/-- The tick changes the two timers and `beep`, and nothing else (R210, R211). -/
theorem State.tick_eq (s : State) : s.tick = { s with DT := s.tick.DT, ST := s.tick.ST, beep := s.tick.beep } := by
  unfold State.tick State.tickSound State.tickDelay
  split <;> split <;> rfl

/-- The end of a step changes the two timers, `beep` and the random-byte input, and nothing else (R94). -/
theorem State.endStep_eq (s : State) :
    s.endStep = { s with DT := s.tick.DT, ST := s.tick.ST, beep := s.tick.beep, rnd := none } := by
  unfold State.endStep
  conv => lhs; rw [State.tick_eq]
  rfl

end Sys2Proof.Machine
end

