-- ==== Sys2Proof/Laws/PerInstr.lean ====
section
/-! SUPPORT. Facts about each instruction as syntax, one lemma for each constructor. The family `EncodingFitsRow`: the encoder's word
of an instruction carries the bits that its row of R75 fixes, under both values of STRICT_DECODE. -/

-- One theorem after another: the many small theorems of this file gain nothing from threads of their own.
set_option Elab.async false

namespace Sys2Proof.Laws.EncodingFitsRow

/-- The word of `i` is covered by the row of `i`. -/
def Statement (i : Instr) : Prop := ∀ strict, (i.row strict).covers (encode i) = true

theorem cls : Statement .cls := by
  intro strict; cases strict <;> decide
theorem ret : Statement .ret := by
  intro strict; cases strict <;> decide
theorem jp (nnn : Addr12) : Statement (.jp nnn) := by
  intro _; simp only [Instr.row, encode, OpcodeRow.covers, and_mask_F, fieldF_wordNNN]; rfl
theorem call (nnn : Addr12) : Statement (.call nnn) := by
  intro _; simp only [Instr.row, encode, OpcodeRow.covers, and_mask_F, fieldF_wordNNN]; rfl
theorem seImm (x : Nibble) (nn : Byte) : Statement (.seImm x nn) := by
  intro _; simp only [Instr.row, encode, OpcodeRow.covers, and_mask_F, fieldF_wordXNN]; rfl
theorem sneImm (x : Nibble) (nn : Byte) : Statement (.sneImm x nn) := by
  intro _; simp only [Instr.row, encode, OpcodeRow.covers, and_mask_F, fieldF_wordXNN]; rfl
theorem seReg (x y : Nibble) : Statement (.seReg x y) := by
  intro strict
  cases strict
  · simp only [Instr.row, maskXY, encode, OpcodeRow.covers, and_mask_F, fieldF_wordXYN, Bool.false_eq_true, if_false]; rfl
  · simp only [Instr.row, maskXY, encode, OpcodeRow.covers, and_mask_FN, fieldF_wordXYN, fieldN_wordXYN, if_true]; rfl
theorem ldImm (x : Nibble) (nn : Byte) : Statement (.ldImm x nn) := by
  intro _; simp only [Instr.row, encode, OpcodeRow.covers, and_mask_F, fieldF_wordXNN]; rfl
theorem addImm (x : Nibble) (nn : Byte) : Statement (.addImm x nn) := by
  intro _; simp only [Instr.row, encode, OpcodeRow.covers, and_mask_F, fieldF_wordXNN]; rfl
theorem ldReg (x y : Nibble) : Statement (.ldReg x y) := by
  intro _; simp only [Instr.row, encode, OpcodeRow.covers, and_mask_FN, fieldF_wordXYN, fieldN_wordXYN]; rfl
theorem orReg (x y : Nibble) : Statement (.orReg x y) := by
  intro _; simp only [Instr.row, encode, OpcodeRow.covers, and_mask_FN, fieldF_wordXYN, fieldN_wordXYN]; rfl
theorem andReg (x y : Nibble) : Statement (.andReg x y) := by
  intro _; simp only [Instr.row, encode, OpcodeRow.covers, and_mask_FN, fieldF_wordXYN, fieldN_wordXYN]; rfl
theorem xorReg (x y : Nibble) : Statement (.xorReg x y) := by
  intro _; simp only [Instr.row, encode, OpcodeRow.covers, and_mask_FN, fieldF_wordXYN, fieldN_wordXYN]; rfl
theorem addReg (x y : Nibble) : Statement (.addReg x y) := by
  intro _; simp only [Instr.row, encode, OpcodeRow.covers, and_mask_FN, fieldF_wordXYN, fieldN_wordXYN]; rfl
theorem sub (x y : Nibble) : Statement (.sub x y) := by
  intro _; simp only [Instr.row, encode, OpcodeRow.covers, and_mask_FN, fieldF_wordXYN, fieldN_wordXYN]; rfl
theorem subn (x y : Nibble) : Statement (.subn x y) := by
  intro _; simp only [Instr.row, encode, OpcodeRow.covers, and_mask_FN, fieldF_wordXYN, fieldN_wordXYN]; rfl
theorem shr (x y : Nibble) : Statement (.shr x y) := by
  intro _; simp only [Instr.row, encode, OpcodeRow.covers, and_mask_FN, fieldF_wordXYN, fieldN_wordXYN]; rfl
theorem shl (x y : Nibble) : Statement (.shl x y) := by
  intro _; simp only [Instr.row, encode, OpcodeRow.covers, and_mask_FN, fieldF_wordXYN, fieldN_wordXYN]; rfl
theorem sneReg (x y : Nibble) : Statement (.sneReg x y) := by
  intro strict
  cases strict
  · simp only [Instr.row, maskXY, encode, OpcodeRow.covers, and_mask_F, fieldF_wordXYN, Bool.false_eq_true, if_false]; rfl
  · simp only [Instr.row, maskXY, encode, OpcodeRow.covers, and_mask_FN, fieldF_wordXYN, fieldN_wordXYN, if_true]; rfl
theorem ldI (nnn : Addr12) : Statement (.ldI nnn) := by
  intro _; simp only [Instr.row, encode, OpcodeRow.covers, and_mask_F, fieldF_wordNNN]; rfl
theorem jpV0 (nnn : Addr12) : Statement (.jpV0 nnn) := by
  intro _; simp only [Instr.row, encode, OpcodeRow.covers, and_mask_F, fieldF_wordNNN]; rfl
theorem rnd (x : Nibble) (nn : Byte) : Statement (.rnd x nn) := by
  intro _; simp only [Instr.row, encode, OpcodeRow.covers, and_mask_F, fieldF_wordXNN]; rfl
theorem drw (x y n : Nibble) : Statement (.drw x y n) := by
  intro _; simp only [Instr.row, encode, OpcodeRow.covers, and_mask_F, fieldF_wordXYN]; rfl
theorem skp (x : Nibble) : Statement (.skp x) := by
  intro _; simp only [Instr.row, encode, OpcodeRow.covers, and_mask_FNN, fieldF_wordXNN, fieldNN_wordXNN]; rfl
theorem sknp (x : Nibble) : Statement (.sknp x) := by
  intro _; simp only [Instr.row, encode, OpcodeRow.covers, and_mask_FNN, fieldF_wordXNN, fieldNN_wordXNN]; rfl
theorem ldVxDt (x : Nibble) : Statement (.ldVxDt x) := by
  intro _; simp only [Instr.row, encode, OpcodeRow.covers, and_mask_FNN, fieldF_wordXNN, fieldNN_wordXNN]; rfl
theorem ldVxK (x : Nibble) : Statement (.ldVxK x) := by
  intro _; simp only [Instr.row, encode, OpcodeRow.covers, and_mask_FNN, fieldF_wordXNN, fieldNN_wordXNN]; rfl
theorem ldDtVx (x : Nibble) : Statement (.ldDtVx x) := by
  intro _; simp only [Instr.row, encode, OpcodeRow.covers, and_mask_FNN, fieldF_wordXNN, fieldNN_wordXNN]; rfl
theorem ldStVx (x : Nibble) : Statement (.ldStVx x) := by
  intro _; simp only [Instr.row, encode, OpcodeRow.covers, and_mask_FNN, fieldF_wordXNN, fieldNN_wordXNN]; rfl
theorem addI (x : Nibble) : Statement (.addI x) := by
  intro _; simp only [Instr.row, encode, OpcodeRow.covers, and_mask_FNN, fieldF_wordXNN, fieldNN_wordXNN]; rfl
theorem ldF (x : Nibble) : Statement (.ldF x) := by
  intro _; simp only [Instr.row, encode, OpcodeRow.covers, and_mask_FNN, fieldF_wordXNN, fieldNN_wordXNN]; rfl
theorem ldB (x : Nibble) : Statement (.ldB x) := by
  intro _; simp only [Instr.row, encode, OpcodeRow.covers, and_mask_FNN, fieldF_wordXNN, fieldNN_wordXNN]; rfl
theorem ldMemVx (x : Nibble) : Statement (.ldMemVx x) := by
  intro _; simp only [Instr.row, encode, OpcodeRow.covers, and_mask_FNN, fieldF_wordXNN, fieldNN_wordXNN]; rfl
theorem ldVxMem (x : Nibble) : Statement (.ldVxMem x) := by
  intro _; simp only [Instr.row, encode, OpcodeRow.covers, and_mask_FNN, fieldF_wordXNN, fieldNN_wordXNN]; rfl

end Sys2Proof.Laws.EncodingFitsRow
end

