-- ==== Sys2Proof/Tests/Slice0.lean ====
section
/-! SUPPORT. Tests of the decoder, the checks and single steps, with expected results from spec/30_encoding.md R75 to R78 and
spec/95_test_vectors.md (the vector's id stands at each test), and a witness for the hypotheses of every obligation that has any. -/

-- One theorem after another: the many small theorems of this file gain nothing from threads of their own.
set_option Elab.async false

namespace Sys2Proof.Tests

open Sys2Proof.Machine

/-! Helpers. -/

/-- The default decoder. -/
def dec (w : Word) : Decoded := decode Config.default w

/-- The start state of a vector: the word loaded at 0x200 of a reset block. -/
def at200 (w : Nat) : State := State.reset.withFetchWord 16 w

/-- The same under another configuration. -/
def at200With (cfg : Config) (w : Nat) : State := (State.construct cfg).withFetchWord 16 w

/-- The answer is a next state that meets `p`. -/
def next (r : Result) (p : State → Bool) : Bool :=
  match r with
  | .next t => p t
  | .fault _ => false
  | .refused _ => false

/-- The answer is the fault `f`. -/
def faults (r : Result) (f : Fault) : Bool :=
  match r with
  | .next _ => false
  | .fault g => decide (g = f)
  | .refused _ => false

/-- The session action was admitted, and the session after it and the reply meet `p`. -/
def admitted (r : Except Refusal (Session × Reply)) (p : Session × Reply → Bool) : Bool :=
  match r with
  | .ok q => p q
  | .error _ => false

/-- The session action has no transition, for the reason `f`. -/
def refusedAs (r : Except Refusal (Session × Reply)) (f : Refusal) : Bool :=
  match r with
  | .ok _ => false
  | .error g => decide (g = f)

def strict : Config := { Config.default with strictDecode := true }
def sysNop : Config := { Config.default with sysPolicy := .nop }
def shiftVy : Config := { Config.default with shiftSource := .vy }
def flagLast : Config := { Config.default with vfAliasOrder := .flagLast }
def clipXy : Config := { Config.default with drawClip := .clipXy }
def oddFetch : Config := { Config.default with oddPc := .fetch }
def consume : Config := { Config.default with awaitKey := .clearSelected }
def allowLow : Config := { Config.default with reservedWrite := .allow }

/-! Decoding: a word of every row, written out nibble by nibble from the patterns of R75. -/

theorem test_decode_row01_02 : dec 0b0000000011100000 = .instr .cls ∧ dec 0b0000000011101110 = .instr .ret := by decide
theorem test_decode_row03_04 : dec 0b0001001100000000 = .instr (.jp 0x300) ∧ dec 0b0010111111111110 = .instr (.call 0xFFE) := by
  decide
theorem test_decode_row05_06 : dec 0b0011001101000010 = .instr (.seImm 3 0x42) ∧
    dec 0b0100010010000001 = .instr (.sneImm 4 0x81) := by decide
theorem test_decode_row07_19 : dec 0b0101000100100000 = .instr (.seReg 1 2) ∧ dec 0b1001000100100000 = .instr (.sneReg 1 2) := by
  decide
theorem test_decode_row08_09 : dec 0b0110101000000101 = .instr (.ldImm 0xA 0x05) ∧
    dec 0b0111101011111111 = .instr (.addImm 0xA 0xFF) := by decide
theorem test_decode_row10_13 : dec 0b1000000100100000 = .instr (.ldReg 1 2) ∧ dec 0b1000000100100001 = .instr (.orReg 1 2) ∧
    dec 0b1000000100100010 = .instr (.andReg 1 2) ∧ dec 0b1000000100100011 = .instr (.xorReg 1 2) := by decide
theorem test_decode_row14_18 : dec 0b1000000100100100 = .instr (.addReg 1 2) ∧ dec 0b1000000100100101 = .instr (.sub 1 2) ∧
    dec 0b1000000100100111 = .instr (.subn 1 2) ∧ dec 0b1000000100100110 = .instr (.shr 1 2) ∧
    dec 0b1000000100101110 = .instr (.shl 1 2) := by decide
theorem test_decode_row20_23 : dec 0b1010001000001100 = .instr (.ldI 0x20C) ∧ dec 0b1011111111111111 = .instr (.jpV0 0xFFF) ∧
    dec 0b1100001100001111 = .instr (.rnd 3 0x0F) ∧ dec 0b1101000000011111 = .instr (.drw 0 1 0xF) := by decide
theorem test_decode_row24_25 : dec 0b1110010110011110 = .instr (.skp 5) ∧ dec 0b1110010110100001 = .instr (.sknp 5) := by decide
theorem test_decode_row26_29 : dec 0b1111001000000111 = .instr (.ldVxDt 2) ∧ dec 0b1111010000001010 = .instr (.ldVxK 4) ∧
    dec 0b1111000000010101 = .instr (.ldDtVx 0) ∧ dec 0b1111000100011000 = .instr (.ldStVx 1) := by decide
theorem test_decode_row30_34 : dec 0b1111001100011110 = .instr (.addI 3) ∧ dec 0b1111000000101001 = .instr (.ldF 0) ∧
    dec 0b1111000000110011 = .instr (.ldB 0) ∧ dec 0b1111000101010101 = .instr (.ldMemVx 1) ∧
    dec 0b1111001001100101 = .instr (.ldVxMem 2) := by decide

/-- T-DEC-1, 2, 3, 5 to 9: the word and its family. -/
theorem test_decode_failures : dec 0x0000 = .undecodable 0x0000 0 ∧ dec 0x0123 = .undecodable 0x0123 0 ∧
    dec 0x00FF = .undecodable 0x00FF 0 ∧ dec 0x8008 = .undecodable 0x8008 8 ∧ dec 0x800F = .undecodable 0x800F 8 ∧
    dec 0xE000 = .undecodable 0xE000 0xE ∧ dec 0xF000 = .undecodable 0xF000 0xF ∧ dec 0xFFFF = .undecodable 0xFFFF 0xF := by decide

/-- T-DEC-4, T-CF-12 and R77: an ignored nibble, and STRICT_DECODE. -/
theorem test_decode_strict : dec 0x01E0 = .instr .cls ∧ decode strict 0x01E0 = .undecodable 0x01E0 0 ∧
    dec 0x0FEE = .instr .ret ∧ decode strict 0x0FEE = .undecodable 0x0FEE 0 ∧ dec 0x5121 = .instr (.seReg 1 2) ∧
    decode strict 0x5121 = .undecodable 0x5121 5 ∧ dec 0x912F = .instr (.sneReg 1 2) ∧
    decode strict 0x912F = .undecodable 0x912F 9 ∧ decode strict 0x5120 = .instr (.seReg 1 2) := by decide

/-- T-DEC-2 and R78 under SYS_POLICY = nop; a non-canonical `0XE0` under STRICT_DECODE is then a `SYS` too. -/
theorem test_decode_sys : decode sysNop 0x0123 = .sys 0x123 ∧ decode sysNop 0x00E0 = .instr .cls ∧
    decode { sysNop with strictDecode := true } 0x01E0 = .sys 0x1E0 := by decide

/-- No two rows of the table cover one word. -/
theorem test_table_rows_disjoint : (opcodeTable false).Pairwise (fun r r' => r.mask &&& r'.value ≠ r'.mask &&& r.value) ∧
    (opcodeTable true).Pairwise (fun r r' => r.mask &&& r'.value ≠ r'.mask &&& r.value) := by decide

theorem test_table_has_34_rows : (opcodeTable false).length = 34 := by decide

/-- The words as the table numbers them. -/
theorem test_decodeTableWord : decodeTableWord 16 0x00E0 = some .cls ∧ decodeTableWord 16 0x6A05 = some (.ldImm 0xA 5) ∧
    decodeTableWord 16 0x8008 = none := by decide

/-! WellFormed: every check refuses an ill-formed term. -/

/-- R71: a value one past the largest a field holds, for each field width. -/
theorem test_wf_field : fits 4 16 = false ∧ fits 8 256 = false ∧ fits 12 4096 = false ∧ fits 4 15 = true ∧ fits 8 255 = true ∧
    fits 12 4095 = true := by decide

/-- R33: a glyph row with a bit set below the four significant ones. -/
theorem test_wf_config : Config.wellFormed { Config.default with glyphTable := defaultGlyphs.set 7 0x21 } = false ∧
    Config.default.wellFormed = true := by decide

/-- R231, D32: 3585 bytes are refused and 3584 are not. -/
theorem test_wf_image : imageWellFormed (List.replicate 3585 0) = false ∧ imageWellFormed (List.replicate 3584 0) = true :=
  ⟨decide_eq_false (by rw [List.length_replicate]; decide), decide_eq_true (by rw [List.length_replicate]; decide)⟩

/-- R221, D19: a key value of 2. -/
theorem test_wf_key : keyValueWellFormed 2 = false ∧ keyValueWellFormed 1 = true ∧ keyValueWellFormed 0 = true := by decide

/-- Canonical memory: a listed byte equal to its reset value, an address above the space, and addresses that do not rise. -/
theorem test_wf_memory : Memory.wf Config.default [(0x300, 0)] = false ∧ Memory.wf Config.default [(0x1000, 1)] = false ∧
    Memory.wf Config.default [(0x301, 1), (0x300, 1)] = false ∧ Memory.wf Config.default [(0x300, 1), (0xFFF, 2)] = true := by decide

/-- Canonical display: a cell of 2, and a cell past 2047 (R34). -/
theorem test_wf_display : Bitmap.wf [(5, 2)] = false ∧ Bitmap.wf [(2048, 1)] = false ∧ Bitmap.wf [(5, 1), (2047, 1)] = true := by
  decide

/-! Display (T-DSP). -/

/-- T-DSP-1. -/
theorem test_cls : next (step (((at200 0x00E0).setDisp [(5, 1), (2047, 1)]).setRedraw false)) (fun t =>
    t.disp = [] ∧ t.redraw = true ∧ t.pc = 0x202) = true := by decide

/-- T-DSP-4: a collision. -/
theorem test_drw_collision : next (step ((((at200 0xD011).setI 0x300).storeByte 0x300 0x80).setDisp [(0, 1)])) (fun t =>
    t.disp = [] ∧ t.flag = 1 ∧ t.redraw = true) = true := by decide

/-- T-DSP-7: column 64 under both clip modes. -/
theorem test_drw_right_edge :
    next (step (((at200 0xD011).setI 0x300).storeByte 0x300 0xC0 |>.setReg 0 0x3F)) (fun t => t.disp = [(63, 1), (64, 1)]) = true ∧
    next (step (((at200With clipXy 0xD011).setI 0x300).storeByte 0x300 0xC0 |>.setReg 0 0x3F)) (fun t => t.disp = [(63, 1)]) = true := by
  decide

/-! Control flow (T-CF). -/

/-- T-CF-1. -/
theorem test_ret : next (step ((at200 0x00EE).setStack 1 (State.reset.stack.set 0 0x204))) (fun t =>
    t.sp = 0 ∧ t.pc = 0x206 ∧ t.stack[0] = 0x204) = true := by decide

/-- T-CF-2. -/
theorem test_ret_underflow : faults (step (at200 0x00EE)) (.stackUnderflow 0x200) = true := by decide

/-- T-CF-3. -/
theorem test_jp : next (step (at200 0x1300)) (fun t => t.pc = 0x300) = true := by decide

/-- T-CF-4, its first step. -/
theorem test_call : next (step (at200 0x2300)) (fun t => t.stack[0] = 0x200 ∧ t.sp = 1 ∧ t.pc = 0x300) = true := by decide

/-- T-CF-5. -/
theorem test_call_overflow : faults (step ((at200 0x2300).setStack 16 (Vector.replicate 16 0x222))) (.stackOverflow 0x200) = true := by
  decide

/-- T-CF-6 and T-CF-7. -/
theorem test_seImm : next (step ((at200 0x3342).setReg 3 0x42)) (fun t => t.pc = 0x204) = true ∧
    next (step ((at200 0x3443).setReg 4 0x42)) (fun t => t.pc = 0x202) = true := by decide

/-- T-CF-8 and T-CF-9. -/
theorem test_sneImm : next (step ((at200 0x4342).setReg 3 0x42)) (fun t => t.pc = 0x202) = true ∧
    next (step ((at200 0x4443).setReg 4 0x42)) (fun t => t.pc = 0x204) = true := by decide

/-- T-CF-10 and T-CF-11. -/
theorem test_seReg : next (step (((at200 0x5120).setReg 1 7).setReg 2 7)) (fun t => t.pc = 0x204) = true ∧
    next (step (((at200 0x5120).setReg 1 7).setReg 2 8)) (fun t => t.pc = 0x202) = true := by decide

/-- T-CF-13 and T-CF-14. -/
theorem test_sneReg : next (step (((at200 0x9120).setReg 1 7).setReg 2 8)) (fun t => t.pc = 0x204) = true ∧
    next (step (((at200 0x9120).setReg 1 7).setReg 2 7)) (fun t => t.pc = 0x202) = true := by decide

/-- T-CF-15 and the first step of T-CF-16: the sum is not masked. -/
theorem test_jpV0 : next (step ((at200 0xB300).setReg 0 0x10)) (fun t => t.pc = 0x310) = true ∧
    next (step ((at200 0xBFFF).setReg 0 0xFF)) (fun t => t.pc = 0x10FE) = true := by decide

/-! Register and ALU (T-ALU). -/

/-- T-ALU-1 and T-ALU-2. -/
theorem test_ldImm : next (step (at200 0x6A05)) (fun t => t.reg 0xA = 5 ∧ t.pc = 0x202) = true ∧
    next (step (at200 0x6F42)) (fun t => t.flag = 0x42) = true := by decide

/-- T-ALU-3. -/
theorem test_addImm : next (step (((at200 0x7AFF).setReg 0xA 2).setReg 0xF 9)) (fun t => t.reg 0xA = 1 ∧ t.flag = 9) = true := by
  decide

/-- T-ALU-5. -/
theorem test_ldReg : next (step ((at200 0x8120).setReg 2 0x55)) (fun t => t.reg 1 = 0x55 ∧ t.reg 2 = 0x55) = true := by decide

/-- T-ALU-6. -/
theorem test_orReg : next (step ((((at200 0x8121).setReg 1 0xF0).setReg 2 0x0F).setReg 0xF 5)) (fun t =>
    t.reg 1 = 0xFF ∧ t.flag = 5) = true := by decide

/-- T-ALU-7. -/
theorem test_andReg : next (step (((at200 0x8122).setReg 1 0xF0).setReg 2 0x3C)) (fun t => t.reg 1 = 0x30) = true := by decide

/-- T-ALU-8. -/
theorem test_xorReg : next (step (((at200 0x8123).setReg 1 0xFF).setReg 2 0x0F)) (fun t => t.reg 1 = 0xF0) = true := by decide

/-- T-ALU-9. -/
theorem test_addReg : next (step (((at200 0x8124).setReg 1 0xFF).setReg 2 1)) (fun t => t.reg 1 = 0 ∧ t.flag = 1) = true := by decide

/-- T-ALU-23: VF as the operand, under both orders. -/
theorem test_addReg_vf :
    next (step (((at200 0x81F4).setReg 1 0x80).setReg 0xF 0x80)) (fun t => t.reg 1 = 0x81 ∧ t.flag = 1) = true ∧
    next (step (((at200With flagLast 0x81F4).setReg 1 0x80).setReg 0xF 0x80)) (fun t => t.reg 1 = 0 ∧ t.flag = 1) = true := by decide

/-- T-ALU-12. -/
theorem test_sub : next (step (((at200 0x8125).setReg 1 3).setReg 2 5)) (fun t => t.reg 1 = 0xFE ∧ t.flag = 0) = true := by decide

/-- T-ALU-13, and T-ALU-24 under both orders. -/
theorem test_sub_equal_and_vf : next (step (((at200 0x8125).setReg 1 7).setReg 2 7)) (fun t => t.reg 1 = 0 ∧ t.flag = 1) = true ∧
    next (step (((at200 0x8F15).setReg 0xF 5).setReg 1 3)) (fun t => t.flag = 0xFE) = true ∧
    next (step (((at200With flagLast 0x8F15).setReg 0xF 5).setReg 1 3)) (fun t => t.flag = 1) = true := by decide

/-- T-ALU-15. -/
theorem test_subn : next (step (((at200 0x8127).setReg 1 5).setReg 2 3)) (fun t => t.reg 1 = 0xFE ∧ t.flag = 0) = true := by decide

/-- T-ALU-16, and T-ALU-27 under both orders. -/
theorem test_subn_equal_and_vf : next (step (((at200 0x8127).setReg 1 7).setReg 2 7)) (fun t => t.reg 1 = 0 ∧ t.flag = 1) = true ∧
    next (step (((at200 0x81F7).setReg 1 3).setReg 0xF 5)) (fun t => t.reg 1 = 0xFE ∧ t.flag = 1) = true ∧
    next (step (((at200With flagLast 0x81F7).setReg 1 3).setReg 0xF 5)) (fun t => t.reg 1 = 2 ∧ t.flag = 1) = true := by decide

/-- T-ALU-17 under both SHIFT_SOURCE values. -/
theorem test_shr : next (step (((at200 0x8126).setReg 1 5).setReg 2 0x80)) (fun t => t.reg 1 = 2 ∧ t.flag = 1) = true ∧
    next (step (((at200With shiftVy 0x8126).setReg 1 5).setReg 2 0x80)) (fun t => t.reg 1 = 0x40 ∧ t.flag = 0) = true := by decide

/-- T-ALU-28 under both orders. -/
theorem test_shr_vf : next (step ((at200 0x8F06).setReg 0xF 3)) (fun t => t.flag = 0) = true ∧
    next (step ((at200With flagLast 0x8F06).setReg 0xF 3)) (fun t => t.flag = 1) = true := by decide

/-- T-ALU-19 under both SHIFT_SOURCE values. -/
theorem test_shl : next (step (((at200 0x812E).setReg 1 0x81).setReg 2 1)) (fun t => t.reg 1 = 2 ∧ t.flag = 1) = true ∧
    next (step (((at200With shiftVy 0x812E).setReg 1 0x81).setReg 2 1)) (fun t => t.reg 1 = 2 ∧ t.flag = 0) = true := by decide

/-- T-ALU-29 under both orders. -/
theorem test_shl_vf : next (step ((at200 0x8F0E).setReg 0xF 0x81)) (fun t => t.flag = 2) = true ∧
    next (step ((at200With flagLast 0x8F0E).setReg 0xF 0x81)) (fun t => t.flag = 1) = true := by decide

/-! Address register and memory (T-IDX). -/

/-- T-IDX-1. -/
theorem test_ldI : next (step (at200 0xA300)) (fun t => t.I = 0x300) = true := by decide

/-- T-IDX-3 and T-IDX-6: just above 0xFFF, and below it with an old flag. -/
theorem test_addI : next (step (((at200 0xF11E).setI 0xFFF).setReg 1 1)) (fun t => t.I = 0x1000 ∧ t.flag = 1) = true ∧
    next (step ((((at200 0xF11E).setI 0x200).setReg 1 0x10).setReg 0xF 1)) (fun t => t.I = 0x210 ∧ t.flag = 0) = true := by decide

/-- T-IDX-5 and T-IDX-7: the wrap, and VF as the operand. -/
theorem test_addI_wrap_and_vf : next (step (((at200 0xF11E).setI 0xFFFF).setReg 1 1)) (fun t => t.I = 0 ∧ t.flag = 1) = true ∧
    next (step (((at200 0xFF1E).setI 0xFFA).setReg 0xF 0x10)) (fun t => t.I = 0x100A ∧ t.flag = 1) = true := by decide

/-- T-IDX-8 and T-IDX-10. -/
theorem test_ldF : next (step ((at200 0xF029).setReg 0 0xA)) (fun t => t.I = 0x32) = true ∧
    next (step ((at200 0xF029).setReg 0 0xFF)) (fun t => t.I = 0x4FB) = true := by decide

/-- T-IDX-15. -/
theorem test_ldB : next (step (((at200 0xF033).setReg 0 0x7B).setI 0xFFD)) (fun t =>
    t.byteAt 0xFFD = 1 ∧ t.byteAt 0xFFE = 2 ∧ t.byteAt 0xFFF = 3 ∧ t.I = 0xFFD) = true := by decide

/-- T-IDX-16 and T-IDX-17. -/
theorem test_ldB_faults : faults (step (((at200 0xF033).setReg 0 0x7B).setI 0xFFE)) (.memoryOutOfRange 0x1000 .write) = true ∧
    faults (step (((at200 0xF033).setReg 0 0x7B).setI 0x1FE)) (.reservedWrite 0x1FE) = true ∧
    next (step (((at200With allowLow 0xF033).setReg 0 0x7B).setI 0x1FE)) (fun t => t.byteAt 0x1FE = 1 ∧ t.byteAt 0x200 = 3) = true := by
  decide

/-- T-IDX-18. -/
theorem test_ldMemVx : next (step ((((at200 0xF155).setReg 0 1).setReg 1 2).setI 0x300)) (fun t =>
    t.byteAt 0x300 = 1 ∧ t.byteAt 0x301 = 2 ∧ t.byteAt 0x302 = 0 ∧ t.I = 0x302) = true := by decide

/-- T-IDX-21. -/
theorem test_ldMemVx_fault : faults (step ((at200 0xF355).setI 0xFFE)) (.memoryOutOfRange 0x1000 .write) = true := by decide

/-- T-IDX-22. -/
theorem test_ldVxMem : next (step (((at200 0xF265).storeBytes 0x300 [2, 5, 4]).setReg 3 9 |>.setI 0x300)) (fun t =>
    t.reg 0 = 2 ∧ t.reg 1 = 5 ∧ t.reg 2 = 4 ∧ t.reg 3 = 9 ∧ t.I = 0x303) = true := by decide

/-- T-IDX-24 and T-IDX-25: the glyph "0", and the fault at 0x1000. -/
theorem test_ldVxMem_edges : next (step (at200 0xF465)) (fun t =>
      t.reg 0 = 0xF0 ∧ t.reg 1 = 0x90 ∧ t.reg 4 = 0xF0 ∧ t.I = 5) = true ∧
    faults (step ((at200 0xF165).setI 0xFFF)) (.memoryOutOfRange 0x1000 .read) = true := by decide

/-! Random, keys and timers (T-TKR). -/

/-- T-TKR-1; the byte is spent by the step. -/
theorem test_rnd : next (step ((at200 0xC30F).setRnd (some 0xA7))) (fun t => t.reg 3 = 7 ∧ t.rnd = none ∧ t.draws = 1) = true := by
  decide

/-- T-TKR-4 and T-TKR-5. -/
theorem test_skp : next (step (((at200 0xE59E).setReg 5 0xA).setKey 0xA 1)) (fun t => t.pc = 0x204) = true ∧
    next (step ((at200 0xE59E).setReg 5 0xA)) (fun t => t.pc = 0x202) = true := by decide

/-- T-TKR-8. -/
theorem test_skp_fault : faults (step ((at200 0xE59E).setReg 5 0x10)) (.keyIndexOutOfRange 0x10) = true := by decide

/-- T-TKR-6 and T-TKR-7. -/
theorem test_sknp : next (step ((at200 0xE5A1).setReg 5 0xA)) (fun t => t.pc = 0x204) = true ∧
    next (step (((at200 0xE5A1).setReg 5 0xA).setKey 0xA 1)) (fun t => t.pc = 0x202) = true := by decide

/-- T-TKR-9. -/
theorem test_ldVxDt : next (step ((at200 0xF207).setDT 0x3C)) (fun t => t.reg 2 = 0x3C ∧ t.DT = 0x3B) = true := by decide

/-- T-TKR-11: no key. -/
theorem test_ldVxK_waits : next (step (((at200 0xF40A).setReg 4 0x77).setDT 2)) (fun t =>
    t.pc = 0x200 ∧ t.reg 4 = 0x77 ∧ t.DT = 1) = true := by decide

/-- T-TKR-10 and T-TKR-12: the highest key, kept or cleared. -/
theorem test_ldVxK : next (step (((at200 0xF40A).setKey 3 1).setKey 9 1)) (fun t =>
      t.reg 4 = 9 ∧ t.pc = 0x202 ∧ t.keyAt 9 = 1) = true ∧
    next (step (((at200With consume 0xF40A).setKey 3 1).setKey 9 1)) (fun t =>
      t.reg 4 = 9 ∧ t.keyAt 9 = 0 ∧ t.keyAt 3 = 1) = true := by decide

/-- T-TKR-14 and T-TKR-15. -/
theorem test_ldDtVx : next (step ((at200 0xF015).setReg 0 3)) (fun t => t.DT = 2) = true ∧
    next (step (at200 0xF015)) (fun t => t.DT = 0) = true := by decide

/-- T-TKR-16 and T-TKR-18. -/
theorem test_ldStVx : next (step ((at200 0xF118).setReg 1 1)) (fun t => t.ST = 0 ∧ t.beep = true) = true ∧
    next (step (((at200 0xF118).setReg 1 5).setST 1)) (fun t => t.ST = 4 ∧ t.beep = false) = true := by decide

/-! The step (T-TICK, T-CF, T-DEC). -/

/-- T-TICK-1 and T-TICK-2. -/
theorem test_tick : next (step (((at200 0x6000).setDT 1).setST 2)) (fun t => t.DT = 0 ∧ t.ST = 1 ∧ t.beep = false) = true ∧
    next (step ((at200 0x6000).setST 1)) (fun t => t.ST = 0 ∧ t.beep = true) = true := by decide

/-- T-TICK-5: no tick in a faulting step, and the same fault again. -/
theorem test_decode_failure_halts :
    let s := ((at200 0x0000).setDT 4).setST 1
    faults (step s) (.decodeFailure 0 0) = true ∧ (stateAfter s (step s)).DT = 4 ∧
    (stateAfter s (step s)).status = .halted (.decodeFailure 0 0) ∧
    faults (step (stateAfter s (step s))) (.decodeFailure 0 0) = true := by decide

/-- The second steps of T-CF-16 and T-CF-19, and T-CF-20 under ODD_PC_POLICY = fetch. -/
theorem test_fetch_faults : faults (step (State.reset.setPc 0x10FE)) (.memoryOutOfRange 0x10FE .fetch) = true ∧
    faults (step (State.reset.setPc 0x201)) (.misalignedFetch 0x201) = true ∧
    faults (step (((at200With oddFetch 0x1201).storeBytes 0x202 [0x60, 0x05]).setPc 0x201)) (.decodeFailure 0x0160 0) = true ∧
    faults (step ((State.construct oddFetch).setPc 0xFFF)) (.memoryOutOfRange 0x1000 .fetch) = true := by decide

/-- T-DEC-2 under SYS_POLICY = nop. -/
theorem test_sys_nop : next (step (at200With sysNop 0x0123)) (fun t => t = { at200With sysNop 0x0123 with pc := 0x202 }) = true := by
  decide

/-- T-RST-1, T-RST-4 and T-RST-5, with a load of two bytes. -/
theorem test_load : State.reset.pc = 0x200 ∧ State.reset.byteAt 0x04F = 0x80 ∧ State.reset.byteAt 0x050 = 0 ∧
    State.reset.load [] = (State.reset, .ok) ∧
    admitted (Session.act (.load [0x12, 0x34]) (Session.start Config.default)) (fun q =>
      q.1.block.byteAt 0x200 = 0x12 ∧ q.1.block.byteAt 0x201 = 0x34 ∧
      refusedAs (Session.act (.load []) q.1) .loadNotAdmitted) = true := by decide

/-- withFetchWord lays the word at `pc`, high byte first, and step runs it. -/
theorem test_withFetchWord : (at200 0x6A05).byteAt 0x200 = 0x6A ∧ (at200 0x6A05).byteAt 0x201 = 0x05 ∧
    at200 0x6A05 = { State.reset with mem := [(0x200, 0x6A), (0x201, 0x05)] } := by decide

/-! Witnesses: for every obligation with hypotheses, concrete values that meet them together, each clause at a boundary of its range.
An obligation that is not named here has no hypothesis. -/

/-- A state from which one instruction of every row completes: one return address on the stack, `I` in program memory. -/
def ready : State := (State.reset.setStack 1 (State.reset.stack.set 0 0x204)).setI 0x300

/-- The premise `exec i s` answers a next state, for one instruction of every row (EveryInstructionWritesPcByTheTable,
EachPartHasItsOwnWriters, OnlyRndDependsOnTheRandomByte). -/
theorem witness_exec_next_every_row : representatives.all (fun i => next (exec i ready) fun _ => true) = true := by decide

/-- EveryInstructionWritesPcByTheTable: both ways of each skip and of the key wait, and a wrapping `pc`. -/
theorem witness_pc_table :
    [Instr.seImm 0 0, .sneImm 0 1, .seReg 0 1, .sneReg 0 2, .sknp 0].all
      (fun i => next (exec i (ready.setReg 2 1)) fun t => t.pc = 0x204) = true ∧
    [Instr.seImm 0 1, .sneImm 0 0, .seReg 0 2, .sneReg 0 1, .skp 0].all
      (fun i => next (exec i (ready.setReg 2 1)) fun t => t.pc = 0x202) = true ∧
    next (exec (.skp 0) (ready.setKey 0 1)) (fun t => t.pc = 0x204) = true ∧
    next (exec (.ldVxK 0) ready) (fun t => t.pc = 0x200) = true ∧
    next (exec (.ldVxK 0) (ready.setKey 0 1)) (fun t => t.pc = 0x202) = true ∧
    next (exec .cls (ready.setPc 0xFFFF)) (fun t => t.pc = 1) = true := by decide

/-- EncodeOfDecodeIsTheWord: a canonical word, and one of each non-canonical form. -/
theorem witness_EncodeOfDecodeIsTheWord : decode Config.default 0x6A05 = .instr (.ldImm 0xA 5) ∧
    decode Config.default 0x01E0 = .instr .cls ∧ decode Config.default 0x0FEE = .instr .ret ∧
    decode Config.default 0x512F = .instr (.seReg 1 2) ∧ decode Config.default 0x9121 = .instr (.sneReg 1 2) := by decide

/-- DecodeFollowsTheOpcodeTable: a word that decodes and whose row covers it. -/
theorem witness_DecodeFollowsTheOpcodeTable : decode Config.default 0x8FFE = .instr (.shl 0xF 0xF) ∧
    (Instr.row false (.shl 0xF 0xF)).covers 0x8FFE = true ∧ Instr.row false (.shl 0xF 0xF) ∈ opcodeTable false := by decide

/-- UndecodableWordsAreTheListedOnes: a word of each list, and the same under nop outside family 0x0. -/
theorem witness_UndecodableWordsAreTheListedOnes : (Config.default.strictDecode = false ∧ sysNop.strictDecode = false) ∧
    [0x0000#16, 0x0FFF, 0x8008, 0x8FFF, 0xE000, 0xEFFF, 0xF000, 0xFFFF].all
      (fun w => decode Config.default w = .undecodable w (fieldF w)) = true ∧
    [0x8008#16, 0x8FFF, 0xE000, 0xEFFF, 0xF000, 0xFFFF].all (fun w => decode sysNop w = .undecodable w (fieldF w)) = true ∧
    decode sysNop 0x0FFF = .sys 0xFFF := by decide

/-- StrictDecodeRejectsNonCanonicalWords: both parts of its first premise, and its second clause on each of its outcomes. -/
theorem witness_StrictDecodeRejectsNonCanonicalWords :
    (strict.sysPolicy = .decodeFailure ∧ decode strict 0x01E0 = .undecodable 0x01E0 0 ∧ decode strict 0x00E0 = .instr .cls) ∧
    ((0x5121#16).toNat / 4096 ≠ 0 ∧ decode { sysNop with strictDecode := true } 0x5121 = .undecodable 0x5121 5 ∧
      decode { sysNop with strictDecode := true } 0x912F = .undecodable 0x912F 9) ∧
    sysNop.sysPolicy = .nop ∧ decode { sysNop with strictDecode := true } 0x00E0 = .instr .cls ∧
    decode { sysNop with strictDecode := true } 0x00EE = .instr .ret ∧
    decode { sysNop with strictDecode := true } 0x0FEE = .sys 0xFEE := by decide

/-- Fetch at 0x200 of a state right after reset, whatever its memory. -/
theorem fetchable_at200 (cfg : Config) (w : Nat) : Fetchable (at200With cfg w) := by
  have h : (at200With cfg w).pc = 0x200 := rfl
  unfold Fetchable
  rw [h]
  exact ⟨fun _ => by decide, by decide⟩

/-- SysWordsFollowSysPolicy, under both policies. -/
theorem witness_SysWordsFollowSysPolicy (cfg : Config) (h : cfg = Config.default ∨ cfg = sysNop) :
    (at200With cfg 0x0123).status = .running ∧ Fetchable (at200With cfg 0x0123) ∧ WordAtPc (at200With cfg 0x0123) 0x0123 ∧
    (0x0123#16).toNat / 4096 = 0 ∧ decode cfg 0x0123 ≠ .instr .cls ∧ decode cfg 0x0123 ≠ .instr .ret := by
  rcases h with rfl | rfl <;> exact ⟨rfl, fetchable_at200 _ _, rfl, by decide, by decide, by decide⟩

/-- StepRunsTheDecodedInstruction: an instruction that completes, and one that faults. -/
theorem witness_StepRunsTheDecodedInstruction :
    ((at200 0x6A05).status = .running ∧ Fetchable (at200 0x6A05) ∧ WordAtPc (at200 0x6A05) 0x6A05 ∧
      decode (at200 0x6A05).config 0x6A05 = .instr (.ldImm 0xA 5) ∧ (Instr.ldImm 0xA 5).wellFormed = true ∧
      next (exec (.ldImm 0xA 5) (at200 0x6A05)) (fun _ => true) = true) ∧
    ((at200 0x00EE).status = .running ∧ Fetchable (at200 0x00EE) ∧ WordAtPc (at200 0x00EE) 0x00EE ∧
      decode (at200 0x00EE).config 0x00EE = .instr .ret ∧ Instr.ret.wellFormed = true ∧
      faults (exec .ret (at200 0x00EE)) (.stackUnderflow 0x200) = true) :=
  ⟨⟨rfl, fetchable_at200 _ _, rfl, by decide, by decide, by decide⟩,
    ⟨rfl, fetchable_at200 _ _, rfl, by decide, by decide, by decide⟩⟩

/-- StepFaultsInTheOrderOfChecks: a state for each of its clauses; the last has an instruction's own fault. -/
theorem witness_StepFaultsInTheOrderOfChecks :
    faults (step (State.reset.halt (.stackOverflow 0))) (.stackOverflow 0) = true ∧
    faults (step (State.reset.setPc 0x1001)) (.misalignedFetch 0x1001) = true ∧
    faults (step (State.reset.setPc 0x1000)) (.memoryOutOfRange 0x1000 .fetch) = true ∧
    faults (step (State.reset.setPc 0xFFE)) (.decodeFailure 0 0) = true ∧
    faults (step (at200 0x00EE)) (.stackUnderflow 0x200) = true := by decide

/-- StepCompletesExactlyWhenReady: a state that is ready. -/
theorem witness_StepCompletesExactlyWhenReady : Ready (at200 0x6A05) := by
  refine ⟨rfl, fetchable_at200 _ _, fun w hw => .inr ⟨.ldImm 0xA 5, ?_, fun _ h => h⟩⟩
  have : w = 0x6A05 := BitVec.eq_of_toNat_eq hw
  rw [this]; decide

/-- ExecFaultsExactlyAsItsRuleSays: an instruction with no fault of its own, and one for each fault. -/
theorem witness_ExecFaultsExactlyAsItsRuleSays : (∀ f, ¬OwnFault .cls ready f) ∧ OwnFault .ret (ready.setStack 0 ready.stack)
      (.stackUnderflow 0x200) ∧ OwnFault (.call 0) (ready.setStack 16 ready.stack) (.stackOverflow 0x200) ∧
    OwnFault (.skp 0) (ready.setReg 0 0x10) (.keyIndexOutOfRange 0x10) :=
  ⟨fun _ h => h, ⟨rfl, rfl⟩, ⟨rfl, rfl⟩, ⟨by decide, rfl⟩⟩

/-- MemCheckRaisesItsLowestFailingAddress: the values at the edges of the two ranges. -/
theorem witness_MemCheckRaisesItsLowestFailingAddress : memCheck Config.default .read 0xFFF 1 = none ∧
    memCheck Config.default .read 0xFFF 2 = some (.memoryOutOfRange 0x1000 .read) ∧
    memCheck Config.default .write 0x1FF 2 = some (.reservedWrite 0x1FF) ∧ memCheck Config.default .write 0x200 1 = none ∧
    memCheck allowLow .write 0x1FF 2 = none ∧ memCheck Config.default .write 0xFFFF 0 = none := by decide

/-- HaltedBlockStaysAsItIs. -/
theorem witness_HaltedBlockStaysAsItIs : (ready.halt (.stackOverflow 0)).status = .halted (.stackOverflow 0) := rfl

/-- FaultHaltsTheBlockAndWritesNothingElse: a faulting step, and a halted block at which the host still acts. -/
theorem witness_FaultHaltsTheBlockAndWritesNothingElse :
    faults (stepWith 0 (at200 0x00EE)) (.stackUnderflow 0x200) = true ∧
    [HostAction.load [], .step 0, .writeKey 0 1, .clearRedraw, .clearBeep].all (fun a =>
      admitted (Session.act a ⟨.constructed, ready.halt (.stackOverflow 0)⟩) fun _ => true) = true := by decide

/-- ClsClearsEveryPixelAndSetsRedraw, RetReturnsPastThePoppedAddress, RegisterSkipsAdvanceByFourOrTwo: the premise on the ignored nibble, in
both its parts. -/
theorem witness_ignored_nibble : Config.default.strictDecode = false ∧ strict.strictDecode ≠ false ∧
    decode Config.default (wordXNN 0 0xF 0xE0) = .instr .cls ∧ decode strict (wordXNN 0 0 0xE0) = .instr .cls ∧
    decode Config.default (wordXYN 5 1 2 0xF) = .instr (.seReg 1 2) ∧ decode strict (wordXYN 5 1 2 0) = .instr (.seReg 1 2) := by decide

/-- A one-row sprite of a single pixel at 0xFFF, drawn at column 63 of row 31, where the display holds a 1. -/
def corner : State := (((((State.reset.storeByte 0xFFF 0x80).setI 0xFFF).setReg 0 63).setReg 1 31)).setDisp [(2047, 1)]

/-- DrwXorsTheVisibleSpriteBits, ClsThenDrwShowsExactlyTheSprite: the last readable row, a covered cell that is 1, and a cell that is
not covered. -/
theorem witness_DrwXorsTheVisibleSpriteBits : Bitmap.wf corner.disp = true ∧ Readable corner 1 ∧
    (Covers corner 0 1 1 2047 ∧ corner.pixel 2047 = 1) ∧ ¬Covers corner 0 1 1 0 ∧
    (∀ o, Covers (corner.setDisp []) 0 1 1 o → (corner.setDisp []).pixel o ≠ 1) := by
  refine ⟨by decide, by unfold Readable; decide, ⟨⟨0, 0, by decide, by decide, by decide, ?_, by decide⟩, by decide⟩, ?_, ?_⟩
  · show (_ : Nat) * 64 + _ ≤ 2047
    decide
  · rintro ⟨r, c, hr, hc, -, -, h⟩
    have h1 : (corner.reg 1).toNat = 31 := by decide
    rw [h1] at h; omega
  · intro o _ h
    exact absurd h (by show ¬(0#8 = 1#8); decide)

/-- DrwXorsTheVisibleSpriteBits, its fault: row 0 can be read and row 1 cannot (T-DSP-10). -/
theorem witness_DrwXors_fault : AccessRaises corner.config .read corner.I.toNat 2 (.memoryOutOfRange 0x1000 .read) := by
  refine ⟨1, by decide, .inl ⟨by decide, by decide⟩, fun j hj g => ?_⟩
  obtain rfl : j = 0 := by omega
  rintro (⟨h, -⟩ | ⟨-, h, -⟩)
  · exact absurd h (by decide)
  · cases h

/-- ClipModesAgreeLeftOfColumn64: its first premise at its bound, and its second where the first fails. -/
theorem witness_ClipModesAgreeLeftOfColumn64 : ((corner.setReg 0 56).reg 0).toNat + 7 < 64 ∧ ¬((corner.reg 0).toNat + 7 < 64) ∧
    ∀ r c, r < (1 : Nibble).toNat → c < 8 → (corner.byteAt (corner.I.toNat + r)).getLsbD (7 - c) = true →
      (corner.reg 0).toNat + c < 64 := by
  refine ⟨by decide, by decide, fun r c hr hc => ?_⟩
  obtain rfl : r = 0 := by have : (1 : Nibble).toNat = 1 := rfl; omega
  revert c; decide

/-- DrwTwiceRestoresTheDisplay: a first draw that leaves a 1, and one that leaves none. -/
theorem witness_DrwTwiceRestoresTheDisplay : Bitmap.wf (corner.setDisp []).disp = true ∧ Bitmap.wf corner.disp = true ∧
    next (exec (.drw 0 1 1) (corner.setDisp [])) (fun u => u.reg 0 = corner.reg 0 ∧ u.reg 1 = corner.reg 1 ∧ u.pixel 2047 = 1) = true ∧
    next (exec (.drw 0 1 1) corner) (fun u => u.reg 0 = corner.reg 0 ∧ u.reg 1 = corner.reg 1 ∧ u.disp = []) = true := by decide

/-- CallPushesItsOwnAddress, RetReturnsPastThePoppedAddress, CallThenRetResumesAfterTheCall: the first and the last slot, and the two
faults. -/
theorem witness_call_and_ret :
    [0, 15].all (fun k : Fin 16 => next (exec (.call 0x300) (ready.setStack k.castSucc ready.stack)) fun t => t.sp = k.succ) = true ∧
    [0, 15].all (fun k : Fin 16 => next (exec .ret (ready.setStack k.succ ready.stack)) fun t => t.sp = k.castSucc) = true ∧
    (ready.setStack 16 ready.stack).sp.val = 16 ∧ (ready.setStack 0 ready.stack).sp.val = 0 := by decide

/-- CallThenRetResumesAfterTheCall: between the two a nested `CALL` and its `RET`, which leave the nested address in slot 2 and so
another stack, but `sp` and the `CALL`'s slot 1 as they were; and a step with a slot in use before it and after it. -/
theorem witness_CallThenRetResumesAfterTheCall : ready.sp.val < 16 ∧ next (exec (.call 0x300) ready) (fun u =>
      next (exec (.call 0x400) u) fun n => next (exec .ret n) fun v =>
        v.sp = u.sp ∧ v.stack[1] = u.stack[1] ∧ v.stack ≠ u.stack) = true ∧
    next (step ((at200 0x2300).setStack 1 ready.stack)) (fun t => (0 : Nat) < t.sp.val ∧ t.stack[0] = 0x204) = true := by decide

/-- ShiftsWriteTheBitShiftedOut: S under each SHIFT_SOURCE. -/
theorem witness_ShiftsWriteTheBitShiftedOut : (Config.default.shiftSource = .vx ∧ Config.default.shiftSource ≠ .vy) ∧
    (shiftVy.shiftSource = .vy ∧ shiftVy.shiftSource ≠ .vx) := by decide

/-- AddSubSubnWriteFlagAndResult, ShiftsWriteTheBitShiftedOut: both orders, and VF as each operand (T-ALU-22 to T-ALU-30). -/
theorem witness_flag_orders : Config.default.vfAliasOrder = .sequential ∧ flagLast.vfAliasOrder = .flagLast ∧
    next (exec (.addReg 0xF 0xF) ((State.construct Config.default).setReg 0xF 0x80)) (fun t => t.flag = 2) = true ∧
    next (exec (.addReg 0xF 0xF) ((State.construct flagLast).setReg 0xF 0x80)) (fun t => t.flag = 1) = true := by decide

/-- FlagOrdersAgreeAwayFromVF: the largest register numbers below VF. -/
theorem witness_FlagOrdersAgreeAwayFromVF : (0xE : Nibble) ≠ 0xF ∧
    [Instr.addReg 0xE 0xE, .sub 0xE 0xE, .subn 0xE 0xE, .shr 0xE 0xE, .shl 0xE 0xE].all
      (fun i => next (exec i ready) fun _ => true) = true := by decide

/-- LdBStoresThreeDecimalDigits: both ends of the writable range. -/
theorem witness_LdBStoresThreeDecimalDigits : Memory.wf ready.config ready.mem = true ∧ Writable (ready.setI 0x200) 3 ∧
    Writable (ready.setI 0xFFD) 3 ∧ Writable ((State.construct allowLow).setI 0) 3 := by
  unfold Writable; decide

/-- LdBStoresThreeDecimalDigits, its faults: the last reserved address, and the first address past the space. -/
theorem witness_LdB_faults :
    AccessRaises Config.default .write (ready.setI 0x1FF).I.toNat 3 (.reservedWrite 0x1FF) ∧
    AccessRaises Config.default .write (ready.setI 0xFFE).I.toNat 3 (.memoryOutOfRange 0x1000 .write) := by
  constructor
  · exact ⟨0, by decide, .inr ⟨by decide, rfl, by decide, rfl, by decide⟩, fun j hj => absurd hj (by omega)⟩
  · refine ⟨2, by decide, .inl ⟨by decide, by decide⟩, fun j hj g => ?_⟩
    have hI : (ready.setI 0xFFE).I.toNat = 0xFFE := by decide
    rintro (⟨h, -⟩ | ⟨-, -, h, -⟩) <;> omega

/-- BlockStoreStoresRegistersUpToX, BlockStoreThenLoadRoundTrips: all sixteen registers at both ends of the writable range, and one. -/
theorem witness_BlockStoreStoresRegistersUpToX : Memory.wf ready.config ready.mem = true ∧ Writable (ready.setI 0x200) 16 ∧
    Writable (ready.setI 0xFF0) 16 ∧ Writable (ready.setI 0xFFF) 1 := by
  unfold Writable; decide

/-- BlockStoreStoresRegistersUpToX, its faults. -/
theorem witness_BlockStore_faults :
    AccessRaises Config.default .write (ready.setI 0x1FF).I.toNat 1 (.reservedWrite 0x1FF) ∧
    AccessRaises Config.default .write (ready.setI 0xFFF).I.toNat 2 (.memoryOutOfRange 0x1000 .write) := by
  constructor
  · exact ⟨0, by decide, .inr ⟨by decide, rfl, by decide, rfl, by decide⟩, fun j hj => absurd hj (by omega)⟩
  · refine ⟨1, by decide, .inl ⟨by decide, by decide⟩, fun j hj g => ?_⟩
    have hI : (ready.setI 0xFFF).I.toNat = 0xFFF := by decide
    rintro (⟨h, -⟩ | ⟨-, -, h, -⟩) <;> omega

/-- BlockLoadLoadsRegistersUpToX: both ends of the address space, and its fault. -/
theorem witness_BlockLoadLoadsRegistersUpToX : (Readable (ready.setI 0) 16 ∧ Readable (ready.setI 0xFF0) 16) ∧
    AccessRaises Config.default .read (ready.setI 0xFFF).I.toNat 2 (.memoryOutOfRange 0x1000 .read) := by
  refine ⟨by unfold Readable; decide, 1, by decide, .inl ⟨by decide, by decide⟩, fun j hj g => ?_⟩
  have hI : (ready.setI 0xFFF).I.toNat = 0xFFF := by decide
  rintro (⟨h, -⟩ | ⟨-, h, -⟩)
  · omega
  · cases h

/-- BlockStoreThenLoadRoundTrips: `I` set back after the store, and the last address from which a second block can be read. -/
theorem witness_BlockStoreThenLoadRoundTrips : next (exec (.ldMemVx 0xF) ready) (fun u => (u.setI 0x300).I = ready.I) = true ∧
    (∀ u : State, ∀ a, (u.setI 0x300).byteAt a = u.byteAt a) ∧ Writable (ready.setI 0xFE0) 16 ∧ Readable (ready.setI 0xFE0) 32 :=
  ⟨by decide, fun _ _ => rfl, by unfold Writable; decide, by unfold Readable; decide⟩

/-- StoredBytesAreFetched: the last two registers of a block, fetched at the address they were stored to. -/
theorem witness_StoredBytesAreFetched : Memory.wf ready.config ready.mem = true ∧
    next (exec (.ldMemVx 0xF) ready) (fun u => (u.setPc 0x30E).pc.toNat = ready.I.toNat + 14) = true ∧
    (∀ u : State, ∀ a, (u.setPc 0x30E).byteAt a = u.byteAt a) ∧ Fetchable (ready.setPc 0x30E) ∧ 14 + 1 ≤ (0xF : Nibble).toNat :=
  ⟨by decide, by decide, fun _ _ => rfl, ⟨fun _ => by decide, by decide⟩, by decide⟩

/-- RndMasksTheRandomByte: a step with a random byte from the host. -/
theorem witness_RndMasksTheRandomByte : (ready.setRnd (some 0xA7)).rnd = some 0xA7 := rfl

/-- KeySkipsReadTheNamedKey: the last key, and the first value that names none. -/
theorem witness_KeySkipsReadTheNamedKey : ((ready.setReg 0 15).reg 0).toNat = (0xF : Nibble).toNat ∧
    15 < ((ready.setReg 0 16).reg 0).toNat := by decide

/-- AwaitKeyTakesTheHighestPressedKey: no key, the first key alone, and the last key with others. -/
theorem witness_AwaitKeyTakesTheHighestPressedKey : (∀ k, ready.keyAt k ≠ 1) ∧
    ((ready.setKey 0 1).keyAt 0 = 1 ∧ ∀ j : Nibble, (0 : Nibble).toNat < j.toNat → (ready.setKey 0 1).keyAt j ≠ 1) ∧
    (((ready.setKey 0 1).setKey 15 1).keyAt 15 = 1 ∧ ∀ j : Nibble, ¬(0xF : Nibble).toNat < j.toNat) := by decide

/-- TimersCountCompletedSteps: a step of each timer instruction and of another one. -/
theorem witness_TimersCountCompletedSteps : [0xF015, 0xF018, 0x6000].all
    (fun w => next (step (at200 w)) fun _ => true) = true ∧ WordAtPc (at200 0xF015) 0xF015 ∧ WordAtPc (at200 0xF018) 0xF018 ∧
    WordAtPc (at200 0x6000) 0x6000 := ⟨by decide, rfl, rfl, rfl⟩

/-- The state of the next two witnesses: every listed instruction changes VF (or `I`) from it. -/
def full : State :=
  ((((((ready.setReg 0 0x81).setReg 1 0x81).setReg 0xF 0x55).setDT 7).setRnd (some 0xFF)).setKey 3 1).storeByte 0x300 0xFF

/-- OnlyTheListedInstructionsWriteVF: each listed instruction changes VF. -/
theorem witness_OnlyTheListedInstructionsWriteVF :
    [Instr.addReg 0 1, .sub 0 1, .subn 0 1, .shr 0 1, .shl 0 1, .drw 0 1 1, .addI 0, .ldImm 0xF 1, .addImm 0xF 1, .rnd 0xF 1,
      .ldReg 0xF 0, .orReg 0xF 0, .andReg 0xF 0, .xorReg 0xF 0, .ldVxDt 0xF, .ldVxK 0xF, .ldVxMem 0xF].all
      (fun i => next (exec i full) fun t => t.flag ≠ full.flag) = true := by decide

/-- OnlyTheListedInstructionsWriteI: each listed instruction changes `I`. -/
theorem witness_OnlyTheListedInstructionsWriteI :
    [Instr.ldI 0, .addI 0, .ldF 0, .ldMemVx 0, .ldVxMem 0].all (fun i => next (exec i full) fun t => t.I ≠ full.I) = true := by decide

/-- EachPartHasItsOwnWriters: each part is changed by a writer of it. -/
theorem witness_EachPartHasItsOwnWriters :
    next (exec (.call 0) full) (fun t => t.sp ≠ full.sp) = true ∧ next (exec .ret full) (fun t => t.sp ≠ full.sp) = true ∧
    next (exec (.ldDtVx 0) full) (fun t => t.DT ≠ full.DT) = true ∧ next (exec (.ldStVx 0) full) (fun t => t.ST ≠ full.ST) = true ∧
    next (exec (.rnd 0 0) full) (fun t => t.draws ≠ full.draws) = true ∧
    next (exec (.drw 0 2 1) full) (fun t => t.disp ≠ full.disp) = true ∧
    next (exec .cls (full.setRedraw false)) (fun t => t.redraw) = true ∧
    next (exec (.ldB 0) full) (fun t => t.byteAt 0x300 ≠ full.byteAt 0x300) = true ∧
    next (exec (.ldMemVx 0) full) (fun t => t.byteAt 0x300 ≠ full.byteAt 0x300) = true ∧
    next (exec (.ldVxK 0) ((State.construct consume).setKey 3 1)) (fun t => t.keyAt 3 = 0) = true := by decide

/-- ReservedRegionIsNeverWritten: a store at the first address above the region. -/
theorem witness_ReservedRegionIsNeverWritten :
    let s := ((at200 0xF033).setI 0x200).setReg 0 0x7B
    Memory.wf s.config s.mem = true ∧ s.config.reservedWrite = .fault ∧ next (step s) (fun t => t.byteAt 0x200 = 1) = true := by decide

/-- OnlyRndDependsOnTheRandomByte: an instruction that is no `RND`, completing and faulting. -/
theorem witness_OnlyRndDependsOnTheRandomByte : (∀ x nn, Instr.ret ≠ .rnd x nn) ∧ next (exec .ret ready) (fun _ => true) = true ∧
    faults (exec .ret State.reset) (.stackUnderflow 0x200) = true :=
  ⟨fun _ _ h => (by cases h), by decide, by decide⟩

/-- LoadCopiesTheImageOnce: the largest image, one byte more, an admitted load, and actions after which none is. -/
theorem witness_LoadCopiesTheImageOnce : Memory.wf State.reset.config State.reset.mem = true ∧
    (List.replicate 3584 (0x12 : Byte)).length ≤ 3584 ∧ 3584 < (List.replicate 3585 (0x12 : Byte)).length ∧
    [HostAction.load [], .step 0].all (fun a => admitted (Session.act a (Session.start Config.default)) fun q =>
      q.1.phase ≠ .constructed) = true ∧
    admitted (Session.act (.writeKey 0 1) ⟨.loadFailed, ready⟩) (fun q => q.1.phase = .loadFailed) = true := by
  refine ⟨by decide, ?_, ?_, by decide, by decide⟩ <;> rw [List.length_replicate]
  decide

/-- HostClearsSignalsAndSetsNone: an admitted action that is neither construction nor a step, with both flags up, and the steps that
set each flag. -/
theorem witness_HostClearsSignalsAndSetsNone : admitted (Session.act (.writeKey 0 1) ⟨.loaded, ready.setBeep true⟩) (fun q =>
      q.1.block.redraw ∧ q.1.block.beep) = true ∧
    (WordAtPc ((at200 0x00E0).setRedraw false) 0x00E0 ∧ next (step ((at200 0x00E0).setRedraw false)) (fun t => t.redraw) = true) ∧
    WordAtPc ((at200 0x6000).setST 1) 0x6000 ∧ next (step ((at200 0x6000).setST 1)) (fun t => t.beep ∧ t.ST = 0) = true :=
  ⟨by decide, ⟨rfl, by decide⟩, rfl, by decide⟩

/-- HostWritesKeysZeroOrOne: the last admitted value and the first refused one. -/
theorem witness_HostWritesKeysZeroOrOne : (1#8).toNat ≤ 1 ∧ 1 < (2#8).toNat ∧
    refusedAs (Session.act (.writeKey 0xF 2) ⟨.loaded, ready⟩) (.keyValueNotZeroOrOne 2) = true := by decide

/-- The state of a DRW about to draw over a set pixel has the invariant. -/
theorem inv_corner : ((at200 0xD011).setDisp [(0, 1)]).Inv where
  memory := by decide
  display := by decide
  keys := by decide
  reserved _ a ha := State.byteAt_storeBytes_outside (s := State.reset) (Memory.wf_nil _) (by decide) (.inl (by
    have : State.reset.pc.toNat = 0x200 := rfl
    omega))
  status n h := by cases h

/-- EveryStepKeepsTheInvariant. -/
theorem witness_EveryStepKeepsTheInvariant : ((at200 0xD011).setDisp [(0, 1)]).Inv ∧
    next (step ((at200 0xD011).setDisp [(0, 1)])) (fun t => t.disp ≠ []) = true := ⟨inv_corner, by decide⟩

/-- EveryHostActionKeepsTheInvariant: a step that faults, and every other action. -/
theorem witness_EveryHostActionKeepsTheInvariant : Session.Inv ⟨.constructed, (at200 0xD011).setDisp [(0, 1)]⟩ ∧
    [HostAction.construct, .load [1], .step 0, .writeKey 0 1, .clearRedraw, .clearBeep].all (fun a =>
      admitted (Session.act a ⟨.constructed, (at200 0xD011).setDisp [(0, 1)]⟩) fun _ => true) = true := ⟨inv_corner, by decide⟩

/-- CanonicalMemoriesWithEqualBytesAreEqual: a memory reached by two orders of writing. -/
theorem witness_CanonicalMemoriesWithEqualBytesAreEqual :
    let m := Memory.write Config.default (Memory.write Config.default [] 0xFFF 1) 0x050 2
    let m' := Memory.write Config.default (Memory.write Config.default [] 0x050 2) 0xFFF 1
    Memory.wf Config.default m = true ∧ Memory.wf Config.default m' = true ∧ m = m' := by decide

end Sys2Proof.Tests
end

section
/-! What each instruction may change: its registers and parts as data, and one frame lemma over `exec` that every statement about
writers and invariants uses (R21, R27 to R37, R58). -/

namespace Sys2Proof.Machine

/-! Frames, with each part's fields equal and not only what they read as. -/

/-- The fields of the part are the same in both states. -/
def Part.Kept (s t : State) : Part → Prop
  | .addr => t.I = s.I
  | .stack => (t.sp, t.stack) = (s.sp, s.stack)
  | .delay => t.DT = s.DT
  | .sound => t.ST = s.ST
  | .memory => t.mem = s.mem
  | .display => t.disp = s.disp
  | .keys => t.key = s.key
  | .redraw => t.redraw = s.redraw
  | .beep => t.beep = s.beep
  | .draws => t.draws = s.draws

theorem Part.Kept.refl (s : State) (p : Part) : p.Kept s s := by cases p <;> rfl

theorem Part.Kept.trans {s t u : State} {p : Part} (h : p.Kept s t) (h' : p.Kept t u) : p.Kept s u := by cases p <;> exact Eq.trans h' h

/-- Equal fields read alike; what memory reads as depends on the configuration too. -/
theorem Part.Kept.same {s t : State} {p : Part} (hc : t.config = s.config) (h : p.Kept s t) : p.Same s t := by
  cases p with
  | stack => exact Prod.mk.inj h
  | memory => intro a; unfold State.byteAt; rw [hc, show t.mem = s.mem from h]
  | display => intro o; unfold State.pixel; rw [show t.disp = s.disp from h]
  | keys => intro k; simp only [State.keyAt, show t.key = s.key from h]
  | _ => exact h

/-- Nothing but `pc`, the registers `regs` and the fields of `parts` differs between `s` and `t`. -/
structure Frame (regs : List Nibble) (parts : List Part) (s t : State) : Prop where
  config : t.config = s.config
  status : t.status = s.status
  rnd : t.rnd = s.rnd
  reg : ∀ r, r ∉ regs → t.reg r = s.reg r
  part : ∀ p, p ∉ parts → p.Kept s t

theorem Frame.changesOnly {regs : List Nibble} {parts : List Part} {s t : State} (h : Frame regs parts s t) :
    ChangesOnly regs parts s t :=
  ⟨h.config, h.status, h.rnd, h.reg, fun p hp => (h.part p hp).same h.config⟩

theorem Frame.refl (s : State) : Frame [] [] s s := ⟨rfl, rfl, rfl, fun _ _ => rfl, fun p _ => .refl s p⟩

theorem Frame.trans {regs regs' : List Nibble} {parts parts' : List Part} {s t u : State} (h : Frame regs parts s t)
    (h' : Frame regs' parts' t u) : Frame (regs ++ regs') (parts ++ parts') s u where
  config := h'.config.trans h.config
  status := h'.status.trans h.status
  rnd := h'.rnd.trans h.rnd
  reg r hr := by
    rw [List.mem_append, not_or] at hr
    exact (h'.reg r hr.2).trans (h.reg r hr.1)
  part p hp := by
    rw [List.mem_append, not_or] at hp
    exact (h.part p hp.1).trans (h'.part p hp.2)

theorem Frame.mono {regs regs' : List Nibble} {parts parts' : List Part} {s t : State} (h : Frame regs parts s t)
    (hr : regs ⊆ regs') (hp : parts ⊆ parts') : Frame regs' parts' s t :=
  ⟨h.config, h.status, h.rnd, fun r hn => h.reg r fun hm => hn (hr hm), fun p hn => h.part p fun hm => hn (hp hm)⟩

/-- An update of one part: it leaves the configuration, the run status, the random byte, the registers and every other part. -/
theorem Frame.of_part {s t : State} (p : Part) (hc : t.config = s.config) (hs : t.status = s.status) (hr : t.rnd = s.rnd)
    (hV : t.V = s.V) (hp : ∀ q, q ≠ p → q.Kept s t) : Frame [] [p] s t :=
  ⟨hc, hs, hr, fun r _ => by simp only [State.reg, hV], fun q hq => hp q fun h => hq (List.mem_singleton.mpr h)⟩

/-! The frame of every shared operation. -/

section
variable (s : State)

theorem State.setReg_frame (x : Nibble) (v : Byte) : Frame [x] [] s (s.setReg x v) where
  config := rfl
  status := rfl
  rnd := rfl
  reg r hr := s.reg_setReg_other (fun h => hr (List.mem_singleton.mpr h)) v
  part p _ := by cases p <;> rfl

theorem State.setPc_frame (v : Word) : Frame [] [] s (s.setPc v) where
  config := rfl
  status := rfl
  rnd := rfl
  reg _ _ := rfl
  part p _ := by cases p <;> rfl

theorem State.advance_frame (n : Nat) : Frame [] [] s (s.advance n) := s.setPc_frame _

theorem State.skipIf_frame (c : Bool) : Frame [] [] s (s.skipIf c) := s.advance_frame _

theorem State.setI_frame (v : Word) : Frame [] [.addr] s (s.setI v) := .of_part .addr rfl rfl rfl rfl fun q hq => by
  cases q with
  | addr => exact absurd rfl hq
  | _ => rfl

theorem State.bumpI_frame (x : Nibble) : Frame [] [.addr] s (s.bumpI x) := s.setI_frame _

theorem State.setDT_frame (v : Byte) : Frame [] [.delay] s (s.setDT v) := .of_part .delay rfl rfl rfl rfl fun q hq => by
  cases q with
  | delay => exact absurd rfl hq
  | _ => rfl

theorem State.setST_frame (v : Byte) : Frame [] [.sound] s (s.setST v) := .of_part .sound rfl rfl rfl rfl fun q hq => by
  cases q with
  | sound => exact absurd rfl hq
  | _ => rfl

theorem State.setMem_frame (m : Memory) : Frame [] [.memory] s (s.setMem m) := .of_part .memory rfl rfl rfl rfl fun q hq => by
  cases q with
  | memory => exact absurd rfl hq
  | _ => rfl

theorem State.setDisp_frame (d : Bitmap) : Frame [] [.display] s (s.setDisp d) := .of_part .display rfl rfl rfl rfl fun q hq => by
  cases q with
  | display => exact absurd rfl hq
  | _ => rfl

theorem State.setRedraw_frame (b : Bool) : Frame [] [.redraw] s (s.setRedraw b) := .of_part .redraw rfl rfl rfl rfl fun q hq => by
  cases q with
  | redraw => exact absurd rfl hq
  | _ => rfl

theorem State.setKey_frame (k : Nibble) (v : Byte) : Frame [] [.keys] s (s.setKey k v) :=
  .of_part .keys rfl rfl rfl rfl fun q hq => by
    cases q with
    | keys => exact absurd rfl hq
    | _ => rfl

theorem State.setStack_frame (n : Fin 17) (w : Vector Word 16) : Frame [] [.stack] s (s.setStack n w) :=
  .of_part .stack rfl rfl rfl rfl fun q hq => by
    cases q with
    | stack => exact absurd rfl hq
    | _ => rfl

theorem State.setDraws_frame (n : Nat) : Frame [] [.draws] s (s.setDraws n) := .of_part .draws rfl rfl rfl rfl fun q hq => by
  cases q with
  | draws => exact absurd rfl hq
  | _ => rfl

theorem State.storeBytes_frame (a : Nat) (vs : List Byte) : Frame [] [.memory] s (s.storeBytes a vs) := by
  rw [State.storeBytes_eq_setMem]
  exact s.setMem_frame _

theorem State.consumeKey_frame (k : Nibble) : Frame [] [.keys] s (s.consumeKey k) := by
  unfold State.consumeKey
  cases s.config.awaitKey with
  | none => exact (Frame.refl s).mono (List.nil_subset _) (List.nil_subset _)
  | clearSelected => exact s.setKey_frame k 0

theorem State.writeFlagged_frame (x src : Nibble) (flag op : Byte → Byte → Byte) :
    Frame [x, flagReg] [] s (s.writeFlagged x src flag op) := by
  unfold State.writeFlagged
  cases s.config.vfAliasOrder with
  | sequential => exact ((s.setReg_frame _ _).trans (State.setReg_frame _ _ _)).mono (by simp) (List.nil_subset _)
  | flagLast => exact (s.setReg_frame _ _).trans (State.setReg_frame _ _ _)

/-- The registers of a block load are those up to `X` (R165). -/
theorem mem_blockRegs {x r : Nibble} : r ∈ (List.range (x.toNat + 1)).map (BitVec.ofNat 4) ↔ r.toNat ≤ x.toNat := by
  constructor
  · intro h
    obtain ⟨k, hk, rfl⟩ := List.mem_map.mp h
    rw [List.mem_range] at hk
    simp only [BitVec.toNat_ofNat]
    omega
  · intro h
    exact List.mem_map.mpr ⟨r.toNat, List.mem_range.mpr (by omega), by simp⟩

theorem State.loadRegs_frame (x : Nibble) :
    Frame ((List.range (x.toNat + 1)).map (BitVec.ofNat 4)) [] s (s.loadRegs x) := by
  obtain ⟨V, hV, hr⟩ := s.loadRegs_spec x
  rw [hV]
  exact {
    config := rfl
    status := rfl
    rnd := rfl
    reg := fun r h => (hr r).trans (if_neg fun hle => h (mem_blockRegs.mpr hle))
    part := fun p _ => by cases p <;> rfl }

end

/-! The frame of every instruction. -/

/-- The general registers that the instruction may change, by its rule. -/
def writtenRegs : Instr → List Nibble
  | .ldImm x _ | .addImm x _ | .ldReg x _ | .orReg x _ | .andReg x _ | .xorReg x _ | .rnd x _ | .ldVxDt x | .ldVxK x => [x]
  | .addReg x _ | .sub x _ | .subn x _ | .shr x _ | .shl x _ => [x, flagReg]
  | .drw _ _ _ | .addI _ => [flagReg]
  | .ldVxMem x => (List.range (x.toNat + 1)).map (BitVec.ofNat 4)
  | .cls | .ret | .jp _ | .call _ | .seImm _ _ | .sneImm _ _ | .seReg _ _ | .sneReg _ _ | .ldI _ | .jpV0 _ | .skp _ | .sknp _
  | .ldDtVx _ | .ldStVx _ | .ldF _ | .ldB _ | .ldMemVx _ => []

/-- The other parts of the state that the instruction may change, by its rule. -/
def writtenParts : Instr → List Part
  | .cls | .drw _ _ _ => [.display, .redraw]
  | .ret | .call _ => [.stack]
  | .rnd _ _ => [.draws]
  | .ldVxK _ => [.keys]
  | .ldDtVx _ => [.delay]
  | .ldStVx _ => [.sound]
  | .ldI _ | .addI _ | .ldF _ | .ldVxMem _ => [.addr]
  | .ldB _ => [.memory]
  | .ldMemVx _ => [.memory, .addr]
  | .jp _ | .jpV0 _ | .seImm _ _ | .sneImm _ _ | .seReg _ _ | .sneReg _ _ | .skp _ | .sknp _ => []
  | .ldImm _ _ | .addImm _ _ | .ldReg _ _ | .orReg _ _ | .andReg _ _ | .xorReg _ _ | .ldVxDt _ => []
  | .addReg _ _ | .sub _ _ | .subn _ _ | .shr _ _ | .shl _ _ => []

section
variable {s t : State}

/-- `RET` completes on a pop, two bytes past the popped address (R121). -/
theorem execRet_next : execRet s = .next t ↔ ∃ a u, s.pop = some (a, u) ∧ u.setPc (a + 2) = t := by
  unfold execRet
  cases s.pop with
  | none => simp [raise]
  | some p => simp [Prod.ext_iff]

/-- `CALL` completes on a push of its own address (R123). -/
theorem execCall_next {nnn : Addr12} : execCall nnn s = .next t ↔ ∃ u, s.push s.pc = some u ∧ u.setPc (addrOf nnn) = t := by
  unfold execCall
  cases s.push s.pc <;> simp [raise]

/-- `SKP` completes on a key index of 0 to 15 (R181). -/
theorem execSkp_next {x : Nibble} : execSkp x s = .next t ↔ ∃ down, s.keyPressed (s.reg x) = some down ∧ s.skipIf down = t := by
  unfold execSkp
  cases s.keyPressed (s.reg x) <;> simp [raise]

/-- `SKNP` completes on a key index of 0 to 15 (R182). -/
theorem execSknp_next {x : Nibble} :
    execSknp x s = .next t ↔ ∃ down, s.keyPressed (s.reg x) = some down ∧ s.skipIf (!down) = t := by
  unfold execSknp
  cases s.keyPressed (s.reg x) <;> simp [raise]

/-- The two answers of `LD Vx, K` (R184). -/
theorem execLdVxK_next {x : Nibble} : execLdVxK x s = .next t ↔
    (s.scanKeys = none ∧ s = t) ∨
      ∃ k, s.scanKeys = some k ∧ ((s.setReg x (k.setWidth 8)).consumeKey k).advance 2 = t := by
  unfold execLdVxK
  cases s.scanKeys <;> simp

/-- An instruction that completes changes only `pc` and the registers and parts listed for it. -/
theorem exec_frame {i : Instr} (h : exec i s = .next t) : Frame (writtenRegs i) (writtenParts i) s t := by
  cases i with
  | cls => cases h; exact ((s.setDisp_frame _).trans (State.setRedraw_frame _ _)).trans (State.advance_frame _ _)
  | ret =>
    obtain ⟨a, u, hpop, rfl⟩ := execRet_next.mp h
    obtain ⟨-, -, rfl⟩ := State.pop_some.mp hpop
    exact (s.setStack_frame _ _).trans (State.setPc_frame _ _)
  | call nnn =>
    obtain ⟨u, hpush, rfl⟩ := execCall_next.mp h
    obtain ⟨-, rfl⟩ := State.push_some.mp hpush
    exact (s.setStack_frame _ _).trans (State.setPc_frame _ _)
  | jp nnn | jpV0 nnn => cases h; exact s.setPc_frame _
  | seImm x v | sneImm x v | seReg x v | sneReg x v => cases h; exact s.skipIf_frame _
  | skp x => obtain ⟨down, -, rfl⟩ := execSkp_next.mp h; exact s.skipIf_frame _
  | sknp x => obtain ⟨down, -, rfl⟩ := execSknp_next.mp h; exact s.skipIf_frame _
  | ldImm x v | addImm x v | ldReg x v | orReg x v | andReg x v | xorReg x v | ldVxDt x =>
    cases h; exact (s.setReg_frame _ _).trans (State.advance_frame _ _)
  | addReg x y | sub x y | subn x y | shr x y | shl x y =>
    cases h; exact (s.writeFlagged_frame _ _ _ _).trans (State.advance_frame _ _)
  | ldI v | ldF v => cases h; exact (s.setI_frame _).trans (State.advance_frame _ _)
  | addI x => cases h; exact ((s.setI_frame _).trans (State.setReg_frame _ _ _)).trans (State.advance_frame _ _)
  | rnd x nn => cases h; exact ((s.setReg_frame _ _).trans (State.setDraws_frame _ _)).trans (State.advance_frame _ _)
  | drw x y n =>
    obtain ⟨-, rfl⟩ := checked_next.mp h
    exact (((s.setDisp_frame _).trans (State.setReg_frame _ _ _)).trans (State.setRedraw_frame _ _)).trans
      (State.advance_frame _ _)
  | ldVxK x =>
    obtain ⟨-, rfl⟩ | ⟨k, -, rfl⟩ := execLdVxK_next.mp h
    · exact (Frame.refl s).mono (List.nil_subset _) (List.nil_subset _)
    · exact ((s.setReg_frame _ _).trans (State.consumeKey_frame _ _)).trans (State.advance_frame _ _)
  | ldDtVx x => cases h; exact (s.setDT_frame _).trans (State.advance_frame _ _)
  | ldStVx x => cases h; exact (s.setST_frame _).trans (State.advance_frame _ _)
  | ldB x =>
    obtain ⟨-, rfl⟩ := checked_next.mp h
    exact (s.storeBytes_frame _ _).trans (State.advance_frame _ _)
  | ldMemVx x =>
    obtain ⟨-, rfl⟩ := checked_next.mp h
    exact ((s.storeBytes_frame _ _).trans (State.bumpI_frame _ _)).trans (State.advance_frame _ _)
  | ldVxMem x =>
    obtain ⟨-, rfl⟩ := checked_next.mp h
    have hf := ((s.loadRegs_frame x).trans (State.bumpI_frame _ x)).trans (State.advance_frame _ 2)
    rwa [List.append_nil, List.append_nil] at hf

/-- A part that reads differently after an instruction is one that it writes. -/
theorem mem_writtenParts_of_exec {i : Instr} (h : exec i s = .next t) {p : Part} (hne : ¬p.Same s t) : p ∈ writtenParts i := by
  by_contra hp
  exact hne (((exec_frame h).part p hp).same (exec_frame h).config)

end

/-! Which instructions write each part. -/

section
variable {i : Instr}

theorem addr_mem_writtenParts : Part.addr ∈ writtenParts i ↔
    (∃ nnn, i = .ldI nnn) ∨ ∃ x, i ∈ [Instr.addI x, .ldF x, .ldMemVx x, .ldVxMem x] := by
  cases i <;> simp [writtenParts]

theorem stack_mem_writtenParts : Part.stack ∈ writtenParts i ↔ i = .ret ∨ ∃ nnn, i = .call nnn := by
  cases i <;> simp [writtenParts]

theorem delay_mem_writtenParts : Part.delay ∈ writtenParts i ↔ ∃ x, i = .ldDtVx x := by
  cases i <;> simp [writtenParts]

theorem sound_mem_writtenParts : Part.sound ∈ writtenParts i ↔ ∃ x, i = .ldStVx x := by
  cases i <;> simp [writtenParts]

theorem memory_mem_writtenParts : Part.memory ∈ writtenParts i ↔ ∃ x, i = .ldB x ∨ i = .ldMemVx x := by
  cases i <;> simp [writtenParts]

theorem display_mem_writtenParts : Part.display ∈ writtenParts i ↔ i = .cls ∨ ∃ x y n, i = .drw x y n := by
  cases i <;> simp [writtenParts]

theorem keys_mem_writtenParts : Part.keys ∈ writtenParts i ↔ ∃ x, i = .ldVxK x := by
  cases i <;> simp [writtenParts]

theorem redraw_mem_writtenParts : Part.redraw ∈ writtenParts i ↔ i = .cls ∨ ∃ x y n, i = .drw x y n := by
  cases i <;> simp [writtenParts]

theorem beep_notMem_writtenParts : Part.beep ∉ writtenParts i := by
  cases i <;> simp [writtenParts]

theorem draws_mem_writtenParts : Part.draws ∈ writtenParts i ↔ ∃ x nn, i = .rnd x nn := by
  cases i <;> simp [writtenParts]

/-- The instructions that may change VF: those that write it as a flag, and those that name it as their destination (R21). -/
theorem flagReg_mem_writtenRegs (h : flagReg ∈ writtenRegs i) :
    (∃ x y, i ∈ [Instr.addReg x y, .sub x y, .subn x y, .shr x y, .shl x y]) ∨ (∃ x y n, i = .drw x y n) ∨ (∃ x, i = .addI x) ∨
    (∃ nn, i ∈ [Instr.ldImm 0xF nn, .addImm 0xF nn, .rnd 0xF nn]) ∨
    (∃ y, i ∈ [Instr.ldReg 0xF y, .orReg 0xF y, .andReg 0xF y, .xorReg 0xF y]) ∨
    i ∈ [Instr.ldVxDt 0xF, .ldVxK 0xF, .ldVxMem 0xF] := by
  cases i with
  | ldVxMem x =>
    have hle : flagReg.toNat ≤ x.toNat := mem_blockRegs.mp h
    have hx : x = 0xF := by unfold flagReg at hle; bv_omega
    simp [hx]
  | _ => simp_all [writtenRegs, flagReg]

end

end Sys2Proof.Machine
end

section
/-! What an instruction leaves in memory, on the display and in the key cells, and the faults it raises; from these the invariant of the
block, over every step and every host action (R33, R34, R35, R50, R54, R200). -/

namespace Sys2Proof.Machine

/-! What the instruction leaves in the parts that the invariant speaks of. -/

section
variable {s t : State} {i : Instr}

/-- A checked store lies inside the address space and, under RESERVED_WRITE_POLICY = fault, above the reserved region (R53, R54). -/
theorem memCheck_write_none {cfg : Config} {a n : Nat} (hn : 0 < n) (h : memCheck cfg .write a n = none) :
    a + n ≤ memSize ∧ (cfg.reservedWrite = .fault → reservedTop < a) := by
  rw [memCheck_none] at h
  have hlast := (addressFault_none.mp (h (n - 1) (by omega))).1
  have hfirst := (addressFault_none.mp (h 0 hn)).2
  refine ⟨by omega, fun hp => ?_⟩
  by_contra hle
  exact hfirst ⟨rfl, by omega, hp⟩

/-- An instruction leaves memory, or stores some bytes at `I` where a store may go. -/
theorem exec_mem (h : exec i s = .next t) : t.mem = s.mem ∨ ∃ vs, s.base + vs.length ≤ memSize ∧
    (s.config.reservedWrite = .fault → reservedTop < s.base) ∧ t.mem = (s.storeBytes s.base vs).mem := by
  by_cases hp : Part.memory ∈ writtenParts i
  · right
    obtain ⟨x, rfl | rfl⟩ := memory_mem_writtenParts.mp hp
    · obtain ⟨hc, rfl⟩ := checked_next.mp h
      obtain ⟨hend, hres⟩ := memCheck_write_none (by omega) hc
      exact ⟨bcdDigits (s.reg x), hend, hres, rfl⟩
    · obtain ⟨hc, rfl⟩ := checked_next.mp h
      obtain ⟨hend, hres⟩ := memCheck_write_none (by omega) hc
      exact ⟨s.regsUpTo x, by rwa [State.regsUpTo_length], hres, rfl⟩
  · exact .inl ((exec_frame h).part _ hp)

theorem exec_memory_wf (hm : Memory.wf s.config s.mem = true) (h : exec i s = .next t) : Memory.wf t.config t.mem = true := by
  rw [(exec_frame h).config]
  obtain heq | ⟨vs, hend, -, heq⟩ := exec_mem h
  · rwa [heq]
  · rw [heq]; exact State.storeBytes_wf hm hend

/-- Bytes stored above the reserved region leave it as it was (R54). -/
theorem State.storeBytes_reserved (hm : Memory.wf s.config s.mem = true) {a : Nat} {vs : List Byte}
    (hend : a + vs.length ≤ memSize) (hres : reservedTop < a) {b : Nat} (hb : b ≤ reservedTop) :
    Memory.read s.config (s.storeBytes a vs).mem b = s.byteAt b := by
  have hout := State.byteAt_storeBytes_outside hm hend (a := b) (.inl (by omega))
  rwa [State.byteAt, State.storeBytes_config] at hout

/-- Under RESERVED_WRITE_POLICY = fault no instruction changes a byte of the reserved region (R54, D9). -/
theorem exec_reserved (hm : Memory.wf s.config s.mem = true) (hp : s.config.reservedWrite = .fault) (h : exec i s = .next t)
    {a : Nat} (ha : a ≤ reservedTop) : t.byteAt a = s.byteAt a := by
  rw [State.byteAt, (exec_frame h).config]
  obtain heq | ⟨vs, hend, hres, heq⟩ := exec_mem h
  · rw [heq]; rfl
  · rw [heq]; exact State.storeBytes_reserved hm hend (hres hp) ha

theorem exec_display_wf (hd : Bitmap.wf s.disp = true) (h : exec i s = .next t) : Bitmap.wf t.disp = true := by
  by_cases hp : Part.display ∈ writtenParts i
  · obtain rfl | ⟨x, y, n, rfl⟩ := display_mem_writtenParts.mp hp
    · cases h; exact Bitmap.wf_nil
    · obtain ⟨-, rfl⟩ := checked_next.mp h
      exact (State.draw_spec hd x y n).1
  · rw [show t.disp = s.disp from (exec_frame h).part _ hp]; exact hd

/-- Both display instructions set `redraw`, and no other instruction writes it (R36). -/
theorem exec_redraw (h : exec i s = .next t) : t.redraw = s.redraw ∨ t.redraw = true := by
  by_cases hp : Part.redraw ∈ writtenParts i
  · right
    obtain rfl | ⟨x, y, n, rfl⟩ := redraw_mem_writtenParts.mp hp
    · cases h; rfl
    · obtain ⟨-, rfl⟩ := checked_next.mp h; rfl
  · exact .inl ((exec_frame h).part _ hp)

/-- The consumed key reads 0 under AWAIT_KEY_CONSUME = clear_selected, and every other key as before (R184, D20). -/
theorem State.keyAt_consumeKey (s : State) (k r : Nibble) :
    (s.consumeKey k).keyAt r = if s.config.awaitKey = .clearSelected ∧ r = k then 0 else s.keyAt r := by
  unfold State.consumeKey
  cases s.config.awaitKey with
  | none => simp
  | clearSelected => simp [State.keyAt_setKey]

/-- An instruction leaves a key cell, or is an `LD Vx, K` that consumes it (R184, D20). -/
theorem exec_keyAt (h : exec i s = .next t) (r : Nibble) : t.keyAt r = s.keyAt r ∨
    (s.config.awaitKey = .clearSelected ∧ (∃ x, i = .ldVxK x) ∧ t.keyAt r = 0) := by
  have hf := exec_frame h
  by_cases hp : Part.keys ∈ writtenParts i
  · obtain ⟨x, rfl⟩ := keys_mem_writtenParts.mp hp
    obtain ⟨-, rfl⟩ | ⟨k, -, rfl⟩ := execLdVxK_next.mp h
    · exact .inl rfl
    · rw [State.keyAt_advance, State.keyAt_consumeKey, State.setReg_config, State.keyAt_setReg]
      split
      · next hck => exact .inr ⟨hck.1, ⟨x, rfl⟩, rfl⟩
      · exact .inl rfl
  · exact .inl ((hf.part _ hp).same hf.config r)

end

/-! The invariant over a step. -/

section
variable {s t : State}

theorem exec_inv {i : Instr} (hs : s.Inv) (h : exec i s = .next t) : t.Inv where
  memory := exec_memory_wf hs.memory h
  display := exec_display_wf hs.display h
  keys k := by
    obtain heq | ⟨-, -, heq⟩ := exec_keyAt h k
    · rw [heq]; exact hs.keys k
    · exact .inl heq
  reserved hp a ha := by
    rw [(exec_frame h).config] at hp ⊢
    rw [exec_reserved hs.memory hp h ha]
    exact hs.reserved hp a ha
  status n := by rw [(exec_frame h).status]; exact hs.status n

theorem State.Inv.advance (hs : s.Inv) (n : Nat) : (s.advance n).Inv :=
  ⟨hs.memory, hs.display, hs.keys, hs.reserved, hs.status⟩

theorem State.Inv.setRnd (hs : s.Inv) (b : Option Byte) : (s.setRnd b).Inv :=
  ⟨hs.memory, hs.display, hs.keys, hs.reserved, hs.status⟩

theorem State.Inv.endStep (hs : s.Inv) : s.endStep.Inv := by
  rw [State.endStep_eq]
  exact ⟨hs.memory, hs.display, hs.keys, hs.reserved, hs.status⟩

/-- A step runs an instruction or `SYS`, then ticks; the invariant passes each of the three. -/
theorem step_inv (hs : s.Inv) (h : step s = .next t) : t.Inv := by
  obtain ⟨-, w, -, ⟨i, u, -, hu, rfl⟩ | ⟨nnn, u, -, hu, rfl⟩⟩ := step_next.mp h
  · exact (exec_inv hs hu).endStep
  · cases hu; exact (hs.advance 2).endStep

end

/-- Settles O57: the invariant passes the instruction's body and the end of the step. -/
theorem everyStepKeepsTheInvariant : Obligations.EveryStepKeepsTheInvariant := by
  unfold Obligations.EveryStepKeepsTheInvariant
  exact fun _ _ => step_inv

/-! Faults. -/

section
variable {s : State} {f : Fault}

theorem addressFault_raises {cfg : Config} {kind : AccessKind} {a : Nat} :
    addressFault cfg kind a = some f ↔ AddressRaises cfg kind a f := addressFault_some

/-- The check of an access raises what the rule says (R53, R54). -/
theorem memCheck_raises {cfg : Config} {kind : AccessKind} {a n : Nat} :
    memCheck cfg kind a n = some f ↔ AccessRaises cfg kind a n f := by
  rw [memCheck_some]
  simp only [AccessRaises, ← addressFault_raises, Option.eq_none_iff_forall_ne_some, ne_eq]

/-- An instruction raises exactly the fault that its rule names (R200, R209). -/
theorem exec_fault {i : Instr} : exec i s = .fault f ↔ OwnFault i s f := by
  cases i with
  | ret =>
    simp only [exec, execRet, OwnFault]
    cases hpop : s.pop with
    | none => simp [raise, State.pop_none.mp hpop, eq_comm]
    | some p =>
      obtain ⟨hpos, -⟩ := State.pop_some.mp hpop
      simp only [reduceCtorEq, false_iff]
      omega
  | call nnn =>
    simp only [exec, execCall, OwnFault]
    cases hpush : s.push s.pc with
    | none => simp [raise, State.push_none.mp hpush, eq_comm]
    | some u =>
      obtain ⟨hlt, -⟩ := State.push_some.mp hpush
      simp only [reduceCtorEq, false_iff]
      omega
  | skp x | sknp x =>
    simp only [exec, execSkp, execSknp, OwnFault]
    cases hkey : s.keyPressed (s.reg x) with
    | none => simp [raise, State.keyPressed_none.mp hkey, eq_comm]
    | some down =>
      have hle : ¬15 < (s.reg x).toNat := fun hlt => by simp [State.keyPressed_none.mpr hlt] at hkey
      simp [hle]
  | drw x y n | ldB x | ldMemVx x | ldVxMem x => exact checked_fault.trans memCheck_raises
  | ldVxK x =>
    simp only [exec, execLdVxK, OwnFault]
    cases s.scanKeys <;> simp
  | _ => exact ⟨nofun, nofun⟩

theorem AccessRaises.ne_programTooLarge {cfg : Config} {kind : AccessKind} {a n : Nat} (h : AccessRaises cfg kind a n f)
    (len : Nat) : f ≠ .programTooLarge len := by
  obtain ⟨k, -, ⟨-, rfl⟩ | ⟨-, -, -, -, rfl⟩, -⟩ := h <;> nofun

theorem OwnFault.ne_programTooLarge {i : Instr} (h : OwnFault i s f) (len : Nat) : f ≠ .programTooLarge len := by
  cases i with
  | drw x y n | ldB x | ldMemVx x | ldVxMem x => exact AccessRaises.ne_programTooLarge h len
  | ret | call nnn | skp x | sknp x => obtain ⟨-, rfl⟩ := h; nofun
  | _ => exact h.elim

theorem State.fetch_ne_programTooLarge (s : State) (len : Nat) : s.fetch ≠ .error (.programTooLarge len) := by
  rw [State.fetch_spec]
  split_ifs <;> simp

/-- A step that answers a fault was halted with it, could not fetch or decode, or ran an instruction that raised it (R90, R209). -/
theorem step_fault : step s = .fault f ↔ s.status = .halted f ∨ s.status = .running ∧ (s.fetch = .error f ∨
    ∃ w, s.fetch = .ok w ∧ ((∃ w' family, decode s.config w = .undecodable w' family ∧ .decodeFailure w' family = f) ∨
      ∃ i, decode s.config w = .instr i ∧ exec i s = .fault f)) := by
  unfold step cycle
  cases hs : s.status with
  | halted g => simp [raise]
  | running =>
    cases hf : s.fetch with
    | error g => simp [raise]
    | ok w =>
      cases hd : decode s.config w with
      | instr i => simp [runDecoded, finish_fault, hd]
      | sys nnn => simp [runDecoded, finish_fault, execSys, hd]
      | undecodable w' family => simp [runDecoded, raise, hd]

/-- A step never answers the load's fault, unless the block was already halted with it (R200). -/
theorem step_fault_ne_programTooLarge (hs : ∀ len, s.status ≠ .halted (.programTooLarge len)) (h : step s = .fault f) (len : Nat) :
    f ≠ .programTooLarge len := by
  obtain hh | ⟨-, he | ⟨w, -, ⟨w', family, -, rfl⟩ | ⟨i, -, hi⟩⟩⟩ := step_fault.mp h
  · rintro rfl; exact hs len hh
  · rintro rfl; exact s.fetch_ne_programTooLarge len he
  · nofun
  · exact (exec_fault.mp hi).ne_programTooLarge len

end

/-! The invariant over the host's actions. -/

section
variable {s : State}

/-- Construction leaves a state that meets the invariant (R230, R232). -/
theorem State.construct_inv (cfg : Config) : (State.construct cfg).Inv where
  memory := Memory.wf_nil cfg
  display := Bitmap.wf_nil
  keys k := .inl (by simp [State.keyAt, State.construct])
  reserved _ _ _ := rfl
  status _ := nofun

/-- A fault that a step may answer halts the block inside the invariant (R95). -/
theorem State.Inv.halt (hs : s.Inv) {f : Fault} (hf : ∀ len, f ≠ .programTooLarge len) : (s.halt f).Inv :=
  ⟨hs.memory, hs.display, hs.keys, hs.reserved, fun len h => hf len (RunStatus.halted.inj h)⟩

/-- The image goes above the reserved region and inside the address space (R231). -/
theorem State.Inv.copyImage (hs : s.Inv) {image : List Byte} (hlen : image.length ≤ progMax) : (s.copyImage image).Inv := by
  have hend : progBase + image.length ≤ memSize := by unfold progMax at hlen; unfold progBase memSize; omega
  unfold State.copyImage
  rw [State.storeBytes_eq_setMem]
  exact {
    memory := State.storeBytes_wf hs.memory hend
    display := hs.display
    keys := hs.keys
    reserved := fun hp a ha => (State.storeBytes_reserved hs.memory hend (by decide) ha).trans (hs.reserved hp a ha)
    status := hs.status }

theorem State.Inv.load (hs : s.Inv) (image : List Byte) : (s.load image).1.Inv := by
  unfold State.load imageWellFormed
  split
  · next hlen => exact hs.copyImage (of_decide_eq_true hlen)
  · exact hs

/-- The state after a step with the host's random byte, completed or faulted (R90, R95). -/
theorem State.Inv.afterStep (hs : s.Inv) (b : Byte) : (stateAfter s (stepWith b s)).Inv := by
  have hb := hs.setRnd (some b)
  unfold stepWith
  cases h : step (s.setRnd (some b)) with
  | next t => exact step_inv hb h
  | fault f => exact hs.halt (step_fault_ne_programTooLarge hb.status h)
  | refused r => exact hs

theorem keyValueWellFormed_iff {v : Byte} : keyValueWellFormed v = true ↔ v = 0 ∨ v = 1 := by simp [keyValueWellFormed]

theorem State.Inv.setKey (hs : s.Inv) (k : Nibble) {v : Byte} (hv : v = 0 ∨ v = 1) : (s.setKey k v).Inv where
  memory := hs.memory
  display := hs.display
  keys r := by
    rw [State.keyAt_setKey]
    split
    · exact hv
    · exact hs.keys r
  reserved := hs.reserved
  status := hs.status

end

/-- Settles O58, action by action. -/
theorem everyHostActionKeepsTheInvariant : Obligations.EveryHostActionKeepsTheInvariant := by
  unfold Obligations.EveryHostActionKeepsTheInvariant
  intro p q a r hp hact
  have hp : p.block.Inv := hp
  unfold Session.act at hact
  cases a with
  | construct => cases hact; exact State.construct_inv _
  | load image =>
    dsimp only at hact
    split at hact
    · cases hact; exact hp.load image
    · cases hact
  | step b =>
    dsimp only at hact
    split at hact
    · cases hact
    · cases hact; exact hp.afterStep b
  | writeKey k v =>
    dsimp only at hact
    split at hact
    · next hv => cases hact; exact hp.setKey k (keyValueWellFormed_iff.mp hv)
    · cases hact
  | clearRedraw | clearBeep => cases hact; exact ⟨hp.memory, hp.display, hp.keys, hp.reserved, hp.status⟩

end Sys2Proof.Machine
end

section
/-! Who writes VF, `I` and every other part of the state; that only `RND` sees the random byte; the host's key writes; and the state
after construction (R21, R27 to R41, R54, R221, R232). -/

namespace Sys2Proof.Machine

/-- Settles O46: a changed VF is a written register. -/
theorem onlyTheListedInstructionsWriteVF : Obligations.OnlyTheListedInstructionsWriteVF := by
  unfold Obligations.OnlyTheListedInstructionsWriteVF
  intro i s t h hne
  exact flagReg_mem_writtenRegs (not_imp_comm.mp ((exec_frame h).reg flagReg) hne)

/-- Settles O47: a changed `I` is a written part. -/
theorem onlyTheListedInstructionsWriteI : Obligations.OnlyTheListedInstructionsWriteI := by
  unfold Obligations.OnlyTheListedInstructionsWriteI
  exact fun i s t h hne => addr_mem_writtenParts.mp (mem_writtenParts_of_exec h hne)

/-- Settles O48: a changed part is a written one; `redraw` and the keys have lemmas that say what is written. -/
theorem eachPartHasItsOwnWriters : Obligations.EachPartHasItsOwnWriters := by
  unfold Obligations.EachPartHasItsOwnWriters
  intro i s t h
  have hf := exec_frame h
  refine ⟨?stack, fun hne => delay_mem_writtenParts.mp (mem_writtenParts_of_exec h hne),
    fun hne => sound_mem_writtenParts.mp (mem_writtenParts_of_exec h hne), ?display, ?redrawStaysSet, ?memory, ?keys,
    fun hne => draws_mem_writtenParts.mp (mem_writtenParts_of_exec h hne), hf.part .beep beep_notMem_writtenParts, hf.config,
    hf.status, hf.rnd⟩
  case stack =>
    exact fun hne => stack_mem_writtenParts.mp
      (mem_writtenParts_of_exec h fun ⟨hsp, hstack⟩ => hne.elim (· hsp) (· hstack))
  case display =>
    rintro (⟨o, hne⟩ | hne)
    · exact display_mem_writtenParts.mp (mem_writtenParts_of_exec h fun hsame => hne (hsame o))
    · exact redraw_mem_writtenParts.mp (mem_writtenParts_of_exec h hne)
  case redrawStaysSet =>
    intro hset
    obtain heq | heq := exec_redraw h
    · exact heq.trans hset
    · exact heq
  case memory =>
    rintro ⟨a, hne⟩
    exact memory_mem_writtenParts.mp (mem_writtenParts_of_exec h fun hsame => hne (hsame a))
  case keys =>
    rintro ⟨k, hne⟩
    obtain heq | ⟨hconsume, hi, -⟩ := exec_keyAt h k
    · exact absurd heq hne
    · exact ⟨hconsume, hi⟩

theorem State.byteAt_endStep (s : State) (a : Nat) : s.endStep.byteAt a = s.byteAt a := by
  rw [State.endStep_eq]; rfl

/-- Settles O49: an instruction leaves the reserved region, `SYS` and the end of the step all of memory. -/
theorem reservedRegionIsNeverWritten : Obligations.ReservedRegionIsNeverWritten := by
  unfold Obligations.ReservedRegionIsNeverWritten
  intro s t hm hp h a ha
  obtain ⟨-, w, -, ⟨i, u, -, hu, rfl⟩ | ⟨nnn, u, -, hu, rfl⟩⟩ := step_next.mp h
  · rw [State.byteAt_endStep]; exact exec_reserved hm hp hu ha
  · cases hu; rw [State.byteAt_endStep, State.byteAt_advance]

/-! The random byte. -/

/-- The state with another random byte and another count of draws. -/
def State.withDraw (b : Option Byte) (n : Nat) (s : State) : State := (s.setRnd b).setDraws n

/-- The answer with its next state, if it has one, changed by `g`. -/
def mapNext (g : State → State) : Result → Result
  | .next t => .next (g t)
  | .fault f => .fault f
  | .refused r => .refused r

section
variable (b : Option Byte) (n : Nat) (s : State)

theorem State.storeBytes_withDraw (a : Nat) (vs : List Byte) :
    (s.withDraw b n).storeBytes a vs = (s.storeBytes a vs).withDraw b n := by
  induction vs generalizing s a with
  | nil => rfl
  | cons v vs ih => exact ih (s.storeByte a v) (a + 1)

theorem State.writeFlagged_withDraw (x src : Nibble) (flag op : Byte → Byte → Byte) :
    (s.withDraw b n).writeFlagged x src flag op = (s.writeFlagged x src flag op).withDraw b n := by
  unfold State.writeFlagged
  rw [show (s.withDraw b n).config = s.config from rfl]
  cases s.config.vfAliasOrder <;> rfl

theorem State.consumeKey_withDraw (k : Nibble) : (s.withDraw b n).consumeKey k = (s.consumeKey k).withDraw b n := by
  unfold State.consumeKey
  rw [show (s.withDraw b n).config = s.config from rfl]
  cases s.config.awaitKey <;> rfl

theorem State.loadRegs_withDraw (x : Nibble) : (s.withDraw b n).loadRegs x = (s.loadRegs x).withDraw b n :=
  List.foldl_hom (State.withDraw b n) fun _ _ => rfl

theorem State.pop_withDraw : (s.withDraw b n).pop = s.pop.map fun p => (p.1, p.2.withDraw b n) := by
  unfold State.pop
  by_cases h : 0 < s.sp.val
  · rw [dif_pos h, dif_pos (show 0 < (s.withDraw b n).sp.val from h)]; rfl
  · rw [dif_neg h, dif_neg (show ¬0 < (s.withDraw b n).sp.val from h)]; rfl

theorem State.push_withDraw (a : Word) : (s.withDraw b n).push a = (s.push a).map (State.withDraw b n) := by
  unfold State.push
  by_cases h : s.sp.val < 16
  · rw [dif_pos h, dif_pos (show (s.withDraw b n).sp.val < 16 from h)]; rfl
  · rw [dif_neg h, dif_neg (show ¬(s.withDraw b n).sp.val < 16 from h)]; rfl

theorem checked_withDraw {c : Option Fault} {t u : State} (h : u = t.withDraw b n) :
    checked c u = mapNext (State.withDraw b n) (checked c t) := by
  subst h
  cases c <;> rfl

/-- Every instruction but `RND` does the same under another random byte and another count of draws (R41, R180). -/
theorem exec_withDraw {i : Instr} (hi : ∀ x nn, i ≠ .rnd x nn) :
    exec i (s.withDraw b n) = mapNext (State.withDraw b n) (exec i s) := by
  cases i with
  | rnd x nn => exact absurd rfl (hi x nn)
  | ret =>
    simp only [exec, execRet, State.pop_withDraw]
    cases s.pop <;> rfl
  | call nnn =>
    simp only [exec, execCall, State.push_withDraw, show (s.withDraw b n).pc = s.pc from rfl]
    cases s.push s.pc <;> rfl
  | skp x | sknp x =>
    simp only [exec, execSkp, execSknp, show (s.withDraw b n).keyPressed ((s.withDraw b n).reg x) = s.keyPressed (s.reg x) from rfl]
    cases s.keyPressed (s.reg x) <;> rfl
  | addReg x y | sub x y | subn x y | shr x y | shl x y =>
    exact congrArg (fun u => Host.Outcome.next (State.advance u 2)) (s.writeFlagged_withDraw b n x _ _ _)
  | ldVxK x =>
    simp only [exec, execLdVxK, show (s.withDraw b n).scanKeys = s.scanKeys from rfl]
    cases s.scanKeys with
    | none => rfl
    | some k =>
      exact congrArg (fun u => Host.Outcome.next (State.advance u 2)) ((s.setReg x (k.setWidth 8)).consumeKey_withDraw b n k)
  | drw x y h => exact checked_withDraw b n rfl
  | ldB x => exact checked_withDraw b n (congrArg (fun u => State.advance u 2) (s.storeBytes_withDraw b n _ _))
  | ldMemVx x =>
    exact checked_withDraw b n (congrArg (fun u => (State.bumpI u x).advance 2) (s.storeBytes_withDraw b n _ _))
  | ldVxMem x => exact checked_withDraw b n (congrArg (fun u => (State.bumpI u x).advance 2) (s.loadRegs_withDraw b n x))
  | _ => rfl

end

/-- Settles O50, for a next state and for a fault. -/
theorem onlyRndDependsOnTheRandomByte : Obligations.OnlyRndDependsOnTheRandomByte := by
  unfold Obligations.OnlyRndDependsOnTheRandomByte
  intro i s b n hi
  have hcomm := exec_withDraw b n s hi
  exact ⟨fun t h => by rw [h] at hcomm; exact hcomm, fun f h => by rw [h] at hcomm; exact hcomm⟩

/-! The host's key writes. -/

theorem keyValueWellFormed_iff_toNat {v : Byte} : keyValueWellFormed v = true ↔ v.toNat ≤ 1 := by
  rw [keyValueWellFormed_iff]
  bv_omega

/-- Settles O55. -/
theorem hostWritesKeysZeroOrOne : Obligations.HostWritesKeysZeroOrOne := by
  unfold Obligations.HostWritesKeysZeroOrOne
  intro p k v
  constructor
  · intro hv
    refine ⟨⟨p.phase, p.block.setKey k v⟩, if_pos (keyValueWellFormed_iff_toNat.mpr hv), ?_, fun j hj => ?_, rfl,
      (p.block.setKey_frame k v).changesOnly⟩
    · rw [State.keyAt_setKey, if_pos rfl]
    · rw [State.keyAt_setKey, if_neg hj]
  · intro hv
    exact if_neg fun hwf => absurd (keyValueWellFormed_iff_toNat.mp hwf) (by omega)

/-! Construction. -/

section
variable (cfg : Config)

@[simp] theorem State.construct_reg (r : Nibble) : (State.construct cfg).reg r = 0 := by simp [State.reg, State.construct]

@[simp] theorem State.construct_keyAt (k : Nibble) : (State.construct cfg).keyAt k = 0 := by simp [State.keyAt, State.construct]

@[simp] theorem State.construct_byteAt (a : Nat) : (State.construct cfg).byteAt a = Memory.unlisted cfg a := rfl

end

/-- Settles O51, row by row of R232. -/
theorem constructionLeavesTheResetTable : Obligations.ConstructionLeavesTheResetTable := by
  unfold Obligations.ConstructionLeavesTheResetTable
  intro cfg s
  refine ⟨State.construct_reg cfg, rfl, rfl, rfl, fun k => ?_, fun a => ?_, fun a ha _ => ?_, fun _ => rfl, rfl, rfl, rfl, rfl⟩
  · simp [s, State.construct]
  · exact dif_pos a.isLt
  · exact dif_neg (by omega)

/-- Settles O52. -/
theorem constructionRunsWithNoKeyPressed : Obligations.ConstructionRunsWithNoKeyPressed := by
  unfold Obligations.ConstructionRunsWithNoKeyPressed
  exact ⟨fun cfg => ⟨rfl, State.construct_keyAt cfg, rfl⟩, rfl⟩

end Sys2Proof.Machine
end

section
/-! Memory: the exact condition of an access check, what a block store leaves for a later fetch, and the canonical form as the one list
for its bytes (R50 to R54, R59, R61, R63, R208, R235). -/

namespace Sys2Proof.Machine

/-- An address passes when it exists and, for a write under RESERVED_WRITE_POLICY = fault, lies above the reserved region (R53, R54). -/
theorem addressFault_passes {cfg : Config} {kind : AccessKind} {a : Nat} : addressFault cfg kind a = none ↔
    a < 0x1000 ∧ (kind = .write → cfg.reservedWrite = .fault → 0x1FF < a) := by
  refine addressFault_none.trans (and_congr_right' ⟨fun hpass hw hp => ?_, fun habove ⟨hw, hle, hp⟩ => ?_⟩)
  · exact Nat.not_le.mp fun hle => hpass ⟨hw, hle, hp⟩
  · exact Nat.not_le.mpr (habove hw hp) hle

/-- Settles O13: the check stops at the first address that fails, and passes when none does. -/
theorem memCheckRaisesItsLowestFailingAddress : Obligations.MemCheckRaisesItsLowestFailingAddress := by
  unfold Obligations.MemCheckRaisesItsLowestFailingAddress
  exact fun cfg kind a n => ⟨fun f => memCheck_raises, memCheck_none.trans (forall₂_congr fun k _ => addressFault_passes)⟩

section
variable {s u : State}

/-- After a block store the byte at `I + r` is register `r`, for every register of the block (R164). -/
theorem byteAt_of_execLdMemVx {x : Nibble} (hm : Memory.wf s.config s.mem = true) (h : exec (.ldMemVx x) s = .next u) {r : Nibble}
    (hr : r.toNat ≤ x.toNat) : u.byteAt (s.I.toNat + r.toNat) = s.reg r := by
  obtain ⟨hc, rfl⟩ := checked_next.mp h
  have hend : s.base + (s.regsUpTo x).length ≤ memSize := by
    rw [State.regsUpTo_length]
    exact (memCheck_write_none (by omega) hc).1
  calc (s.storeBytes s.base (s.regsUpTo x)).byteAt (s.base + r.toNat)
      = (s.regsUpTo x).getD r.toNat (s.byteAt (s.base + r.toNat)) := by
        rw [State.byteAt_storeBytes hm hend, if_pos (Nat.le_add_right _ _), Nat.add_sub_cancel_left]
    _ = s.reg r := s.regsUpTo_getD x r hr _

/-- Where fetch succeeds it reads the two bytes at `pc`, the high byte first (R52, R91). -/
theorem State.fetch_of_fetchable (hf : Fetchable s) :
    s.fetch = .ok (wordOfBytes (s.byteAt s.pc.toNat) (s.byteAt (s.pc.toNat + 1))) := by
  obtain ⟨heven, hrange⟩ := hf
  have haligned : ¬(s.pc.toNat % 2 = 1 ∧ s.config.oddPc = .fault) := fun ⟨hodd, hp⟩ => by
    have := heven hp
    omega
  rw [State.fetch_spec, if_neg haligned, if_neg (by unfold memSize; omega), if_neg (by unfold memSize; omega)]

end

/-- Settles O40: fetch reads the two bytes where registers `k` and `k + 1` were stored. -/
theorem storedBytesAreFetched : Obligations.StoredBytesAreFetched := by
  unfold Obligations.StoredBytesAreFetched
  intro x s u v k hm h hk hbytes hpc hf
  have hstored : ∀ j ≤ x.toNat, v.byteAt (s.I.toNat + j) = s.reg (BitVec.ofNat 4 j) := fun j hj => by
    have htoNat : (BitVec.ofNat 4 j).toNat = j := Nat.mod_eq_of_lt (by omega)
    have hbyte := byteAt_of_execLdMemVx hm h (r := BitVec.ofNat 4 j) (by rwa [htoNat])
    rwa [htoNat, ← hbytes] at hbyte
  refine ⟨_, v.fetch_of_fetchable hf, ?_⟩
  rw [wordOfBytes_toNat, hpc, Nat.add_assoc, hstored k (by omega), hstored (k + 1) hk]

/-- An address outside the space is never listed in a canonical memory (R50). -/
theorem Memory.read_outside {cfg : Config} {m : Memory} (hm : Memory.wf cfg m = true) {a : Nat} (ha : memSize ≤ a) :
    Memory.read cfg m a = Memory.unlisted cfg a := cellRead_above hm ha

/-- Settles O59: equal bytes in the space are equal bytes everywhere, and the form has one list for them. -/
theorem canonicalMemoriesWithEqualBytesAreEqual : Obligations.CanonicalMemoriesWithEqualBytesAreEqual := by
  unfold Obligations.CanonicalMemoriesWithEqualBytesAreEqual
  intro cfg m m' hm hm' heq
  refine cells_ext hm hm' fun a => ?_
  obtain ha | ha := Nat.lt_or_ge a memSize
  · exact heq a ha
  · exact (Memory.read_outside hm ha).trans (Memory.read_outside hm' ha).symm

end Sys2Proof.Machine
end

section
/-! Encoding and decoding: the round trips, the opcode table, the undecodable words, STRICT_DECODE, and the `SYS` words (R71 to R79). -/

namespace Sys2Proof

/-- Settles O1: the fields of the encoder's word select the family, and in it the low nibble or low byte, of the instruction. -/
theorem decodeOfEncodeIsTheInstruction : Obligations.DecodeOfEncodeIsTheInstruction := by
  unfold Obligations.DecodeOfEncodeIsTheInstruction
  intro cfg i
  cases i with
  | cls | ret => simp [encode, decode_family_0, decodeFamily0]
  | jp _ | call _ | ldI _ | jpV0 _ =>
    simp [encode, decode_family_1, decode_family_2, decode_family_A, decode_family_B]
  | seImm _ _ | sneImm _ _ | ldImm _ _ | addImm _ _ | rnd _ _ =>
    simp [encode, decode_family_3, decode_family_4, decode_family_6, decode_family_7, decode_family_C]
  | drw _ _ _ => simp [encode, decode_family_D]
  | seReg _ _ | sneReg _ _ => simp [encode, decode_family_5, decode_family_9]
  | ldReg _ _ | orReg _ _ | andReg _ _ | xorReg _ _ | addReg _ _ | sub _ _ | subn _ _ | shr _ _ | shl _ _ =>
    simp [encode, decode_family_8, decodeFamily8]
  | skp _ | sknp _ => simp [encode, decode_family_E, decodeFamilyE]
  | ldVxDt _ | ldVxK _ | ldDtVx _ | ldStVx _ | addI _ | ldF _ | ldB _ | ldMemVx _ | ldVxMem _ =>
    simp [encode, decode_family_F, decodeFamilyF]

/-! The fields of a word as numbers, and the word that they spell. -/

section
variable {cfg : Config} {w : Word} {i : Instr}

theorem fieldF_eq_iff {f : Nibble} : fieldF w = f ↔ w.toNat / 4096 = f.toNat := by
  rw [← BitVec.toNat_inj, fieldF_toNat]; omega

theorem fieldX_eq_iff {x : Nibble} : fieldX w = x ↔ w.toNat / 256 % 16 = x.toNat := by rw [← BitVec.toNat_inj, fieldX_toNat]

theorem fieldN_eq_iff {n : Nibble} : fieldN w = n ↔ w.toNat % 16 = n.toNat := by rw [← BitVec.toNat_inj, fieldN_toNat]

theorem fieldNN_eq_iff {nn : Byte} : fieldNN w = nn ↔ w.toNat % 256 = nn.toNat := by rw [← BitVec.toNat_inj, fieldNN_toNat]

theorem fieldNNN_eq_ofNat (w : Word) : fieldNNN w = BitVec.ofNat 12 w.toNat := by
  apply BitVec.eq_of_toNat_eq
  rw [fieldNNN_toNat, BitVec.toNat_ofNat]

theorem wordNNN_eq {f : Nibble} (hf : fieldF w = f) : wordNNN f (fieldNNN w) = w := hf ▸ wordNNN_fields w

theorem wordXNN_eq {f : Nibble} {nn : Byte} (hf : fieldF w = f) (hnn : fieldNN w = nn) : wordXNN f (fieldX w) nn = w :=
  hf ▸ hnn ▸ wordXNN_fields w

theorem wordXYN_eq {f n : Nibble} (hf : fieldF w = f) (hn : fieldN w = n) : wordXYN f (fieldX w) (fieldY w) n = w :=
  hf ▸ hn ▸ wordXYN_fields w

/-! What decode answers for any word. -/

/-- The low nibbles to which family 0x8 gives no instruction (R76). -/
def unassigned8 : List Nibble := [0x8#4, 0x9#4, 0xA#4, 0xB#4, 0xC#4, 0xD#4, 0xF#4]

/-- The low bytes to which family 0xE gives an instruction (R75). -/
def assignedE : List Byte := [0x9E#8, 0xA1#8]

/-- The low bytes to which family 0xF gives an instruction (R75). -/
def assignedF : List Byte := [0x07#8, 0x0A#8, 0x15#8, 0x18#8, 0x1E#8, 0x29#8, 0x33#8, 0x55#8, 0x65#8]

/-- The words that decode rejects under every configuration: the lists of R76 but that of family 0x0. -/
def Unassigned (w : Word) : Prop :=
  (fieldF w = 0x8 ∧ fieldN w ∈ unassigned8) ∨ (fieldF w = 0xE ∧ fieldNN w ∉ assignedE) ∨ (fieldF w = 0xF ∧ fieldNN w ∉ assignedF)

/-- In family 0x0 a word is CLS, RET, or what SYS_POLICY makes of every other word (R74, R78). -/
theorem decodeFamily0_cases (cfg : Config) (w : Word) :
    (ignoredOk cfg (fieldX w) = true ∧ fieldNN w = 0xE0 ∧ decodeFamily0 cfg w = .instr .cls) ∨
    (ignoredOk cfg (fieldX w) = true ∧ fieldNN w = 0xEE ∧ decodeFamily0 cfg w = .instr .ret) ∨
    ((ignoredOk cfg (fieldX w) = true → fieldNN w ≠ 0xE0 ∧ fieldNN w ≠ 0xEE) ∧
      (cfg.sysPolicy = .nop ∧ decodeFamily0 cfg w = .sys (fieldNNN w) ∨
        cfg.sysPolicy = .decodeFailure ∧ decodeFamily0 cfg w = reject w)) := by
  unfold decodeFamily0
  split_ifs with hcls hret
  · exact .inl ⟨hcls.1, hcls.2, rfl⟩
  · exact .inr (.inl ⟨hret.1, hret.2, rfl⟩)
  · refine .inr (.inr ⟨fun hok => ⟨fun h => hcls ⟨hok, h⟩, fun h => hret ⟨hok, h⟩⟩, ?_⟩)
    cases cfg.sysPolicy with
    | nop => exact .inl ⟨rfl, rfl⟩
    | decodeFailure => exact .inr ⟨rfl, rfl⟩

theorem decodeFamily8_assigned (w : Word) : (fieldN w ∉ unassigned8 ∧ ∃ i, decodeFamily8 w = .instr i) ∨
    (fieldN w ∈ unassigned8 ∧ decodeFamily8 w = reject w) := by
  rcases nibble_cases (fieldN w) with h | h | h | h | h | h | h | h | h | h | h | h | h | h | h | h <;>
    simp [decodeFamily8, unassigned8, h]

theorem encode_of_decodeFamily8 (hF : fieldF w = 0x8) (h : decodeFamily8 w = .instr i) : encode i = w := by
  unfold decodeFamily8 at h
  split at h
  case h_10 => cases h
  all_goals
    cases h
    exact wordXYN_eq hF (BitVec.eq_of_toNat_eq ‹_›)

/-- Family 0x8 decodes to the instruction that the word spells, or rejects the word (R74, R76). -/
theorem decodeFamily8_cases (hF : fieldF w = 0x8) : (fieldN w ∉ unassigned8 ∧ ∃ i, decodeFamily8 w = .instr i ∧ encode i = w) ∨
    (fieldN w ∈ unassigned8 ∧ decodeFamily8 w = reject w) :=
  (decodeFamily8_assigned w).imp_left fun ⟨hn, i, hi⟩ => ⟨hn, i, hi, encode_of_decodeFamily8 hF hi⟩

/-- Family 0xE decodes to the instruction that the word spells, or rejects the word (R74, R76). -/
theorem decodeFamilyE_cases (hF : fieldF w = 0xE) : (fieldNN w ∈ assignedE ∧ ∃ i, decodeFamilyE w = .instr i ∧ encode i = w) ∨
    (fieldNN w ∉ assignedE ∧ decodeFamilyE w = reject w) := by
  unfold decodeFamilyE
  split_ifs
  case neg => exact .inr ⟨by simp [assignedE, *], rfl⟩
  all_goals exact .inl ⟨by simp [assignedE, ‹fieldNN w = _›], _, rfl, wordXNN_eq hF ‹_›⟩

/-- Family 0xF decodes to the instruction that the word spells, or rejects the word (R74, R76). -/
theorem decodeFamilyF_cases (hF : fieldF w = 0xF) : (fieldNN w ∈ assignedF ∧ ∃ i, decodeFamilyF w = .instr i ∧ encode i = w) ∨
    (fieldNN w ∉ assignedF ∧ decodeFamilyF w = reject w) := by
  by_cases hassigned : fieldNN w ∈ assignedF
  · have hsel := hassigned
    simp only [assignedF, List.mem_cons, List.not_mem_nil, or_false] at hsel
    refine .inl ⟨hassigned, ?_⟩
    rcases hsel with h | h | h | h | h | h | h | h | h <;>
      exact ⟨_, by rw [decodeFamilyF, h]; rfl, by exact wordXNN_eq hF h⟩
  · exact .inr ⟨hassigned, by simp_all [decodeFamilyF, assignedF]⟩

/-- Outside the families 0x0, 0x5 and 0x9, under every configuration alike, decode answers the instruction that the word spells, or
rejects the word (R74, R76). -/
theorem decode_fixed (h0 : fieldF w ≠ 0x0) (h5 : fieldF w ≠ 0x5) (h9 : fieldF w ≠ 0x9) :
    (¬Unassigned w ∧ ∃ i, (∀ cfg, decode cfg w = .instr i) ∧ encode i = w) ∨ (Unassigned w ∧ ∀ cfg, decode cfg w = reject w) := by
  have : Nonempty Config := ⟨.default⟩
  obtain h | h | h | h | h | h | h | h | h | h | h | h | h | h | h | h := nibble_cases (fieldF w)
  · exact absurd h h0
  · exact .inl ⟨by simp [Unassigned, h], _, fun cfg => decode_family_1 cfg h, wordNNN_eq h⟩
  · exact .inl ⟨by simp [Unassigned, h], _, fun cfg => decode_family_2 cfg h, wordNNN_eq h⟩
  · exact .inl ⟨by simp [Unassigned, h], _, fun cfg => decode_family_3 cfg h, wordXNN_eq h rfl⟩
  · exact .inl ⟨by simp [Unassigned, h], _, fun cfg => decode_family_4 cfg h, wordXNN_eq h rfl⟩
  · exact absurd h h5
  · exact .inl ⟨by simp [Unassigned, h], _, fun cfg => decode_family_6 cfg h, wordXNN_eq h rfl⟩
  · exact .inl ⟨by simp [Unassigned, h], _, fun cfg => decode_family_7 cfg h, wordXNN_eq h rfl⟩
  · simpa [Unassigned, h, decode_family_8] using decodeFamily8_cases h
  · exact absurd h h9
  · exact .inl ⟨by simp [Unassigned, h], _, fun cfg => decode_family_A cfg h, wordNNN_eq h⟩
  · exact .inl ⟨by simp [Unassigned, h], _, fun cfg => decode_family_B cfg h, wordNNN_eq h⟩
  · exact .inl ⟨by simp [Unassigned, h], _, fun cfg => decode_family_C cfg h, wordXNN_eq h rfl⟩
  · exact .inl ⟨by simp [Unassigned, h], _, fun cfg => decode_family_D cfg h, wordXYN_eq h rfl⟩
  · simpa [Unassigned, h, decode_family_E] using decodeFamilyE_cases h
  · simpa [Unassigned, h, decode_family_F] using decodeFamilyF_cases h

theorem reject_eq_undecodable {v : Word} {F : Nibble} : reject w = .undecodable v F ↔ v = w ∧ F = fieldF w := by
  simp [reject, eq_comm]

theorem ignored_undecodable {v : Word} {F : Nibble} {i : Instr} :
    (if ignoredOk cfg (fieldN w) then .instr i else reject w) = Decoded.undecodable v F ↔
      (v = w ∧ F = fieldF w) ∧ ignoredOk cfg (fieldN w) = false := by
  split_ifs with hok <;> simp [hok, reject_eq_undecodable]

theorem ignored_instr {j : Instr} :
    (if ignoredOk cfg (fieldN w) then .instr j else reject w) = Decoded.instr i ↔ ignoredOk cfg (fieldN w) = true ∧ j = i := by
  split_ifs with hok <;> simp [hok, reject]

/-- An instruction of family 0x5 or 0x9 is the one the word spells, but for an `N` that decode ignored (R74, R77). -/
theorem eq_wordXYN_or_ignored {f : Nibble} (hF : fieldF w = f) (hok : ignoredOk cfg (fieldN w) = true) :
    w = wordXYN f (fieldX w) (fieldY w) 0 ∨
      cfg.strictDecode = false ∧ ∃ n, n ≠ 0#4 ∧ w = wordXYN f (fieldX w) (fieldY w) n := by
  by_cases hN : fieldN w = 0
  · exact .inl (wordXYN_eq hF hN).symm
  · exact .inr ⟨(ignoredOk_iff.mp hok).resolve_right hN, _, hN, (wordXYN_eq hF rfl).symm⟩

/-- CLS and RET are the word they spell, but for an `X` that decode ignored (R74, R77). -/
theorem eq_wordXNN_or_ignored {f : Nibble} {nn : Byte} (hF : fieldF w = f) (hNN : fieldNN w = nn)
    (hok : ignoredOk cfg (fieldX w) = true) :
    w = wordXNN f 0 nn ∨ cfg.strictDecode = false ∧ ∃ x, x ≠ 0#4 ∧ w = wordXNN f x nn := by
  have hw := (wordXNN_eq hF hNN).symm
  by_cases hX : fieldX w = 0
  · exact .inl (by rwa [hX] at hw)
  · exact .inr ⟨(ignoredOk_iff.mp hok).resolve_right hX, _, hX, hw⟩

end

/-- Settles O2, family by family: where decode ignores a nibble, the word may differ from the encoding in it. -/
theorem encodeOfDecodeIsTheWord : Obligations.EncodeOfDecodeIsTheWord := by
  unfold Obligations.EncodeOfDecodeIsTheWord
  intro cfg w i h
  by_cases h0 : fieldF w = 0x0
  · rw [decode_family_0 cfg h0] at h
    obtain ⟨hok, hNN, hd⟩ | ⟨hok, hNN, hd⟩ | ⟨-, ⟨-, hd⟩ | ⟨-, hd⟩⟩ := decodeFamily0_cases cfg w
    · cases hd.symm.trans h
      exact (eq_wordXNN_or_ignored h0 hNN hok).imp_right fun ⟨hs, x⟩ => ⟨hs, .inl ⟨.inl rfl, x⟩⟩
    · cases hd.symm.trans h
      exact (eq_wordXNN_or_ignored h0 hNN hok).imp_right fun ⟨hs, x⟩ => ⟨hs, .inl ⟨.inr rfl, x⟩⟩
    · cases hd.symm.trans h
    · cases hd.symm.trans h
  by_cases h5 : fieldF w = 0x5
  · rw [decode_family_5 cfg h5] at h
    obtain ⟨hok, rfl⟩ := ignored_instr.mp h
    exact (eq_wordXYN_or_ignored h5 hok).imp_right fun ⟨hs, n, hn, hw⟩ => ⟨hs, .inr ⟨_, _, n, hn, .inl ⟨rfl, hw⟩⟩⟩
  by_cases h9 : fieldF w = 0x9
  · rw [decode_family_9 cfg h9] at h
    obtain ⟨hok, rfl⟩ := ignored_instr.mp h
    exact (eq_wordXYN_or_ignored h9 hok).imp_right fun ⟨hs, n, hn, hw⟩ => ⟨hs, .inr ⟨_, _, n, hn, .inr ⟨rfl, hw⟩⟩⟩
  obtain ⟨-, j, hd, hw⟩ | ⟨-, hd⟩ := decode_fixed h0 h5 h9
  · cases (hd cfg).symm.trans h
    exact .inl hw.symm
  · cases (hd cfg).symm.trans h

/-! The opcode table. -/

section
variable {cfg : Config} {w v : Word}

/-- What a row of mask F000 fixes. -/
theorem fieldF_of_covers (h : (OpcodeRow.mk 0xF000 v).covers w = true) : fieldF w = fieldF v := by
  have hv : w &&& 0xF000 = v := eq_of_beq h
  rw [← hv, and_mask_F, fieldF_wordXYN]

/-- What a row of mask F00F fixes. -/
theorem fieldFN_of_covers (h : (OpcodeRow.mk 0xF00F v).covers w = true) : fieldF w = fieldF v ∧ fieldN w = fieldN v := by
  have hv : w &&& 0xF00F = v := eq_of_beq h
  rw [← hv, and_mask_FN, fieldF_wordXYN, fieldN_wordXYN]
  exact ⟨rfl, rfl⟩

/-- What a row of mask F0FF fixes. -/
theorem fieldFNN_of_covers (h : (OpcodeRow.mk 0xF0FF v).covers w = true) : fieldF w = fieldF v ∧ fieldNN w = fieldNN v := by
  have hv : w &&& 0xF0FF = v := eq_of_beq h
  rw [← hv, and_mask_FNN, fieldF_wordXNN, fieldNN_wordXNN]
  exact ⟨rfl, rfl⟩

/-- What a row fixes whose `X` only STRICT_DECODE fixes (R77). -/
theorem ignoredX_of_covers (h : (OpcodeRow.mk (maskOp0 cfg.strictDecode) v).covers w = true) (hv : fieldX v = 0) :
    ignoredOk cfg (fieldX w) = true ∧ fieldF w = fieldF v ∧ fieldNN w = fieldNN v := by
  cases hs : cfg.strictDecode with
  | false =>
    rw [hs] at h
    exact ⟨ignoredOk_lenient hs _, fieldFNN_of_covers h⟩
  | true =>
    rw [hs] at h
    have hw : w = v := BitVec.and_allOnes.symm.trans (eq_of_beq h)
    rw [hw, hv]
    exact ⟨ignoredOk_zero cfg, rfl, rfl⟩

/-- What a row fixes whose `N` only STRICT_DECODE fixes (R77). -/
theorem ignoredN_of_covers (h : (OpcodeRow.mk (maskXY cfg.strictDecode) v).covers w = true) (hv : fieldN v = 0) :
    ignoredOk cfg (fieldN w) = true ∧ fieldF w = fieldF v := by
  cases hs : cfg.strictDecode with
  | false =>
    rw [hs] at h
    exact ⟨ignoredOk_lenient hs _, fieldF_of_covers h⟩
  | true =>
    rw [hs] at h
    obtain ⟨hF, hN⟩ := fieldFN_of_covers h
    rw [hN, hv]
    exact ⟨ignoredOk_zero cfg, hF⟩

/-- A word that a row covers decodes to an instruction of that row (R74, R75). -/
theorem decode_of_covers {j : Instr} (h : (j.row cfg.strictDecode).covers w = true) :
    ∃ i, decode cfg w = .instr i ∧ i.row cfg.strictDecode = j.row cfg.strictDecode := by
  cases j with
  | cls | ret =>
    obtain ⟨hok, hF, hNN⟩ := ignoredX_of_covers h rfl
    exact ⟨_, (decode_family_0 cfg hF).trans (by rw [decodeFamily0, hok, hNN]; rfl), rfl⟩
  | seReg _ _ =>
    obtain ⟨hok, hF⟩ := ignoredN_of_covers h rfl
    exact ⟨_, (decode_family_5 cfg hF).trans (if_pos hok), rfl⟩
  | sneReg _ _ =>
    obtain ⟨hok, hF⟩ := ignoredN_of_covers h rfl
    exact ⟨_, (decode_family_9 cfg hF).trans (if_pos hok), rfl⟩
  | jp _ => exact ⟨_, decode_family_1 cfg (fieldF_of_covers h), rfl⟩
  | call _ => exact ⟨_, decode_family_2 cfg (fieldF_of_covers h), rfl⟩
  | seImm _ _ => exact ⟨_, decode_family_3 cfg (fieldF_of_covers h), rfl⟩
  | sneImm _ _ => exact ⟨_, decode_family_4 cfg (fieldF_of_covers h), rfl⟩
  | ldImm _ _ => exact ⟨_, decode_family_6 cfg (fieldF_of_covers h), rfl⟩
  | addImm _ _ => exact ⟨_, decode_family_7 cfg (fieldF_of_covers h), rfl⟩
  | ldI _ => exact ⟨_, decode_family_A cfg (fieldF_of_covers h), rfl⟩
  | jpV0 _ => exact ⟨_, decode_family_B cfg (fieldF_of_covers h), rfl⟩
  | rnd _ _ => exact ⟨_, decode_family_C cfg (fieldF_of_covers h), rfl⟩
  | drw _ _ _ => exact ⟨_, decode_family_D cfg (fieldF_of_covers h), rfl⟩
  | ldReg _ _ | orReg _ _ | andReg _ _ | xorReg _ _ | addReg _ _ | sub _ _ | subn _ _ | shr _ _ | shl _ _ =>
    obtain ⟨hF, hN⟩ := fieldFN_of_covers h
    exact ⟨_, (decode_family_8 cfg hF).trans (by rw [decodeFamily8, hN]; rfl), by rfl⟩
  | skp _ | sknp _ =>
    obtain ⟨hF, hNN⟩ := fieldFNN_of_covers h
    exact ⟨_, (decode_family_E cfg hF).trans (by rw [decodeFamilyE, hNN]; rfl), by rfl⟩
  | ldVxDt _ | ldVxK _ | ldDtVx _ | ldStVx _ | addI _ | ldF _ | ldB _ | ldMemVx _ | ldVxMem _ =>
    obtain ⟨hF, hNN⟩ := fieldFNN_of_covers h
    exact ⟨_, (decode_family_F cfg hF).trans (by rw [decodeFamilyF, hNN]; rfl), by rfl⟩

end

open Laws.EncodingFitsRow in
/-- The encoder's word of every instruction is covered by its row: the family `EncodingFitsRow`. -/
theorem encodingFitsRow : ∀ i, Statement i
  | .cls => cls | .ret => ret | .jp nnn => jp nnn | .call nnn => call nnn | .seImm x nn => seImm x nn
  | .sneImm x nn => sneImm x nn | .seReg x y => seReg x y | .ldImm x nn => ldImm x nn | .addImm x nn => addImm x nn
  | .ldReg x y => ldReg x y | .orReg x y => orReg x y | .andReg x y => andReg x y | .xorReg x y => xorReg x y
  | .addReg x y => addReg x y | .sub x y => sub x y | .subn x y => subn x y | .shr x y => shr x y | .shl x y => shl x y
  | .sneReg x y => sneReg x y | .ldI nnn => ldI nnn | .jpV0 nnn => jpV0 nnn | .rnd x nn => rnd x nn
  | .drw x y n => drw x y n | .skp x => skp x | .sknp x => sknp x | .ldVxDt x => ldVxDt x | .ldVxK x => ldVxK x
  | .ldDtVx x => ldDtVx x | .ldStVx x => ldStVx x | .addI x => addI x | .ldF x => ldF x | .ldB x => ldB x
  | .ldMemVx x => ldMemVx x | .ldVxMem x => ldVxMem x

/-- The operands of an instruction do not change its row, so the table has it. -/
theorem row_mem_opcodeTable (strict : Bool) (i : Instr) : i.row strict ∈ opcodeTable strict := by
  cases i <;> simp [opcodeTable, representatives, Instr.row]

theorem covers_of_fieldF {w : Word} {f : Nibble} (hF : fieldF w = f) :
    (OpcodeRow.mk 0xF000 (wordXYN f 0 0 0)).covers w = true := by
  rw [OpcodeRow.covers, and_mask_F, hF, beq_self_eq_true]

theorem covers_of_fieldFNN {w : Word} {f : Nibble} {nn : Byte} (hF : fieldF w = f) (hNN : fieldNN w = nn) :
    (OpcodeRow.mk 0xF0FF (wordXNN f 0 nn)).covers w = true := by
  rw [OpcodeRow.covers, and_mask_FNN, hF, hNN, beq_self_eq_true]

/-- The row of the decoded instruction covers the word (R75). -/
theorem covers_of_decode {cfg : Config} {w : Word} {i : Instr} (h : decode cfg w = .instr i) :
    (i.row cfg.strictDecode).covers w = true := by
  obtain rfl | ⟨hs, ⟨hi, x, -, hw⟩ | ⟨x, y, n, -, ⟨rfl, rfl⟩ | ⟨rfl, rfl⟩⟩⟩ := encodeOfDecodeIsTheWord cfg w i h
  · exact encodingFitsRow i _
  · rw [hs, hw]
    obtain rfl | rfl := hi
    · exact covers_of_fieldFNN (fieldF_wordXNN _ _ _) (fieldNN_wordXNN _ _ _)
    · exact covers_of_fieldFNN (fieldF_wordXNN _ _ _) (fieldNN_wordXNN _ _ _)
  · rw [hs]; exact covers_of_fieldF (fieldF_wordXYN _ _ _ _)
  · rw [hs]; exact covers_of_fieldF (fieldF_wordXYN _ _ _ _)

/-- Settles O3: a word that a row covers decodes to an instruction of that row, so two rows that cover it are one. -/
theorem decodeFollowsTheOpcodeTable : Obligations.DecodeFollowsTheOpcodeTable := by
  unfold Obligations.DecodeFollowsTheOpcodeTable
  intro cfg w
  have hdecode : ∀ r ∈ opcodeTable cfg.strictDecode, r.covers w = true →
      ∃ i, decode cfg w = .instr i ∧ i.row cfg.strictDecode = r := by
    intro r hr hw
    obtain ⟨j, -, rfl⟩ := List.mem_map.mp hr
    exact decode_of_covers hw
  refine ⟨⟨?decodes, ?covered⟩, fun i => covers_of_decode, ?disjoint⟩
  case decodes =>
    rintro ⟨i, hi⟩
    exact ⟨_, row_mem_opcodeTable _ i, covers_of_decode hi⟩
  case covered =>
    rintro ⟨r, hr, hw⟩
    obtain ⟨i, hi, -⟩ := hdecode r hr hw
    exact ⟨i, hi⟩
  case disjoint =>
    intro r hr r' hr' hw hw'
    obtain ⟨i, hi, rfl⟩ := hdecode r hr hw
    obtain ⟨i', hi', rfl⟩ := hdecode r' hr' hw'
    cases hi.symm.trans hi'
    rfl

/-! The undecodable words. -/

section
variable {cfg : Config} {w : Word}

theorem unassigned_iff : Unassigned w ↔ (w.toNat / 4096 = 0x8 ∧ w.toNat % 16 ∈ [0x8, 0x9, 0xA, 0xB, 0xC, 0xD, 0xF]) ∨
    (w.toNat / 4096 = 0xE ∧ w.toNat % 256 ≠ 0x9E ∧ w.toNat % 256 ≠ 0xA1) ∨
    (w.toNat / 4096 = 0xF ∧ w.toNat % 256 ∉ [0x07, 0x0A, 0x15, 0x18, 0x1E, 0x29, 0x33, 0x55, 0x65]) := by
  simp [Unassigned, unassigned8, assignedE, assignedF, fieldF_eq_iff, fieldN_eq_iff, fieldNN_eq_iff]

/-- The words that decode rejects: the lists of R76, that of family 0x0 under SYS_POLICY = decode_failure alone (R78), and the words
whose ignored nibble STRICT_DECODE rejects (R77). -/
def Undecodable (cfg : Config) (w : Word) : Prop :=
  (cfg.sysPolicy = .decodeFailure ∧ fieldF w = 0x0 ∧ (ignoredOk cfg (fieldX w) = true → fieldNN w ≠ 0xE0 ∧ fieldNN w ≠ 0xEE)) ∨
    ((fieldF w = 0x5 ∨ fieldF w = 0x9) ∧ ignoredOk cfg (fieldN w) = false) ∨ Unassigned w

/-- Decode fails on exactly those words, and a failure carries the word and its family (R74, R76). -/
theorem decode_undecodable {v : Word} {F : Nibble} :
    decode cfg w = .undecodable v F ↔ (v = w ∧ F = fieldF w) ∧ Undecodable cfg w := by
  by_cases h0 : fieldF w = 0x0#4
  · rw [decode_family_0 cfg h0]
    obtain ⟨hok, hNN, hd⟩ | ⟨hok, hNN, hd⟩ | ⟨hother, ⟨hp, hd⟩ | ⟨hp, hd⟩⟩ := decodeFamily0_cases cfg w
    · simp [hd, Undecodable, Unassigned, h0, hok, hNN]
    · simp [hd, Undecodable, Unassigned, h0, hok, hNN]
    · simp [hd, Undecodable, Unassigned, h0, hp]
    · have hu : Undecodable cfg w := .inl ⟨hp, h0, hother⟩
      rw [hd, reject_eq_undecodable, and_iff_left hu]
  by_cases h5 : fieldF w = 0x5#4
  · rw [decode_family_5 cfg h5, ignored_undecodable]
    simp [Undecodable, Unassigned, h5]
  by_cases h9 : fieldF w = 0x9#4
  · rw [decode_family_9 cfg h9, ignored_undecodable]
    simp [Undecodable, Unassigned, h9]
  obtain ⟨hu, i, hd, -⟩ | ⟨hu, hd⟩ := decode_fixed h0 h5 h9
  · simp [hd cfg, Undecodable, h0, h5, h9, hu]
  · have hu : Undecodable cfg w := .inr (.inr hu)
    rw [hd cfg, reject_eq_undecodable, and_iff_left hu]

end

/-- Settles O4: under STRICT_DECODE = false every ignored nibble passes, and the lists of R76 are left. -/
theorem undecodableWordsAreTheListedOnes : Obligations.UndecodableWordsAreTheListedOnes := by
  unfold Obligations.UndecodableWordsAreTheListedOnes
  intro cfg w hs
  constructor
  · rw [decode_undecodable, and_iff_right ⟨rfl, rfl⟩]
    simp only [Undecodable, ignoredOk_lenient hs, fieldF_eq_iff, fieldNN_eq_iff, unassigned_iff, true_implies,
      reduceCtorEq, and_false, false_or, ne_eq]
    rfl
  · intro v F h
    obtain ⟨⟨hv, hF⟩, -⟩ := decode_undecodable.mp h
    exact ⟨hv, (fieldF_eq_iff.mp hF.symm).symm⟩

/-! STRICT_DECODE. -/

/-- The words in which decode finds an ignored nibble that is not 0 (R77). -/
def NonCanonical (w : Word) : Prop :=
  (fieldF w = 0x0 ∧ (fieldNN w = 0xE0 ∨ fieldNN w = 0xEE) ∧ fieldX w ≠ 0#4) ∨ ((fieldF w = 0x5 ∨ fieldF w = 0x9) ∧ fieldN w ≠ 0#4)

section
variable {w : Word}

theorem nonCanonical_iff : NonCanonical w ↔
    (w.toNat / 4096 = 0x0 ∧ (w.toNat % 256 = 0xE0 ∨ w.toNat % 256 = 0xEE) ∧ w.toNat / 256 % 16 ≠ 0) ∨
      ((w.toNat / 4096 = 0x5 ∨ w.toNat / 4096 = 0x9) ∧ w.toNat % 16 ≠ 0) := by
  simp only [NonCanonical, fieldF_eq_iff, fieldX_eq_iff, fieldN_eq_iff, fieldNN_eq_iff, ne_eq]
  rfl

theorem ignoredOk_of_strict {cfg : Config} (hs : cfg.strictDecode = true) {n : Nibble} : ignoredOk cfg n = true ↔ n = 0 := by
  simp [ignoredOk_iff, hs]

/-- STRICT_DECODE rejects a non-canonical word, in family 0x0 under SYS_POLICY = decode_failure (R77, R78). -/
theorem decode_nonCanonical {cfg : Config} (hs : cfg.strictDecode = true)
    (hp : cfg.sysPolicy = .decodeFailure ∨ fieldF w ≠ 0x0) (hw : NonCanonical w) :
    decode cfg w = .undecodable w (fieldF w) := by
  refine decode_undecodable.mpr ⟨⟨rfl, rfl⟩, ?_⟩
  obtain ⟨h0, -, hX⟩ | ⟨h59, hN⟩ := hw
  · exact .inl ⟨hp.resolve_right (not_not.mpr h0), h0, fun hok => absurd ((ignoredOk_of_strict hs).mp hok) hX⟩
  · exact .inr (.inl ⟨h59, eq_false_of_ne_true fun hok => hN ((ignoredOk_of_strict hs).mp hok)⟩)

/-- A canonical word decodes alike under two configurations of one SYS_POLICY. -/
theorem decode_canonical {cfg cfg' : Config} (hp : cfg.sysPolicy = cfg'.sysPolicy) (hw : ¬NonCanonical w) :
    decode cfg w = decode cfg' w := by
  by_cases h0 : fieldF w = 0x0
  · rw [decode_family_0 cfg h0, decode_family_0 cfg' h0, decodeFamily0, decodeFamily0, hp]
    by_cases hX : fieldX w = 0#4
    · rw [hX, ignoredOk_zero, ignoredOk_zero]
    · obtain ⟨hE0, hEE⟩ : fieldNN w ≠ 0xE0 ∧ fieldNN w ≠ 0xEE :=
        not_or.mp fun hNN => hw (.inl ⟨h0, hNN, hX⟩)
      rw [if_neg (hE0 ·.2), if_neg (hEE ·.2), if_neg (hE0 ·.2), if_neg (hEE ·.2)]
  have hN : fieldF w = 0x5 ∨ fieldF w = 0x9 → fieldN w = 0#4 := fun h59 => not_not.mp fun hN => hw (.inr ⟨h59, hN⟩)
  by_cases h5 : fieldF w = 0x5
  · rw [decode_family_5 cfg h5, decode_family_5 cfg' h5, hN (.inl h5), ignoredOk_zero, ignoredOk_zero]
  by_cases h9 : fieldF w = 0x9
  · rw [decode_family_9 cfg h9, decode_family_9 cfg' h9, hN (.inr h9), ignoredOk_zero, ignoredOk_zero]
  obtain ⟨-, i, hd, -⟩ | ⟨-, hd⟩ := decode_fixed h0 h5 h9
  · rw [hd, hd]
  · rw [hd, hd]

/-- A word of family 0x0 that is neither `00E0` nor `00EE` is `SYS` under nop and STRICT_DECODE = true (R74, R78). -/
theorem decode_sys_of_strict {cfg : Config} (hs : cfg.strictDecode = true) (hp : cfg.sysPolicy = .nop) (h0 : fieldF w = 0x0)
    (hE0 : w ≠ encode .cls) (hEE : w ≠ encode .ret) : decode cfg w = .sys (fieldNNN w) := by
  rw [decode_family_0 cfg h0]
  obtain ⟨hok, hNN, -⟩ | ⟨hok, hNN, -⟩ | ⟨-, ⟨-, hd⟩ | ⟨hp', -⟩⟩ := decodeFamily0_cases cfg w
  · rw [ignoredOk_of_strict hs] at hok
    exact absurd (hok ▸ wordXNN_eq h0 hNN).symm hE0
  · rw [ignoredOk_of_strict hs] at hok
    exact absurd (hok ▸ wordXNN_eq h0 hNN).symm hEE
  · exact hd
  · cases hp.symm.trans hp'

end

/-- Settles O5: the non-canonical words apart, every word decodes alike; and under nop family 0x0 holds CLS, RET and `SYS`. -/
theorem strictDecodeRejectsNonCanonicalWords : Obligations.StrictDecodeRejectsNonCanonicalWords := by
  unfold Obligations.StrictDecodeRejectsNonCanonicalWords
  intro cfg w
  constructor
  · intro hp
    by_cases hw : NonCanonical w
    · rw [if_pos (nonCanonical_iff.mp hw)]
      exact decode_nonCanonical rfl (hp.imp_right (mt fieldF_eq_iff.mp)) hw
    · rw [if_neg (mt nonCanonical_iff.mpr hw)]
      exact decode_canonical rfl hw
  · intro hp h0
    split_ifs with hE0 hEE
    · obtain rfl : w = encode .cls := BitVec.eq_of_toNat_eq hE0
      exact decodeOfEncodeIsTheInstruction _ .cls
    · obtain rfl : w = encode .ret := BitVec.eq_of_toNat_eq hEE
      exact decodeOfEncodeIsTheInstruction _ .ret
    · rw [← fieldNNN_eq_ofNat]
      exact decode_sys_of_strict rfl hp (fieldF_eq_iff.mpr h0) (fun h => hE0 (congrArg BitVec.toNat h))
        (fun h => hEE (congrArg BitVec.toNat h))

/-- Settles O7 by running decode on the ten words. -/
theorem writtenOutWordsDecode : Obligations.WrittenOutWordsDecode := by
  unfold Obligations.WrittenOutWordsDecode
  decide

/-! The `SYS` words. -/

namespace Machine

section
variable {s : State} {w : Word}

/-- Where fetch succeeds it reads the word at `pc` (R52, R55). -/
theorem State.fetch_of_wordAtPc (hf : Fetchable s) (hw : WordAtPc s w) : s.fetch = .ok w := by
  rw [State.fetch_of_fetchable hf]
  congr 1
  exact BitVec.eq_of_toNat_eq ((wordOfBytes_toNat _ _).trans hw.symm)

/-- A running block whose fetch succeeds runs the word at `pc` (R90). -/
theorem step_of_wordAtPc (hs : s.status = .running) (hf : Fetchable s) (hw : WordAtPc s w) :
    step s = runDecoded (decode s.config w) s := by
  unfold step cycle
  rw [hs, State.fetch_of_wordAtPc hf hw]

/-- The end of a step spends the random byte and changes the two timers and `beep` (R94, R180). -/
theorem State.endStep_frame (u : State) : Frame [] [.delay, .sound, .beep] (u.setRnd none) u.endStep := by
  rw [State.endStep_eq]
  refine ⟨rfl, rfl, rfl, fun _ _ => rfl, fun p hp => ?_⟩
  cases p with
  | delay | sound | beep => simp at hp
  | _ => rfl

/-- The end of a step is the tick of R94, R210 and R211. -/
theorem State.endStep_ticked (u : State) : Ticked u u.endStep := by
  have hDT : u.endStep.DT = u.tick.DT := rfl
  have hST : u.endStep.ST = u.tick.ST := rfl
  have hbeep : u.endStep.beep = u.tick.beep := rfl
  refine ⟨?delay, ?sound, ?beep, by rw [State.endStep_eq], rfl, u.endStep_frame.changesOnly⟩
  case delay => rw [hDT, State.tick_DT]; split_ifs <;> bv_omega
  case sound => rw [hST, State.tick_ST]; split_ifs <;> bv_omega
  case beep => simp [hbeep, State.tick_beep, ← BitVec.toNat_inj]

end

/-- Settles O6: the step runs what SYS_POLICY makes of the word. -/
theorem sysWordsFollowSysPolicy : Obligations.SysWordsFollowSysPolicy := by
  unfold Obligations.SysWordsFollowSysPolicy
  intro s w hs hf hw h0 hcls hret
  have h0 : fieldF w = 0x0 := fieldF_eq_iff.mpr h0
  rw [step_of_wordAtPc hs hf hw]
  rw [decode_family_0 _ h0] at hcls hret ⊢
  obtain ⟨-, -, hd⟩ | ⟨-, -, hd⟩ | ⟨-, ⟨hp, hd⟩ | ⟨hp, hd⟩⟩ := decodeFamily0_cases s.config w
  · exact absurd hd hcls
  · exact absurd hd hret
  · refine ⟨fun hp' => absurd (hp.symm.trans hp') (by decide), fun _ => ⟨hd.trans (congrArg _ (fieldNNN_eq_ofNat w)), ?_⟩⟩
    rw [hd]
    refine ⟨s.advance 2, _, rfl, ?_, (s.advance_frame 2).changesOnly, State.endStep_ticked _⟩
    rw [State.advance_pc, BitVec.toNat_add]; rfl
  · refine ⟨fun _ => ?_, fun hp' => absurd (hp.symm.trans hp') (by decide)⟩
    rw [hd, reject, h0]; rfl

end Machine

end Sys2Proof
end

section
/-! The step cycle: what a step of a running and of a halted block answers, that none is refused, what a fault leaves, and how every
instruction writes `pc` (R90 to R99, R202). -/

namespace Sys2Proof.Machine

/-! The answer of a step. -/

/-- No instruction of the table is refused (R99). -/
theorem exec_ne_refused (i : Instr) (s : State) (r : Refusal) : exec i s ≠ .refused r := by
  cases i with
  | ret => simp only [exec, execRet]; cases s.pop <;> nofun
  | call nnn => simp only [exec, execCall]; cases s.push s.pc <;> nofun
  | skp x | sknp x => simp only [exec, execSkp, execSknp]; cases s.keyPressed (s.reg x) <;> nofun
  | ldVxK x => simp only [exec, execLdVxK]; cases s.scanKeys <;> nofun
  | drw x y n | ldB x | ldMemVx x | ldVxMem x => exact checked_not_refused
  | _ => nofun

/-- What decode gave runs as an instruction, as `SYS` or as a fault, and none of the three is refused (R92, R93). -/
theorem runDecoded_ne_refused (d : Decoded) (s : State) (r : Refusal) : runDecoded d s ≠ .refused r := by
  cases d with
  | instr i => exact fun h => exec_ne_refused i s r (finish_refused.mp h)
  | sys nnn | undecodable w family => nofun

section
variable {s : State}

/-- A step of a halted block answers its fault again (R97). -/
theorem step_of_halted {f : Fault} (hs : s.status = .halted f) : step s = .fault f := step_fault.mpr (.inl hs)

/-- Halting again with the same fault changes nothing (R97). -/
theorem State.halt_of_halted {f : Fault} (hs : s.status = .halted f) : s.halt f = s := by
  unfold State.halt State.setStatus
  rw [← hs]

end

/-- Settles O12: a step ends at the status, at the fetch, or with what decode gave. -/
theorem noStepIsRefused : Obligations.NoStepIsRefused := by
  unfold Obligations.NoStepIsRefused
  intro s r
  unfold step cycle
  cases s.status with
  | halted f => nofun
  | running =>
    cases s.fetch with
    | error f => nofun
    | ok w => exact runDecoded_ne_refused _ s r

/-- Settles O8: the step is `exec` and the end of the step. -/
theorem stepRunsTheDecodedInstruction : Obligations.StepRunsTheDecodedInstruction := by
  unfold Obligations.StepRunsTheDecodedInstruction
  intro s w i hs hf hw hd _
  have hstep : step s = finish (exec i s) := by rw [step_of_wordAtPc hs hf hw, hd]; rfl
  rw [hstep]
  exact ⟨fun u hu => ⟨u.endStep, finish_next.mpr ⟨u, hu, rfl⟩, u.endStep_ticked⟩, fun f => finish_fault.mpr⟩

/-- Settles O15: the fault is answered again, and halting with it is no change. -/
theorem haltedBlockStaysAsItIs : Obligations.HaltedBlockStaysAsItIs := by
  unfold Obligations.HaltedBlockStaysAsItIs
  intro s f rnd hs
  have hfault : stepWith rnd s = .fault f := step_of_halted (s := s.setRnd (some rnd)) hs
  rw [hfault]
  exact ⟨rfl, State.halt_of_halted hs⟩

/-! The halt under the host's actions. -/

/-- A program load never writes `status` (R200, R231). -/
theorem State.load_status (s : State) (image : List Byte) : (s.load image).1.status = s.status := by
  unfold State.load
  split
  · exact (s.storeBytes_frame progBase image).status
  · rfl

/-- An admitted host action other than construction leaves a halted block halted with its fault (R202, D3). -/
theorem Session.act_halted {p q : Session} {a : HostAction} {r : Reply} {f : Fault} (hs : p.block.status = .halted f)
    (ha : a ≠ .construct) (hact : Session.act a p = .ok (q, r)) : q.block.status = .halted f := by
  unfold Session.act at hact
  cases a with
  | construct => exact absurd rfl ha
  | load image =>
    dsimp only at hact
    split at hact
    · cases hact; exact (p.block.load_status image).trans hs
    · cases hact
  | step b =>
    dsimp only at hact
    split at hact
    · cases hact
    · cases hact
      rw [(haltedBlockStaysAsItIs p.block f b hs).2]
      exact hs
  | writeKey k v =>
    dsimp only at hact
    split at hact
    · cases hact; exact hs
    · cases hact
  | clearRedraw | clearBeep => cases hact; exact hs

/-- Settles O16: the state after a fault is the halted state, and every later action keeps the halt. -/
theorem faultHaltsTheBlockAndWritesNothingElse : Obligations.FaultHaltsTheBlockAndWritesNothingElse := by
  unfold Obligations.FaultHaltsTheBlockAndWritesNothingElse
  refine ⟨fun s f rnd h => ?_, fun p q a r f hs ha hact => Session.act_halted hs ha hact⟩
  rw [h]
  exact ⟨rfl, step_of_halted (s := s.halt f) rfl⟩

/-! How `pc` is written (R96). -/

section
variable (s : State)

/-- `pc` advances modulo 2^16 (R24, D21). -/
theorem State.advance_pc_toNat (n : Nat) : (s.advance n).pc.toNat = (s.pc.toNat + n) % 65536 := by
  rw [State.advance_pc, BitVec.toNat_add, BitVec.toNat_ofNat, Nat.add_mod_mod]

theorem State.skipIf_pc_toNat (c : Bool) : (s.skipIf c).pc.toNat = (s.pc.toNat + if c then 4 else 2) % 65536 :=
  s.advance_pc_toNat _

@[simp] theorem State.storeBytes_pc (a : Nat) (vs : List Byte) : (s.storeBytes a vs).pc = s.pc := by
  rw [State.storeBytes_eq_setMem]; rfl

@[simp] theorem State.writeFlagged_pc (x src : Nibble) (flag op : Byte → Byte → Byte) :
    (s.writeFlagged x src flag op).pc = s.pc := by
  obtain ⟨V, hV⟩ := s.writeFlagged_eq x src flag op
  rw [hV]

@[simp] theorem State.loadRegs_pc (x : Nibble) : (s.loadRegs x).pc = s.pc := by
  obtain ⟨V, hV, -⟩ := s.loadRegs_spec x
  rw [hV]

@[simp] theorem State.consumeKey_pc (k : Nibble) : (s.consumeKey k).pc = s.pc := by
  unfold State.consumeKey
  cases s.config.awaitKey <;> rfl

/-- A key index of 0 to 15 names a key, pressed when its cell is 1 (R181, D19). -/
theorem State.keyPressed_some {s : State} {v : Byte} {down : Bool} :
    s.keyPressed v = some down ↔ v.toNat ≤ 15 ∧ (s.keyAt (v.setWidth 4) == 1#8) = down := by
  unfold State.keyPressed
  split <;> simp [*]

end

section
variable {s t : State}

theorem addrOf_toNat (nnn : Addr12) : (addrOf nnn).toNat = nnn.toNat := BitVec.toNat_setWidth_of_le (by decide)

/-- The target of `JP V0` is the sum, not masked to 12 bits (R129, D36). -/
theorem State.jumpV0Target_toNat (s : State) (nnn : Addr12) :
    (s.jumpV0Target nnn).toNat = (nnn.toNat + (s.reg 0).toNat) % 65536 := by
  rw [State.jumpV0Target, BitVec.toNat_add, addrOf_toNat, BitVec.toNat_setWidth_of_le (by decide)]

/-- `RET` lands two bytes past the slot below the stack pointer (R121). -/
theorem execRet_pc (h : execRet s = .next t) :
    ∃ k : Fin 16, s.sp.val = k.val + 1 ∧ t.pc.toNat = (s.stack[k].toNat + 2) % 65536 := by
  obtain ⟨a, u, hpop, rfl⟩ := execRet_next.mp h
  obtain ⟨hpos, rfl, -⟩ := State.pop_some.mp hpop
  exact ⟨⟨s.sp.val - 1, by omega⟩, (Nat.sub_add_cancel hpos).symm, BitVec.toNat_add _ _⟩

/-- `CALL` writes its target to `pc`, and the `pc` of its fetch to the slot at the stack pointer (R123). -/
theorem execCall_pc {nnn : Addr12} (h : execCall nnn s = .next t) :
    t.pc.toNat = nnn.toNat ∧ ∃ k : Fin 16, s.sp.val = k.val ∧ t.stack[k] = s.pc := by
  obtain ⟨u, hpush, rfl⟩ := execCall_next.mp h
  obtain ⟨hlt, rfl⟩ := State.push_some.mp hpush
  exact ⟨addrOf_toNat nnn, ⟨s.sp.val, hlt⟩, rfl, Vector.getElem_set_self hlt⟩

/-- `LD Vx, K` stays where it is until a key is pressed (R184). -/
theorem execLdVxK_pc {x : Nibble} (h : execLdVxK x s = .next t) :
    t.pc.toNat = (s.pc.toNat + if ∃ k, s.keyAt k = 1 then 2 else 0) % 65536 := by
  obtain ⟨hscan, rfl⟩ | ⟨k, hscan, rfl⟩ := execLdVxK_next.mp h
  · rw [if_neg fun ⟨k, hk⟩ => State.scanKeys_none.mp hscan k hk, Nat.add_zero, Nat.mod_eq_of_lt s.pc.isLt]
  · rw [if_pos ⟨k, (State.scanKeys_some.mp hscan).1⟩, State.advance_pc_toNat, State.consumeKey_pc, State.setReg_pc]

end

/-- Settles O17, row by row of the table of R96. -/
theorem everyInstructionWritesPcByTheTable : Obligations.EveryInstructionWritesPcByTheTable := by
  unfold Obligations.EveryInstructionWritesPcByTheTable
  intro i s t h
  cases i with
  | jp nnn => cases h; exact addrOf_toNat nnn
  | call nnn => exact execCall_pc h
  | ret => exact execRet_pc h
  | jpV0 nnn => cases h; exact s.jumpV0Target_toNat nnn
  | seImm x v | sneImm x v | seReg x v | sneReg x v => cases h; simp [State.skipIf_pc_toNat]
  | skp x =>
    obtain ⟨down, hkey, rfl⟩ := execSkp_next.mp h
    obtain ⟨-, rfl⟩ := State.keyPressed_some.mp hkey
    simp [State.skipIf_pc_toNat]
  | sknp x =>
    obtain ⟨down, hkey, rfl⟩ := execSknp_next.mp h
    obtain ⟨-, rfl⟩ := State.keyPressed_some.mp hkey
    simp [State.skipIf_pc_toNat]
  | ldVxK x => exact execLdVxK_pc h
  | addReg x y | sub x y | subn x y | shr x y | shl x y =>
    cases h; rw [State.advance_pc_toNat, State.writeFlagged_pc]
  | drw x y n => obtain ⟨-, rfl⟩ := checked_next.mp h; exact State.advance_pc_toNat _ 2
  | ldB x => obtain ⟨-, rfl⟩ := checked_next.mp h; rw [State.advance_pc_toNat, State.storeBytes_pc]
  | ldMemVx x =>
    obtain ⟨-, rfl⟩ := checked_next.mp h
    rw [State.advance_pc_toNat, State.bumpI, State.setI_pc, State.storeBytes_pc]
  | ldVxMem x =>
    obtain ⟨-, rfl⟩ := checked_next.mp h
    rw [State.advance_pc_toNat, State.bumpI, State.setI_pc, State.loadRegs_pc]
  | cls | ldImm x v | addImm x v | ldReg x v | orReg x v | andReg x v | xorReg x v | ldI v | rnd x v | ldVxDt x | ldDtVx x
  | ldStVx x | addI x | ldF x => cases h; exact State.advance_pc_toNat _ 2

end Sys2Proof.Machine
end

section
/-! The display: what `CLS` leaves, the cells that `DRW` XORs and the collision it reports, where the two clip modes draw alike, and
the two consequences of R113 (R110 to R113). -/

namespace Sys2Proof.Machine

/-! `CLS`. -/

/-- `0XE0` is `CLS` wherever decode accepts its ignored nibble (R74, R75). -/
theorem decode_cls {cfg : Config} {x : Nibble} (hok : ignoredOk cfg x = true) :
    decode cfg (wordXNN 0x0 x 0xE0) = .instr .cls := by
  rw [decode_family_0 cfg (fieldF_wordXNN _ _ _), decodeFamily0, fieldX_wordXNN, fieldNN_wordXNN, if_pos ⟨hok, rfl⟩]

/-- Settles O18: an empty list of cells reads 0 everywhere, and the frame of `CLS` is the display and `redraw`. -/
theorem clsClearsEveryPixelAndSetsRedraw : Obligations.ClsClearsEveryPixelAndSetsRedraw := by
  unfold Obligations.ClsClearsEveryPixelAndSetsRedraw
  exact fun x s => ⟨fun hx => decode_cls (ignoredOk_iff.mpr hx), _, rfl, State.advance_pc_toNat _ 2,
    (exec_frame (i := .cls) rfl).changesOnly, fun _ => rfl, rfl⟩

/-! The cells that a sprite covers. -/

theorem visible_iff {mode : DrawClipMode} {cx cy : Nat} : visible mode cx cy = true ↔ VisibleAt mode cx cy := by
  cases mode with
  | linear => exact decide_eq_true_iff
  | clipXy => exact Bool.and_eq_true_iff.trans (and_congr decide_eq_true_iff decide_eq_true_iff)

/-- The cells that `DRW Vx, Vy, N` toggles, each once (R111). -/
def State.drawCells (s : State) (x y n : Nibble) : List Nat :=
  spriteCells s.config.drawClip (s.reg x).toNat (s.reg y).toNat (s.spriteRows n)

/-- The state that a completed `DRW` answers (R111). -/
def State.afterDraw (s : State) (x y n : Nibble) : State :=
  (((s.setDisp (s.draw x y n).disp).setReg flagReg (flagByte (s.draw x y n).hit)).setRedraw true).advance 2

section
variable {s t u : State} {x y n : Nibble} {o : Nat}

/-- The toggled cells are those that the rule says are covered (R111, R112). -/
theorem State.mem_drawCells : o ∈ s.drawCells x y n ↔ Covers s x y n o := by
  have hlen : (s.spriteRows n).length = n.toNat := s.loadBytes_length _ _
  have hrow : ∀ r (hr : r < (s.spriteRows n).length), (s.spriteRows n)[r] = s.byteAt (s.I.toNat + r) :=
    fun r hr => s.loadBytes_getElem _ _ r hr
  simp only [State.drawCells, mem_spriteCells, hrow, hlen, visible_iff, Covers, exists_prop]

/-- What a sprite covers is kept by an instruction that changes neither `I`, memory nor the two coordinates. -/
theorem Frame.covers_iff {regs : List Nibble} {parts : List Part} (hf : Frame regs parts s u) (hI : Part.addr ∉ parts)
    (hm : Part.memory ∉ parts) (hx : u.reg x = s.reg x) (hy : u.reg y = s.reg y) : Covers u x y n o ↔ Covers s x y n o := by
  have hbytes : ∀ a, u.byteAt a = s.byteAt a := (hf.part _ hm).same hf.config
  have hIeq : u.I = s.I := hf.part _ hI
  simp only [Covers, hf.config, hIeq, hbytes, hx, hy]

/-- So are the rows that can be read, by an instruction that leaves `I`. -/
theorem Frame.readable_iff {regs : List Nibble} {parts : List Part} {m : Nat} (hf : Frame regs parts s u)
    (hI : Part.addr ∉ parts) : Readable u m ↔ Readable s m := by
  have hIeq : u.I = s.I := hf.part _ hI
  rw [Readable, hIeq, Readable]

/-! What `DRW` answers. -/

/-- A read passes its check when all its addresses exist (R53). -/
theorem memCheck_read_none {m : Nat} : memCheck s.config .read s.base m = none ↔ Readable s m := by
  simp only [memCheck_none, addressFault_passes, reduceCtorEq, false_implies, and_true, Readable, State.base]

/-- `DRW` completes exactly when its rows can be read (R111). -/
theorem exec_drw_next : exec (.drw x y n) s = .next t ↔ Readable s n.toNat ∧ s.afterDraw x y n = t :=
  checked_next.trans (and_congr_left' memCheck_read_none)

theorem exec_drw_of_readable (hread : Readable s n.toNat) : exec (.drw x y n) s = .next (s.afterDraw x y n) :=
  exec_drw_next.mpr ⟨hread, rfl⟩

theorem flagByte_eq_one {b : Bool} : flagByte b = 1 ↔ b = true := by cases b <;> decide

theorem flagByte_eq_zero {b : Bool} : flagByte b = 0 ↔ b = false := by cases b <;> decide

@[simp] theorem State.afterDraw_flag : (s.afterDraw x y n).flag = flagByte (s.draw x y n).hit := State.flag_setReg_flag _ _

section
variable (hd : Bitmap.wf s.disp = true)
include hd

/-- A covered pixel is XORed with 1 (R111). -/
theorem State.afterDraw_pixel_of_covers (ho : Covers s x y n o) : (s.afterDraw x y n).pixel o = s.pixel o ^^^ 1#8 := by
  obtain ⟨-, hpixel, -⟩ := State.draw_spec hd x y n
  exact (hpixel o).trans (if_pos (State.mem_drawCells.mpr ho))

/-- Every other pixel stays (R111). -/
theorem State.afterDraw_pixel_of_not_covers (ho : ¬Covers s x y n o) : (s.afterDraw x y n).pixel o = s.pixel o := by
  obtain ⟨-, hpixel, -⟩ := State.draw_spec hd x y n
  exact (hpixel o).trans (if_neg (mt State.mem_drawCells.mp ho))

/-- A draw collides where a covered pixel was 1 (R111). -/
theorem State.draw_hit : (s.draw x y n).hit = true ↔ ∃ o, Covers s x y n o ∧ s.pixel o = 1 := by
  obtain ⟨-, -, hhit⟩ := State.draw_spec hd x y n
  exact hhit.trans (exists_congr fun _ => and_congr_left' State.mem_drawCells)

theorem State.afterDraw_flag_eq_one : (s.afterDraw x y n).flag = 1 ↔ ∃ o, Covers s x y n o ∧ s.pixel o = 1 := by
  rw [State.afterDraw_flag, flagByte_eq_one, State.draw_hit hd]

theorem State.afterDraw_flag_eq_zero : (s.afterDraw x y n).flag = 0 ↔ ∀ o, Covers s x y n o → s.pixel o ≠ 1 := by
  rw [State.afterDraw_flag, flagByte_eq_zero, ← Bool.not_eq_true, State.draw_hit hd]
  simp only [not_exists, not_and, ne_eq]

end

end

/-- Settles O19: the fault is the one that the check of the rows raises. -/
theorem drwXorsTheVisibleSpriteBits : Obligations.DrwXorsTheVisibleSpriteBits := by
  unfold Obligations.DrwXorsTheVisibleSpriteBits
  intro x y n s hd
  refine ⟨decodeOfEncodeIsTheInstruction s.config (.drw x y n), fun hread => ?_,
    fun f => (exec_fault (i := .drw x y n)).mpr⟩
  have h : exec (.drw x y n) s = .next (s.afterDraw x y n) := exec_drw_of_readable hread
  exact ⟨_, h, State.advance_pc_toNat _ 2, (exec_frame h).changesOnly, fun _ => State.afterDraw_pixel_of_covers hd,
    fun _ => State.afterDraw_pixel_of_not_covers hd, (State.afterDraw_flag_eq_one hd).mpr,
    (State.afterDraw_flag_eq_zero hd).mpr, rfl⟩

/-! The two clip modes. -/

/-- Left of column 64 a pixel's linear offset is in the display exactly when its row is (R112). -/
theorem visible_linear_eq_clipXy {cx cy : Nat} (hcx : cx < 64) : visible .linear cx cy = visible .clipXy cx cy := by
  rw [Bool.eq_iff_iff, visible_iff, visible_iff]
  show cy * 64 + cx ≤ 2047 ↔ cx < 64 ∧ cy < 32
  omega

/-- The set bits of a row drawn at column `vx` fall left of column 64. -/
def RowLeftOf64 (vx : Nat) (row : Byte) : Prop := ∀ c < 8, row.getLsbD (7 - c) = true → vx + c < 64

theorem rowCells_linear_eq_clipXy {vx cy : Nat} {row : Byte} (hrow : RowLeftOf64 vx row) :
    rowCells .linear vx cy row = rowCells .clipXy vx cy row := by
  unfold rowCells
  refine congrArg _ (List.filter_congr fun c hc => ?_)
  have hc8 : c < 8 := List.mem_range.mp (show c ∈ List.range 8 from hc)
  cases hbit : row.getLsbD (7 - c) with
  | false => rfl
  | true => rw [visible_linear_eq_clipXy (hrow c hc8 hbit)]

theorem spriteCells_linear_eq_clipXy {vx cy : Nat} {rows : List Byte} (hrows : ∀ row ∈ rows, RowLeftOf64 vx row) :
    spriteCells .linear vx cy rows = spriteCells .clipXy vx cy rows := by
  induction rows generalizing cy with
  | nil => rfl
  | cons row rest ih =>
    rw [List.forall_mem_cons] at hrows
    rw [spriteCells, spriteCells, rowCells_linear_eq_clipXy hrows.1, ih hrows.2]

/-- Settles O20: the draw toggles the same cells under both modes, for each of its rows lies left of column 64. -/
theorem clipModesAgreeLeftOfColumn64 : Obligations.ClipModesAgreeLeftOfColumn64 := by
  unfold Obligations.ClipModesAgreeLeftOfColumn64
  intro x y n s hleft
  have hrows : ∀ row ∈ s.spriteRows n, RowLeftOf64 (s.reg x).toNat row := fun row hmem c hc hbit => by
    obtain hvx | hbits := hleft
    · omega
    · obtain ⟨r, hr, rfl⟩ := List.mem_map.mp hmem
      exact hbits r c (List.mem_range.mp hr) hc hbit
  calc State.draw { s with config := { s.config with drawClip := .linear } } x y n
      = (spriteCells .linear (s.reg x).toNat (s.reg y).toNat (s.spriteRows n)).foldl Drawing.toggle ⟨s.disp, false⟩ :=
        Drawing.rows_eq ..
    _ = (spriteCells .clipXy (s.reg x).toNat (s.reg y).toNat (s.spriteRows n)).foldl Drawing.toggle ⟨s.disp, false⟩ := by
        rw [spriteCells_linear_eq_clipXy hrows]
    _ = State.draw { s with config := { s.config with drawClip := .clipXy } } x y n := (Drawing.rows_eq ..).symm

/-! The two consequences of R113. -/

/-- Settles O21: after `CLS` every pixel is 0, so a covered one becomes 1 and none collides. -/
theorem clsThenDrwShowsExactlyTheSprite : Obligations.ClsThenDrwShowsExactlyTheSprite := by
  unfold Obligations.ClsThenDrwShowsExactlyTheSprite
  intro x y n s hread
  obtain ⟨u, hu⟩ : ∃ u, exec .cls s = .next u := ⟨_, rfl⟩
  have hf : Frame [] [.display, .redraw] s u := exec_frame hu
  have hblank : ∀ o, u.pixel o = 0 := by cases hu; exact fun _ => rfl
  have hd : Bitmap.wf u.disp = true := by cases hu; exact Bitmap.wf_nil
  have hcov : ∀ o, Covers u x y n o ↔ Covers s x y n o := fun o =>
    hf.covers_iff (by decide) (by decide) (hf.reg x List.not_mem_nil) (hf.reg y List.not_mem_nil)
  refine ⟨u, u.afterDraw x y n, hu, exec_drw_of_readable ((hf.readable_iff (by decide)).mpr hread), fun o ho => ?_,
    fun o ho => ?_, (State.afterDraw_flag_eq_zero hd).mpr fun o _ => ?_⟩
  · rw [State.afterDraw_pixel_of_covers hd ((hcov o).mpr ho), hblank]; rfl
  · rw [State.afterDraw_pixel_of_not_covers hd (mt (hcov o).mp ho), hblank]
  · rw [hblank]; decide

/-- Settles O22: the second draw covers the cells of the first, and XORs each of them with 1 again. -/
theorem drwTwiceRestoresTheDisplay : Obligations.DrwTwiceRestoresTheDisplay := by
  unfold Obligations.DrwTwiceRestoresTheDisplay
  intro x y n s u hd hu hx hy
  have hf : Frame [flagReg] [.display, .redraw] s u := exec_frame hu
  have hd' : Bitmap.wf u.disp = true := exec_display_wf hd hu
  have hcov : ∀ o, Covers u x y n o ↔ Covers s x y n o := fun o => hf.covers_iff (by decide) (by decide) hx hy
  obtain ⟨hread, rfl⟩ := exec_drw_next.mp hu
  refine ⟨_, exec_drw_of_readable ((hf.readable_iff (by decide)).mpr hread), fun o => ?_,
    fun ⟨o, ho, hone⟩ => (State.afterDraw_flag_eq_one hd').mpr ⟨o, (hcov o).mpr ho, hone⟩,
    fun hzero => (State.afterDraw_flag_eq_zero hd').mpr fun o ho => ?_⟩
  · by_cases ho : Covers s x y n o
    · rw [State.afterDraw_pixel_of_covers hd' ((hcov o).mpr ho), State.afterDraw_pixel_of_covers hd ho, BitVec.xor_assoc,
        BitVec.xor_self, BitVec.xor_zero]
    · rw [State.afterDraw_pixel_of_not_covers hd' (mt (hcov o).mp ho), State.afterDraw_pixel_of_not_covers hd ho]
  · rw [hzero o ((hcov o).mp ho)]; decide

end Sys2Proof.Machine
end

section
/-! Control transfer: the jumps, `CALL` and `RET` on the call stack, that a `RET` resumes after its `CALL`, and the skips (R120 to R129,
R203, R204). -/

namespace Sys2Proof.Machine

/-! The words whose ignored nibble decode accepts. -/

section
variable {cfg : Config} {x y n : Nibble}

/-- `0XEE` is `RET` wherever decode accepts its ignored nibble (R74, R75). -/
theorem decode_ret (hok : ignoredOk cfg x = true) : decode cfg (wordXNN 0x0 x 0xEE) = .instr .ret := by
  have hNN : (0xEE : Byte) ≠ 0xE0#8 := by decide
  rw [decode_family_0 cfg (fieldF_wordXNN _ _ _), decodeFamily0, fieldX_wordXNN, fieldNN_wordXNN, if_neg fun h => hNN h.2,
    if_pos ⟨hok, rfl⟩]

/-- `5XYN` is `SE Vx, Vy` wherever decode accepts its ignored nibble (R74, R75). -/
theorem decode_seReg (hok : ignoredOk cfg n = true) : decode cfg (wordXYN 0x5 x y n) = .instr (.seReg x y) := by
  rw [decode_family_5 cfg (fieldF_wordXYN _ _ _ _), fieldN_wordXYN, if_pos hok, fieldX_wordXYN, fieldY_wordXYN]

/-- `9XYN` is `SNE Vx, Vy` wherever decode accepts its ignored nibble (R74, R75). -/
theorem decode_sneReg (hok : ignoredOk cfg n = true) : decode cfg (wordXYN 0x9 x y n) = .instr (.sneReg x y) := by
  rw [decode_family_9 cfg (fieldF_wordXYN _ _ _ _), fieldN_wordXYN, if_pos hok, fieldX_wordXYN, fieldY_wordXYN]

end

/-! `CALL` and `RET`. -/

/-- The state that a completed `CALL` answers, with `k` slots in use before it (R123). -/
def State.afterCall (s : State) (k : Fin 16) (nnn : Addr12) : State :=
  (s.setStack k.succ (s.stack.set k s.pc)).setPc (addrOf nnn)

/-- The state that a completed `RET` answers, with `k` slots in use after it (R121, D40). -/
def State.afterRet (s : State) (k : Fin 16) : State := (s.setStack k.castSucc s.stack).setPc (s.stack[k] + 2)

section
variable {s t : State} {k : Fin 16} {nnn : Addr12}

/-- `CALL` completes exactly with a slot free (R123). -/
theorem exec_call_next : exec (.call nnn) s = .next t ↔ ∃ k : Fin 16, s.sp.val = k.val ∧ s.afterCall k nnn = t := by
  refine execCall_next.trans ⟨?_, ?_⟩
  · rintro ⟨u, hpush, rfl⟩
    obtain ⟨hlt, rfl⟩ := State.push_some.mp hpush
    exact ⟨⟨s.sp.val, hlt⟩, rfl, rfl⟩
  · rintro ⟨⟨_, hlt⟩, rfl, rfl⟩
    exact ⟨_, State.push_some.mpr ⟨hlt, rfl⟩, rfl⟩

/-- `RET` completes exactly with a slot in use (R121). -/
theorem exec_ret_next : exec .ret s = .next t ↔ ∃ k : Fin 16, s.sp.val = k.val + 1 ∧ s.afterRet k = t := by
  refine execRet_next.trans ⟨?_, ?_⟩
  · rintro ⟨a, u, hpop, rfl⟩
    obtain ⟨hpos, rfl, rfl⟩ := State.pop_some.mp hpop
    exact ⟨⟨s.sp.val - 1, by omega⟩, (Nat.sub_add_cancel hpos).symm, rfl⟩
  · rintro ⟨⟨j, hj⟩, hsp, rfl⟩
    obtain rfl : s.sp.val - 1 = j := by rw [hsp]; rfl
    exact ⟨_, _, State.pop_some.mpr ⟨by omega, rfl, rfl⟩, rfl⟩

theorem exec_call_of_sp (hk : s.sp.val = k.val) : exec (.call nnn) s = .next (s.afterCall k nnn) :=
  exec_call_next.mpr ⟨k, hk, rfl⟩

theorem exec_ret_of_sp (hk : s.sp.val = k.val + 1) : exec .ret s = .next (s.afterRet k) := exec_ret_next.mpr ⟨k, hk, rfl⟩

variable (s k nnn)

/-- The pushed slot holds the `CALL`'s own address (R123). -/
theorem State.afterCall_slot : (s.afterCall k nnn).stack[k] = s.pc := Vector.getElem_set_self k.isLt

/-- `pc` after a `RET` is two bytes past the popped address (R121). -/
theorem State.afterRet_pc_toNat : (s.afterRet k).pc.toNat = (s.stack[k].toNat + 2) % 65536 := BitVec.toNat_add _ _

variable {k}

/-- A push leaves every slot but its own (R123). -/
theorem State.afterCall_other_slot {j : Fin 16} (hj : j ≠ k) : (s.afterCall k nnn).stack[j] = s.stack[j] :=
  Vector.getElem_set_ne k.isLt j.isLt fun h => hj (Fin.ext h).symm

end

/-- An address immediate needs no wrap as a target (R71, R24). -/
theorem addrOf_toNat_mod (nnn : Addr12) : (addrOf nnn).toNat = nnn.toNat % 65536 := by
  rw [addrOf_toNat, Nat.mod_eq_of_lt (nnn.isLt.trans (by decide))]

/-- Settles O24: the slot that the push writes is its own, and every other slot is left. -/
theorem callPushesItsOwnAddress : Obligations.CallPushesItsOwnAddress := by
  unfold Obligations.CallPushesItsOwnAddress
  intro nnn s
  refine ⟨decodeOfEncodeIsTheInstruction s.config (.call nnn), fun k hk => ?_, fun hfull =>
    (exec_fault (i := .call nnn)).mpr ⟨hfull, rfl⟩⟩
  have h : exec (.call nnn) s = .next (s.afterCall k nnn) := exec_call_of_sp hk
  exact ⟨_, h, addrOf_toNat_mod nnn, (exec_frame h).changesOnly, rfl, s.afterCall_slot k nnn,
    fun j hj => s.afterCall_other_slot nnn hj⟩

/-- Settles O25: the pop moves the stack pointer and leaves every slot. -/
theorem retReturnsPastThePoppedAddress : Obligations.RetReturnsPastThePoppedAddress := by
  unfold Obligations.RetReturnsPastThePoppedAddress
  intro x s
  refine ⟨fun hx => decode_ret (ignoredOk_iff.mpr hx), fun k hk => ?_, fun hempty =>
    (exec_fault (i := .ret)).mpr ⟨hempty, rfl⟩⟩
  have h : exec .ret s = .next (s.afterRet k) := exec_ret_of_sp hk
  exact ⟨_, h, s.afterRet_pc_toNat k, (exec_frame h).changesOnly, rfl, rfl⟩

/-! A `RET` after its `CALL`. -/

section
variable {s t : State}

/-- An instruction leaves every slot in use: a `CALL` writes the first free one, and no other instruction writes a slot (R128, D40). -/
theorem exec_slot_in_use {i : Instr} (h : exec i s = .next t) {k : Fin 16} (hk : k.val < s.sp.val) : t.stack[k] = s.stack[k] := by
  by_cases hp : Part.stack ∈ writtenParts i
  · obtain rfl | ⟨nnn, rfl⟩ := stack_mem_writtenParts.mp hp
    · obtain ⟨j, -, rfl⟩ := exec_ret_next.mp h
      rfl
    · obtain ⟨j, hj, rfl⟩ := exec_call_next.mp h
      exact s.afterCall_other_slot nnn (Fin.ne_of_lt (by omega))
  · have hstack : t.stack = s.stack := congrArg Prod.snd ((exec_frame h).part _ hp)
    rw [hstack]

theorem State.endStep_stack (s : State) : s.endStep.stack = s.stack := by rw [State.endStep_eq]

/-- A step leaves every slot in use (R128). -/
theorem step_slot_in_use (h : step s = .next t) {k : Fin 16} (hk : k.val < s.sp.val) : t.stack[k] = s.stack[k] := by
  obtain ⟨-, w, -, ⟨i, u, -, hu, rfl⟩ | ⟨nnn, u, -, hu, rfl⟩⟩ := step_next.mp h
  · rw [State.endStep_stack]; exact exec_slot_in_use hu hk
  · cases hu; rw [State.endStep_stack, State.advance_stack]

end

/-- Settles O26: the `RET` pops the slot that holds the `CALL`'s address, and no step writes a slot in use. -/
theorem callThenRetResumesAfterTheCall : Obligations.CallThenRetResumesAfterTheCall := by
  unfold Obligations.CallThenRetResumesAfterTheCall
  refine ⟨fun nnn s hfree => ?_, fun s t h k hk _ => step_slot_in_use h hk⟩
  obtain ⟨k, hk⟩ : ∃ k : Fin 16, s.sp = k.castSucc := ⟨⟨s.sp.val, hfree⟩, rfl⟩
  have hsp : s.sp.val = k.val := congrArg Fin.val hk
  refine ⟨_, exec_call_of_sp hsp, fun v hv hslot => ⟨_, exec_ret_of_sp (k := k) (congrArg Fin.val hv), ?_, hk.symm⟩⟩
  rw [State.afterRet_pc_toNat, hslot k hsp.symm, State.afterCall_slot]

/-! Jumps. -/

/-- An address immediate plus a register's value stays below 2^16 (R129, D36). -/
theorem addr_add_byte_lt (nnn : Addr12) (v : Byte) : nnn.toNat + v.toNat < 65536 := by
  have := nnn.isLt
  have := v.isLt
  omega

/-- Settles O23: neither sum reaches 2^16, so neither target wraps. -/
theorem jumpsWriteTheirTarget : Obligations.JumpsWriteTheirTarget := by
  unfold Obligations.JumpsWriteTheirTarget
  intro nnn s
  have hV0 : (s.jumpV0Target nnn).toNat = _ := s.jumpV0Target_toNat nnn
  exact ⟨decodeOfEncodeIsTheInstruction s.config (.jp nnn), decodeOfEncodeIsTheInstruction s.config (.jpV0 nnn),
    ⟨_, rfl, addrOf_toNat_mod nnn, (s.setPc_frame _).changesOnly, addrOf_toNat nnn⟩,
    ⟨_, rfl, hV0, (s.setPc_frame _).changesOnly, hV0.trans (Nat.mod_eq_of_lt (addr_add_byte_lt _ _))⟩⟩

/-! Skips. -/

/-- An instruction that only skips completes with `pc` 4 on where its condition holds and 2 on elsewhere (R96). -/
theorem skipIf_completes {i : Instr} {s : State} {c : Bool} {P : Prop} [Decidable P] (h : exec i s = .next (s.skipIf c))
    (hc : c = true ↔ P) : Completes i s (s.pc.toNat + if P then 4 else 2) [] [] fun _ => True :=
  ⟨_, h, by rw [State.skipIf_pc_toNat, if_congr hc rfl rfl], (s.skipIf_frame c).changesOnly, trivial⟩

/-- Settles O27: each is a skip on the comparison with the immediate. -/
theorem immediateSkipsAdvanceByFourOrTwo : Obligations.ImmediateSkipsAdvanceByFourOrTwo := by
  unfold Obligations.ImmediateSkipsAdvanceByFourOrTwo
  exact fun x nn s => ⟨decodeOfEncodeIsTheInstruction s.config (.seImm x nn),
    decodeOfEncodeIsTheInstruction s.config (.sneImm x nn), skipIf_completes rfl beq_iff_eq, skipIf_completes rfl bne_iff_ne⟩

/-- Settles O28: each is a skip on the comparison of the two registers. -/
theorem registerSkipsAdvanceByFourOrTwo : Obligations.RegisterSkipsAdvanceByFourOrTwo := by
  unfold Obligations.RegisterSkipsAdvanceByFourOrTwo
  exact fun x y n s => ⟨fun hn => ⟨decode_seReg (ignoredOk_iff.mpr hn), decode_sneReg (ignoredOk_iff.mpr hn)⟩,
    skipIf_completes rfl beq_iff_eq, skipIf_completes rfl bne_iff_ne⟩

end Sys2Proof.Machine
end

section
/-! Registers and ALU: the loads and the logical operations, which write one register, and the five instructions that write a result and
a flag, whose two writes come in the order of VF_ALIAS_ORDER (R140 to R151). -/

namespace Sys2Proof.Machine

/-- An instruction that ends by advancing `pc` by 2 completes there, with the frame listed for it (R24, R91). -/
theorem completes_of_advance {i : Instr} {s u : State} {P : State → Prop} (h : exec i s = .next (u.advance 2)) (hpc : u.pc = s.pc)
    (hP : P (u.advance 2)) : Completes i s (s.pc.toNat + 2) (writtenRegs i) (writtenParts i) P :=
  ⟨_, h, by rw [State.advance_pc_toNat, hpc], (exec_frame h).changesOnly, hP⟩

/-! One register, no flag. -/

/-- Settles O29: the one register written reads as the value of its rule. -/
theorem loadsAndAddImmediateWriteOneRegister : Obligations.LoadsAndAddImmediateWriteOneRegister := by
  unfold Obligations.LoadsAndAddImmediateWriteOneRegister
  intro x y nn s
  refine ⟨decodeOfEncodeIsTheInstruction s.config (.ldImm x nn), decodeOfEncodeIsTheInstruction s.config (.addImm x nn),
    decodeOfEncodeIsTheInstruction s.config (.ldReg x y), completes_of_advance rfl rfl (s.reg_setReg_same x nn),
    completes_of_advance rfl rfl ?_, completes_of_advance rfl rfl (s.reg_setReg_same x (s.reg y))⟩
  rw [State.reg_advance, State.reg_setReg_same, BitVec.toNat_add]

/-- Settles O30: bit `b` of the register written is the connective of the two bits `b`. -/
theorem logicalOperationsActBitwise : Obligations.LogicalOperationsActBitwise := by
  unfold Obligations.LogicalOperationsActBitwise
  intro x y s
  refine ⟨decodeOfEncodeIsTheInstruction s.config (.orReg x y), decodeOfEncodeIsTheInstruction s.config (.andReg x y),
    decodeOfEncodeIsTheInstruction s.config (.xorReg x y), completes_of_advance rfl rfl fun b => ?_,
    completes_of_advance rfl rfl fun b => ?_, completes_of_advance rfl rfl fun b => ?_⟩
  · rw [State.reg_advance, State.reg_setReg_same, BitVec.getLsbD_or, Bool.or_eq_true]
  · rw [State.reg_advance, State.reg_setReg_same, BitVec.getLsbD_and, Bool.and_eq_true]
  · rw [State.reg_advance, State.reg_setReg_same, BitVec.getLsbD_xor, Bool.xor_iff_ne, ne_eq, Bool.eq_iff_iff]
    exact not_iff.trans (iff_comm.trans iff_not_comm)

/-! A result and a flag. -/

section
variable {s : State} {x src : Nibble} {flag op : Byte → Byte → Byte} {flagNat opNat : Nat → Nat → Nat}

/-- The flag-and-result writes have the outcome that R140 gives their two functions as numbers. -/
theorem State.writeFlagged_outcome (hflag : ∀ a b, (flag a b).toNat = flagNat a.toNat b.toNat)
    (hop : ∀ a b, (op a b).toNat = opNat a.toNat b.toNat) :
    FlaggedOutcome s ((s.writeFlagged x src flag op).advance 2) x src flagNat opNat := by
  unfold FlaggedOutcome
  rw [State.flag_advance, State.reg_advance, State.flag, State.reg_writeFlagged, State.reg_writeFlagged]
  cases s.config.vfAliasOrder with
  | sequential =>
    refine ⟨fun h => ?_, ?_⟩
    · have hne : flagReg ≠ x := h.symm
      simp only [if_neg hne, if_true, hflag]
    · simp only [if_true, hop]
      rw [apply_ite BitVec.toNat, apply_ite BitVec.toNat, hflag]
      rfl
  | flagLast =>
    refine ⟨?_, fun h => ?_⟩
    · simp only [if_true, hflag]
    · have hne : x ≠ flagReg := h
      simp only [if_neg hne, if_true, hop]

theorem writeFlagged_completes {i : Instr} (h : exec i s = .next ((s.writeFlagged x src flag op).advance 2))
    (hflag : ∀ a b, (flag a b).toNat = flagNat a.toNat b.toNat) (hop : ∀ a b, (op a b).toNat = opNat a.toNat b.toNat) :
    Completes i s (s.pc.toNat + 2) (writtenRegs i) (writtenParts i) fun t => FlaggedOutcome s t x src flagNat opNat :=
  completes_of_advance h (s.writeFlagged_pc x src flag op) (State.writeFlagged_outcome hflag hop)

end

/-! The flags and the results as numbers. -/

section
variable (a b : Byte)

theorem flagByte_toNat (c : Bool) : (flagByte c).toNat = if c then 1 else 0 := by cases c <;> rfl

theorem carryFlag_toNat : (carryFlag a b).toNat = if a.toNat + b.toNat > 255 then 1 else 0 := by
  simp only [carryFlag, flagByte_toNat, decide_eq_true_eq, gt_iff_lt]

theorem subFlag_toNat : (subFlag a b).toNat = if b.toNat > a.toNat then 0 else 1 := by
  simp only [subFlag, flagByte_toNat, Bool.not_eq_true', decide_eq_false_iff_not, ite_not, gt_iff_lt]

/-- `SUBN` borrows where `SUB` of the exchanged operands does (R149, D41). -/
theorem subnFlag_toNat : (subnFlag a b).toNat = if a.toNat > b.toNat then 0 else 1 := subFlag_toNat b a

theorem shrFlag_toNat : (shrFlag a b).toNat = b.toNat % 2 := by
  rw [shrFlag, flagByte_toNat, BitVec.getLsbD, Nat.testBit_zero, if_congr decide_eq_true_iff rfl rfl]
  split <;> omega

/-- Bit 7 of a byte is its quotient by 128 (R151). -/
theorem shlFlag_toNat : (shlFlag a b).toNat = b.toNat / 128 := by
  have := b.isLt
  rw [shlFlag, flagByte_toNat, BitVec.getLsbD, Nat.testBit_eq_decide_div_mod_eq, if_congr decide_eq_true_iff rfl rfl]
  split <;> omega

theorem byte_sub_toNat : (a - b).toNat = (a.toNat + 256 - b.toNat) % 256 := by
  have := b.isLt
  rw [BitVec.toNat_sub]
  omega

theorem byte_shr_one_toNat : (b >>> 1).toNat = b.toNat / 2 := by
  rw [BitVec.toNat_ushiftRight, Nat.shiftRight_eq_div_pow]

theorem byte_shl_one_toNat : (b <<< 1).toNat = b.toNat * 2 % 256 := by
  rw [BitVec.toNat_shiftLeft, Nat.shiftLeft_eq]

end

/-- Settles O31: each is a flag-and-result write whose two functions are those of its rule. -/
theorem addSubSubnWriteFlagAndResult : Obligations.AddSubSubnWriteFlagAndResult := by
  unfold Obligations.AddSubSubnWriteFlagAndResult
  intro x y s
  exact ⟨decodeOfEncodeIsTheInstruction s.config (.addReg x y), decodeOfEncodeIsTheInstruction s.config (.sub x y),
    decodeOfEncodeIsTheInstruction s.config (.subn x y), writeFlagged_completes rfl carryFlag_toNat BitVec.toNat_add,
    writeFlagged_completes rfl subFlag_toNat byte_sub_toNat,
    writeFlagged_completes rfl subnFlag_toNat fun a b => byte_sub_toNat b a⟩

/-! The shifted register. -/

/-- The two premises on `S` determine it (R150, D10). -/
theorem State.shiftReg_eq {s : State} {x y S : Nibble} (hx : s.config.shiftSource = .vx → S = x)
    (hy : s.config.shiftSource = .vy → S = y) : s.shiftReg x y = S := by
  unfold State.shiftReg
  cases hsource : s.config.shiftSource with
  | vx => exact (hx hsource).symm
  | vy => exact (hy hsource).symm

theorem State.shiftReg_ne {s : State} {x y r : Nibble} (hx : x ≠ r) (hy : y ≠ r) : s.shiftReg x y ≠ r := by
  unfold State.shiftReg
  cases s.config.shiftSource with
  | vx => exact hx
  | vy => exact hy

/-- Settles O32: each is a flag-and-result write on the shifted register. -/
theorem shiftsWriteTheBitShiftedOut : Obligations.ShiftsWriteTheBitShiftedOut := by
  unfold Obligations.ShiftsWriteTheBitShiftedOut
  intro x y S s hx hy
  obtain rfl := State.shiftReg_eq hx hy
  exact ⟨decodeOfEncodeIsTheInstruction s.config (.shr x y), decodeOfEncodeIsTheInstruction s.config (.shl x y),
    writeFlagged_completes rfl shrFlag_toNat fun _ => byte_shr_one_toNat,
    writeFlagged_completes rfl shlFlag_toNat fun _ => byte_shl_one_toNat⟩

/-! The two orders. -/

/-- The state with another VF_ALIAS_ORDER. -/
def State.withOrder (s : State) (o : VfAliasOrder) : State := { s with config := { s.config with vfAliasOrder := o } }

section
variable {s : State} {x src : Nibble} {flag op : Byte → Byte → Byte}

/-- Writes to two different registers commute. -/
theorem State.setReg_comm {r : Nibble} (h : x ≠ r) (v w : Byte) : (s.setReg x v).setReg r w = (s.setReg r w).setReg x v := by
  have hV : (s.V.set x.toNat v x.isLt).set r.toNat w r.isLt = (s.V.set r.toNat w r.isLt).set x.toNat v x.isLt :=
    Vector.set_comm v w fun heq => h (BitVec.eq_of_toNat_eq heq)
  simp only [State.setReg, hV]

/-- Away from VF the re-reads of `sequential` see the old values, so both orders write the same two values (R140). -/
theorem State.writeFlagged_of_ne (hx : x ≠ flagReg) (hsrc : src ≠ flagReg) : s.writeFlagged x src flag op =
    (s.setReg x (op (s.reg x) (s.reg src))).setReg flagReg (flag (s.reg x) (s.reg src)) := by
  unfold State.writeFlagged
  cases s.config.vfAliasOrder with
  | sequential =>
    simp only [State.reg_setReg_other s hx, State.reg_setReg_other s hsrc]
    exact State.setReg_comm hx.symm _ _
  | flagLast => rfl

/-- Away from VF a flag-writing instruction completes alike under both orders (R140, R237). -/
theorem exec_withOrder_agree {i : Instr}
    (h : ∀ o, exec i (s.withOrder o) = .next (((s.withOrder o).writeFlagged x src flag op).advance 2))
    (hx : x ≠ flagReg) (hsrc : src ≠ flagReg) :
    ∃ t t', exec i (s.withOrder .sequential) = .next t ∧ exec i (s.withOrder .flagLast) = .next t' ∧
      { t with config := s.config } = { t' with config := s.config } := by
  refine ⟨_, _, h .sequential, h .flagLast, ?_⟩
  rw [State.writeFlagged_of_ne hx hsrc, State.writeFlagged_of_ne hx hsrc]
  rfl

end

/-- Settles O33: neither the destination nor the operand register of the five is VF. -/
theorem flagOrdersAgreeAwayFromVF : Obligations.FlagOrdersAgreeAwayFromVF := by
  unfold Obligations.FlagOrdersAgreeAwayFromVF
  intro x y s i hx hy hi
  have hshift : s.shiftReg x y ≠ flagReg := State.shiftReg_ne hx hy
  simp only [List.mem_cons, List.not_mem_nil, or_false] at hi
  obtain rfl | rfl | rfl | rfl | rfl := hi
  · exact exec_withOrder_agree (fun _ => rfl) hx hy
  · exact exec_withOrder_agree (fun _ => rfl) hx hy
  · exact exec_withOrder_agree (fun _ => rfl) hx hy
  · exact exec_withOrder_agree (src := s.shiftReg x y) (fun _ => rfl) hx hshift
  · exact exec_withOrder_agree (src := s.shiftReg x y) (fun _ => rfl) hx hshift

end Sys2Proof.Machine
end

section
/-! Address register and memory: the writers of `I`, the checked accesses at `I`, what `LD B`, the block store and the block load
leave, and the two ways of reading after a block store (R160 to R165). -/

namespace Sys2Proof.Machine

/-! The writers of `I`. -/

theorem addIFlag_toNat (i : Word) (v : Byte) : (addIFlag i v).toNat = if i.toNat + v.toNat > 0xFFF then 1 else 0 := by
  rw [addIFlag, flagByte_toNat]
  exact if_congr decide_eq_true_iff rfl rfl

/-- Five times a byte stays below 2^16, so the glyph address does not wrap (R162, D37). -/
theorem glyphAddr_toNat (v : Byte) : (glyphAddr v).toNat = v.toNat * 5 := by
  have := v.isLt
  exact Nat.mod_eq_of_lt (by omega)

/-- Settles O34: `ADD I` computes its sum and its flag from the old values, so that X = 0xF is no special case. -/
theorem addressRegisterInstructionsWriteI : Obligations.AddressRegisterInstructionsWriteI := by
  unfold Obligations.AddressRegisterInstructionsWriteI
  intro x nnn s
  have hsum : (BitVec.ofNat 16 (addISum s.I (s.reg x))).toNat = (s.I.toNat + (s.reg x).toNat) % 65536 := BitVec.toNat_ofNat _ _
  refine ⟨decodeOfEncodeIsTheInstruction s.config (.ldI nnn), decodeOfEncodeIsTheInstruction s.config (.addI x),
    completes_of_advance rfl rfl (addrOf_toNat nnn), completes_of_advance rfl rfl ⟨hsum, ?_⟩⟩
  rw [State.flag_advance, State.flag_setReg_flag, addIFlag_toNat]

/-- Settles O35: the glyph address does not wrap. -/
theorem ldFPointsAtTheGlyph : Obligations.LdFPointsAtTheGlyph := by
  unfold Obligations.LdFPointsAtTheGlyph
  exact fun x s => ⟨decodeOfEncodeIsTheInstruction s.config (.ldF x), completes_of_advance rfl rfl (glyphAddr_toNat _)⟩

/-! Accesses at `I`. -/

section
variable {s : State} {x : Nibble} {n : Nat}

/-- A write at `I` passes its check when all its addresses exist and may be written (R53, R54). -/
theorem memCheck_write_none_iff : memCheck s.config .write s.base n = none ↔ Writable s n := by
  simp only [memCheck_none, addressFault_passes, forall_const, Writable, State.base]

theorem Writable.readable (hw : Writable s n) : Readable s n := fun k hk => (hw k hk).1

/-- What may be written ends inside the address space (R53). -/
theorem Writable.end_le (hw : Writable s (n + 1)) : s.base + (n + 1) ≤ memSize :=
  (memCheck_write_none n.succ_pos (memCheck_write_none_iff.mpr hw)).1

/-- A stored byte is read back where it went (R53, R61). -/
theorem State.byteAt_storeBytes_stored (hm : Memory.wf s.config s.mem = true) {a : Nat} {vs : List Byte}
    (ha : a + vs.length ≤ memSize) {k : Nat} (hk : k < vs.length) : (s.storeBytes a vs).byteAt (a + k) = vs[k] := by
  rw [State.byteAt_storeBytes hm ha, if_pos (Nat.le_add_right a k), Nat.add_sub_cancel_left, List.getD_eq_getElem _ _ hk]

end

/-! The three digits. -/

@[simp] theorem bcdDigits_length (v : Byte) : (bcdDigits v).length = 3 := rfl

/-- Each digit fits its byte (R163). -/
theorem bcdDigits_toNat (v : Byte) : (bcdDigits v)[0].toNat = v.toNat / 100 ∧ (bcdDigits v)[1].toNat = v.toNat / 10 % 10 ∧
    (bcdDigits v)[2].toNat = v.toNat % 10 := by
  have := v.isLt
  exact ⟨Nat.mod_eq_of_lt (by omega), Nat.mod_eq_of_lt (by omega), Nat.mod_eq_of_lt (by omega)⟩

section
variable {s : State} {x : Nibble}

/-- The state that a completed `LD B` answers (R163). -/
def State.afterDigits (s : State) (x : Nibble) : State := (s.storeBytes s.base (bcdDigits (s.reg x))).advance 2

theorem exec_ldB_of_writable (hw : Writable s 3) : exec (.ldB x) s = .next (s.afterDigits x) :=
  checked_next.mpr ⟨memCheck_write_none_iff.mpr hw, rfl⟩

/-- After `LD B` the byte at `I + k` is digit `k` (R163). -/
theorem State.afterDigits_byteAt (hm : Memory.wf s.config s.mem = true) (hw : Writable s 3) {k : Nat}
    (hk : k < 3) : (s.afterDigits x).byteAt (s.base + k) = (bcdDigits (s.reg x))[k] :=
  State.byteAt_storeBytes_stored hm hw.end_le hk

/-- `LD B` leaves every byte outside its three (R61, R163). -/
theorem State.afterDigits_byteAt_outside (hm : Memory.wf s.config s.mem = true) (hw : Writable s 3) {a : Nat}
    (ha : a < s.base ∨ s.base + 3 ≤ a) : (s.afterDigits x).byteAt a = s.byteAt a :=
  State.byteAt_storeBytes_outside hm hw.end_le ha

end

/-- Settles O36: the bytes at `I` are the three digits, and a failing address is what the check of the three raises. -/
theorem ldBStoresThreeDecimalDigits : Obligations.LdBStoresThreeDecimalDigits := by
  unfold Obligations.LdBStoresThreeDecimalDigits
  intro x s hm
  refine ⟨decodeOfEncodeIsTheInstruction s.config (.ldB x), fun hw => ?_, fun f => (exec_fault (i := .ldB x)).mpr⟩
  have hbyte {k : Nat} (hk : k < 3) := State.afterDigits_byteAt (x := x) hm hw hk
  obtain ⟨hhundreds, htens, hones⟩ := bcdDigits_toNat (s.reg x)
  refine completes_of_advance (exec_ldB_of_writable hw) (s.storeBytes_pc _ _)
    ⟨?_, ?_, ?_, fun a ha => State.afterDigits_byteAt_outside hm hw ha⟩
  · exact (congrArg BitVec.toNat (hbyte (k := 0) (by decide))).trans hhundreds
  · exact (congrArg BitVec.toNat (hbyte (k := 1) (by decide))).trans htens
  · exact (congrArg BitVec.toNat (hbyte (k := 2) (by decide))).trans hones

/-! The block store. -/

/-- The post-increment wraps modulo 2^16 (R27, R164, R165). -/
theorem State.bumpI_I_toNat (s : State) (x : Nibble) : (s.bumpI x).I.toNat = (s.I.toNat + x.toNat + 1) % 65536 :=
  BitVec.toNat_ofNat _ _

@[simp] theorem State.storeBytes_I (s : State) (a : Nat) (vs : List Byte) : (s.storeBytes a vs).I = s.I := by
  rw [State.storeBytes_eq_setMem]; rfl

section
variable {s : State} {x : Nibble}

/-- The state that a completed block store answers (R164). -/
def State.afterBlockStore (s : State) (x : Nibble) : State := ((s.storeBytes s.base (s.regsUpTo x)).bumpI x).advance 2

theorem exec_ldMemVx_of_writable (hw : Writable s (x.toNat + 1)) : exec (.ldMemVx x) s = .next (s.afterBlockStore x) :=
  checked_next.mpr ⟨memCheck_write_none_iff.mpr hw, rfl⟩

/-- The post-increment of the block store (R164). -/
theorem State.afterBlockStore_I_toNat (s : State) (x : Nibble) :
    (s.afterBlockStore x).I.toNat = (s.I.toNat + x.toNat + 1) % 65536 := by
  rw [State.afterBlockStore, State.advance_I, State.bumpI_I_toNat, State.storeBytes_I]

/-- A block store leaves every byte outside its block (R61, R164). -/
theorem State.afterBlockStore_byteAt_outside (hm : Memory.wf s.config s.mem = true) (hw : Writable s (x.toNat + 1)) {a : Nat}
    (ha : a < s.base ∨ s.base + (x.toNat + 1) ≤ a) : (s.afterBlockStore x).byteAt a = s.byteAt a := by
  rw [← s.regsUpTo_length x] at ha
  exact State.byteAt_storeBytes_outside hm ((s.regsUpTo_length x).symm ▸ hw.end_le) ha

end

/-- Settles O37: the frame of the block store, its bytes inside and outside the block, and its post-increment. -/
theorem blockStoreStoresRegistersUpToX : Obligations.BlockStoreStoresRegistersUpToX := by
  unfold Obligations.BlockStoreStoresRegistersUpToX
  intro x s hm
  refine ⟨decodeOfEncodeIsTheInstruction s.config (.ldMemVx x), fun hw => ?_, fun f => (exec_fault (i := .ldMemVx x)).mpr⟩
  have h : exec (.ldMemVx x) s = .next (s.afterBlockStore x) := exec_ldMemVx_of_writable hw
  exact completes_of_advance h (s.storeBytes_pc _ _) ⟨fun r hr => byteAt_of_execLdMemVx hm h hr,
    fun a ha => State.afterBlockStore_byteAt_outside hm hw ha, s.afterBlockStore_I_toNat x⟩

/-! The block load. -/

@[simp] theorem State.loadRegs_I (s : State) (x : Nibble) : (s.loadRegs x).I = s.I := by
  obtain ⟨V, hV, -⟩ := s.loadRegs_spec x
  rw [hV]

section
variable {s : State} {x : Nibble}

/-- The state that a completed block load answers (R165). -/
def State.afterBlockLoad (s : State) (x : Nibble) : State := ((s.loadRegs x).bumpI x).advance 2

theorem exec_ldVxMem_of_readable (hr : Readable s (x.toNat + 1)) : exec (.ldVxMem x) s = .next (s.afterBlockLoad x) :=
  checked_next.mpr ⟨memCheck_read_none.mpr hr, rfl⟩

/-- The post-increment of the block load (R165). -/
theorem State.afterBlockLoad_I_toNat (s : State) (x : Nibble) :
    (s.afterBlockLoad x).I.toNat = (s.I.toNat + x.toNat + 1) % 65536 := by
  rw [State.afterBlockLoad, State.advance_I, State.bumpI_I_toNat, State.loadRegs_I]

/-- After a block load each register of the block holds its byte (R165). -/
theorem State.afterBlockLoad_reg (s : State) {r : Nibble} (hr : r.toNat ≤ x.toNat) :
    (s.afterBlockLoad x).reg r = s.byteAt (s.I.toNat + r.toNat) := by
  obtain ⟨V, hV, hreg⟩ := s.loadRegs_spec x
  rw [State.afterBlockLoad, hV]
  exact (hreg r).trans (if_pos hr)

end

/-- Settles O38: the frame of the block load, its registers, and its post-increment. -/
theorem blockLoadLoadsRegistersUpToX : Obligations.BlockLoadLoadsRegistersUpToX := by
  unfold Obligations.BlockLoadLoadsRegistersUpToX
  intro x s
  refine ⟨decodeOfEncodeIsTheInstruction s.config (.ldVxMem x), fun hr => ?_, fun f => (exec_fault (i := .ldVxMem x)).mpr⟩
  exact completes_of_advance (exec_ldVxMem_of_readable hr) (s.loadRegs_pc x)
    ⟨fun r hle => s.afterBlockLoad_reg hle, s.afterBlockLoad_I_toNat x⟩

/-! A block load after a block store. -/

/-- Settles O39: with `I` set back the load reads the block stored; with no reset it reads the next block, which the store left. No
increment wraps, since both blocks lie inside the address space. -/
theorem blockStoreThenLoadRoundTrips : Obligations.BlockStoreThenLoadRoundTrips := by
  unfold Obligations.BlockStoreThenLoadRoundTrips
  intro x s hm hw
  have hend : s.I.toNat + x.toNat + 1 ≤ 0x1000 := hw.end_le
  have hstore : exec (.ldMemVx x) s = .next (s.afterBlockStore x) := exec_ldMemVx_of_writable hw
  refine ⟨_, hstore, fun v hI hbytes => ?_, fun hr => ?_⟩
  · have hread : Readable v (x.toNat + 1) := fun k hk => hI ▸ hw.readable k hk
    refine ⟨_, exec_ldVxMem_of_readable hread, fun r hle => ?_, ?_⟩
    · rw [v.afterBlockLoad_reg hle, hbytes, hI, byteAt_of_execLdMemVx hm hstore hle]
    · rw [v.afterBlockLoad_I_toNat, hI]
      omega
  · have hI : (s.afterBlockStore x).I.toNat = s.I.toNat + (x.toNat + 1) := by
      rw [State.afterBlockStore_I_toNat]
      omega
    have hread : Readable (s.afterBlockStore x) (x.toNat + 1) := fun k hk => by
      have := hr (x.toNat + 1 + k) (by omega)
      omega
    refine ⟨_, exec_ldVxMem_of_readable hread, fun r hle => ?_, ?_⟩
    · rw [State.afterBlockLoad_reg _ hle, hI]
      exact State.afterBlockStore_byteAt_outside hm hw (.inr (Nat.le_add_right _ _))
    · rw [State.afterBlockLoad_I_toNat, hI]
      omega

end Sys2Proof.Machine
end

section
/-! Random, keypad and timers: the random byte under its mask, the key skips, the wait for a key, and the timer moves (R180 to R186). -/

namespace Sys2Proof.Machine

/-! The random byte. -/

/-- The step draws the host's byte where the host gave one (R12, D17). -/
theorem State.randomByte_of_rnd {s : State} {b : Byte} (hb : s.rnd = some b) : s.randomByte = b := by
  rw [State.randomByte, hb, Option.getD_some]

/-- Settles O41: the register holds the drawn byte AND the mask, so that only the first clause asks where the byte is from. -/
theorem rndMasksTheRandomByte : Obligations.RndMasksTheRandomByte := by
  unfold Obligations.RndMasksTheRandomByte
  intro x nn s
  have hreg : (s.setReg x (s.randomByte &&& nn)).reg x = s.randomByte &&& nn := s.reg_setReg_same x _
  refine ⟨decodeOfEncodeIsTheInstruction s.config (.rnd x nn), completes_of_advance rfl rfl
    ⟨fun b hb => ?_, ⟨s.randomByte, hreg⟩, fun k hk => ?_, rfl⟩⟩
  · rw [← State.randomByte_of_rnd hb]
    exact hreg
  · rw [State.reg_advance, State.reg_setDraws, hreg, BitVec.getLsbD_and, Bool.and_eq_true] at hk
    exact hk.2

/-! The key skips. -/

/-- A byte that is the number of a key reads whether that key's cell is 1 (R181, D19). -/
theorem State.keyPressed_of_toNat (s : State) {v : Byte} {k : Nibble} (hk : v.toNat = k.toNat) :
    s.keyPressed v = some (s.keyAt k == 1#8) := by
  have hv : v.setWidth 4 = k := BitVec.eq_of_toNat_eq (by rw [BitVec.toNat_setWidth, hk, Nat.mod_eq_of_lt k.isLt])
  exact State.keyPressed_some.mpr ⟨hk ▸ Nat.le_of_lt_succ k.isLt, by rw [hv]⟩

/-- Settles O42: each is a skip on the cell of the key named, and the index check is what raises. -/
theorem keySkipsReadTheNamedKey : Obligations.KeySkipsReadTheNamedKey := by
  unfold Obligations.KeySkipsReadTheNamedKey
  intro x s
  refine ⟨decodeOfEncodeIsTheInstruction s.config (.skp x), decodeOfEncodeIsTheInstruction s.config (.sknp x), fun k hk => ?_,
    fun hlarge => ⟨(exec_fault (i := .skp x)).mpr ⟨hlarge, rfl⟩, (exec_fault (i := .sknp x)).mpr ⟨hlarge, rfl⟩⟩⟩
  have hkey : s.keyPressed (s.reg x) = some (s.keyAt k == 1#8) := s.keyPressed_of_toNat hk
  exact ⟨skipIf_completes (execSkp_next.mpr ⟨_, hkey, rfl⟩) beq_iff_eq,
    skipIf_completes (execSknp_next.mpr ⟨_, hkey, rfl⟩) bne_iff_ne⟩

/-! The wait for a key. -/

section
variable {s : State} {x k : Nibble}

/-- The state that `LD Vx, K` answers with `k` the highest pressed key (R184). -/
def State.afterKey (s : State) (x k : Nibble) : State := ((s.setReg x (k.setWidth 8)).consumeKey k).advance 2

/-- With no key pressed `LD Vx, K` waits (R184). -/
theorem exec_ldVxK_of_no_key (hnone : ∀ k, s.keyAt k ≠ 1) : exec (.ldVxK x) s = .next s :=
  execLdVxK_next.mpr (.inl ⟨State.scanKeys_none.mpr hnone, rfl⟩)

theorem exec_ldVxK_of_highest_key (hk : s.keyAt k = 1) (hmax : ∀ j : Nibble, k.toNat < j.toNat → s.keyAt j ≠ 1) :
    exec (.ldVxK x) s = .next (s.afterKey x k) :=
  execLdVxK_next.mpr (.inr ⟨k, State.scanKeys_some.mpr ⟨hk, hmax⟩, rfl⟩)

variable (s x k)

/-- Consuming the key leaves the register that holds its number (R184, D20). -/
theorem State.afterKey_reg_toNat : ((s.afterKey x k).reg x).toNat = k.toNat := by
  have hreg : (s.afterKey x k).reg x = (s.setReg x (k.setWidth 8)).reg x :=
    (State.consumeKey_frame _ k).reg x List.not_mem_nil
  rw [hreg, State.reg_setReg_same, BitVec.toNat_setWidth_of_le (by decide)]

theorem State.afterKey_keyAt (r : Nibble) :
    (s.afterKey x k).keyAt r = if s.config.awaitKey = .clearSelected ∧ r = k then 0 else s.keyAt r :=
  (s.setReg x (k.setWidth 8)).keyAt_consumeKey k r

end

/-- Settles O43: the two answers of the scan; only the key found can be cleared, and only under clear_selected. -/
theorem awaitKeyTakesTheHighestPressedKey : Obligations.AwaitKeyTakesTheHighestPressedKey := by
  unfold Obligations.AwaitKeyTakesTheHighestPressedKey
  intro x s
  refine ⟨decodeOfEncodeIsTheInstruction s.config (.ldVxK x), fun hnone => ?_, fun k hk hmax => ?_⟩
  · exact ⟨s, exec_ldVxK_of_no_key hnone, (Nat.mod_eq_of_lt s.pc.isLt).symm, (Frame.refl s).changesOnly, trivial⟩
  · refine completes_of_advance (exec_ldVxK_of_highest_key hk hmax) (State.consumeKey_pc _ k)
      ⟨s.afterKey_reg_toNat x k, fun j hj => ?_, ?_⟩
    · exact (s.afterKey_keyAt x k j).trans (if_neg fun h => hj h.2)
    · refine (s.afterKey_keyAt x k k).trans ?_
      cases s.config.awaitKey with
      | none => exact if_neg fun h => nomatch h.1
      | clearSelected => exact if_pos ⟨rfl, rfl⟩

/-! The timer moves. -/

/-- Settles O44: each answers its copy, with no tick in it. -/
theorem timerMovesCopyBeforeTheTick : Obligations.TimerMovesCopyBeforeTheTick := by
  unfold Obligations.TimerMovesCopyBeforeTheTick
  exact fun x s => ⟨decodeOfEncodeIsTheInstruction s.config (.ldVxDt x), decodeOfEncodeIsTheInstruction s.config (.ldDtVx x),
    decodeOfEncodeIsTheInstruction s.config (.ldStVx x), completes_of_advance rfl rfl (s.reg_setReg_same x s.DT),
    completes_of_advance rfl rfl (State.advance_DT _ 2), completes_of_advance rfl rfl (State.advance_ST _ 2)⟩

end Sys2Proof.Machine
end

section
/-! Exceptions, timers and signals: the order in which a step checks, each instruction's own fault, the end-of-step tick over whole
steps, and who writes `redraw` and `beep` (R200 to R212, R220). -/

namespace Sys2Proof.Machine

/-! The faults of an instruction and of a step. -/

/-- Settles O11: an instruction is never refused, so where its rule raises nothing it completes. -/
theorem execFaultsExactlyAsItsRuleSays : Obligations.ExecFaultsExactlyAsItsRuleSays := by
  unfold Obligations.ExecFaultsExactlyAsItsRuleSays
  refine fun i s => ⟨fun f => exec_fault, fun hnone => ?_⟩
  cases h : exec i s with
  | next t => exact ⟨t, rfl⟩
  | fault f => exact absurd (exec_fault.mp h) (hnone f)
  | refused r => exact absurd h (exec_ne_refused i s r)

section
variable {s : State} {w : Word} {f : Fault}

/-- Fetch succeeds exactly where `pc` is fetchable, and reads the word there (R52, R55, R56). -/
theorem State.fetch_ok : s.fetch = .ok w ↔ Fetchable s ∧ WordAtPc s w := by
  refine ⟨fun h => ?_, fun ⟨hf, hw⟩ => State.fetch_of_wordAtPc hf hw⟩
  rw [State.fetch_spec] at h
  split_ifs at h with hodd hlow hhigh
  cases h
  have heven (hp : s.config.oddPc = .fault) : s.pc.toNat % 2 = 0 := Nat.mod_two_ne_one.mp fun hone => hodd ⟨hone, hp⟩
  exact ⟨⟨heven, Nat.not_le.mp hhigh⟩, wordOfBytes_toNat _ _⟩

/-- The faults of fetch: alignment first, then the lower of the two addresses that does not exist (R55, R56, R209). -/
theorem State.fetch_error : s.fetch = .error f ↔
    (s.pc.toNat % 2 = 1 ∧ s.config.oddPc = .fault ∧ f = .misalignedFetch s.pc) ∨
      (¬(s.pc.toNat % 2 = 1 ∧ s.config.oddPc = .fault) ∧ 0x1000 ≤ s.pc.toNat + 1 ∧
        f = .memoryOutOfRange (if 0x1000 ≤ s.pc.toNat then s.pc.toNat else s.pc.toNat + 1) .fetch) := by
  rw [State.fetch_spec, ← and_assoc]
  unfold memSize
  by_cases hodd : s.pc.toNat % 2 = 1 ∧ s.config.oddPc = .fault
  · simp [hodd, eq_comm (b := f)]
  rw [if_neg hodd]
  by_cases hlow : 0x1000 ≤ s.pc.toNat
  · simp [hodd, hlow, Nat.le_succ_of_le hlow, eq_comm (b := f)]
  by_cases hhigh : 0x1000 ≤ s.pc.toNat + 1
  · simp [hodd, hlow, hhigh, eq_comm (b := f)]
  · simp [hodd, hlow, hhigh]

/-- A decode failure carries the word and its family (R201). -/
theorem exists_undecodable_iff {cfg : Config} :
    (∃ v F, decode cfg w = .undecodable v F ∧ .decodeFailure v F = f) ↔
      decode cfg w = .undecodable w (fieldF w) ∧ f = .decodeFailure w (fieldF w) := by
  constructor
  · rintro ⟨v, F, hd, rfl⟩
    obtain ⟨⟨rfl, rfl⟩, -⟩ := decode_undecodable.mp hd
    exact ⟨hd, rfl⟩
  · rintro ⟨hd, rfl⟩
    exact ⟨_, _, hd, rfl⟩

end

/-- Settles O9: the status, then the fetch, then decode, then the instruction, each check by its own lemma. -/
theorem stepFaultsInTheOrderOfChecks : Obligations.StepFaultsInTheOrderOfChecks := by
  unfold Obligations.StepFaultsInTheOrderOfChecks
  intro s f
  simp only [step_fault, State.fetch_error, State.fetch_ok, exists_undecodable_iff, exec_fault, or_assoc, and_assoc, exists_and_left]

/-! The tick. -/

/-- The tick changes the two timers and `beep` (R210, R211). -/
theorem State.tick_frame (s : State) : Frame [] [.delay, .sound, .beep] s s.tick := by
  rw [State.tick_eq]
  refine ⟨rfl, rfl, rfl, fun _ _ => rfl, fun p hp => ?_⟩
  cases p with
  | delay | sound | beep => simp at hp
  | _ => rfl

/-- Settles O14: the end of a step is the tick but for the random byte. -/
theorem tickCountsTimersDownAndBeeps : Obligations.TickCountsTimersDownAndBeeps := by
  unfold Obligations.TickCountsTimersDownAndBeeps
  intro s
  obtain ⟨hDT, hST, hbeep, hpc, -, -⟩ := s.endStep_ticked
  exact ⟨hDT, hST, hbeep, hpc, s.tick_frame.changesOnly⟩

/-! A completed step is the body of its word's instruction, then the tick. -/

/-- What the word `w` decodes to takes `s` to `u`: an instruction's body, or that of `SYS` (R78, R93). -/
def BodyRuns (s : State) (w : Word) (u : State) : Prop :=
  (∃ i, decode s.config w = .instr i ∧ exec i s = .next u) ∨ ∃ nnn, decode s.config w = .sys nnn ∧ execSys nnn s = .next u

section
variable {s t u : State} {w : Word}

theorem step_bodyRuns_ticked (hw : WordAtPc s w) (h : step s = .next t) : ∃ u, BodyRuns s w u ∧ Ticked u t := by
  obtain ⟨-, v, hv, hbody⟩ := step_next.mp h
  obtain ⟨-, hwv⟩ := State.fetch_ok.mp hv
  obtain rfl : v = w := BitVec.eq_of_toNat_eq (hwv.trans hw.symm)
  obtain ⟨i, u, hd, hu, rfl⟩ | ⟨nnn, u, hd, hu, rfl⟩ := hbody
  · exact ⟨u, .inl ⟨i, hd, hu⟩, u.endStep_ticked⟩
  · exact ⟨u, .inr ⟨nnn, hd, hu⟩, u.endStep_ticked⟩

theorem BodyRuns.exec_next {i : Instr} (h : BodyRuns s w u) (hd : decode s.config w = .instr i) : exec i s = .next u := by
  obtain ⟨j, hj, hu⟩ | ⟨nnn, hsys, -⟩ := h
  · cases hd.symm.trans hj; exact hu
  · cases hd.symm.trans hsys

/-- The body leaves a part that the instruction, if the word is one, does not write. -/
theorem BodyRuns.kept {p : Part} (h : BodyRuns s w u) (hp : ∀ i, decode s.config w = .instr i → p ∉ writtenParts i) :
    p.Kept s u := by
  obtain ⟨i, hd, hu⟩ | ⟨nnn, -, hu⟩ := h
  · exact (exec_frame hu).part p (hp i hd)
  · cases hu; exact (s.advance_frame 2).part p List.not_mem_nil

theorem BodyRuns.beep_eq (h : BodyRuns s w u) : u.beep = s.beep := h.kept (p := .beep) fun _ _ => beep_notMem_writtenParts

theorem BodyRuns.DT_eq (h : BodyRuns s w u) (hne : ∀ x, decode s.config w ≠ .instr (.ldDtVx x)) : u.DT = s.DT :=
  h.kept (p := .delay) fun _ hd hp => by
    obtain ⟨x, rfl⟩ := delay_mem_writtenParts.mp hp
    exact hne x hd

theorem BodyRuns.ST_eq (h : BodyRuns s w u) (hne : ∀ x, decode s.config w ≠ .instr (.ldStVx x)) : u.ST = s.ST :=
  h.kept (p := .sound) fun _ hd hp => by
    obtain ⟨x, rfl⟩ := sound_mem_writtenParts.mp hp
    exact hne x hd

/-- `LD DT, Vx` sets the count that the step's tick takes down (R185). -/
theorem BodyRuns.DT_of_ldDtVx {x : Nibble} (h : BodyRuns s w u) (hd : decode s.config w = .instr (.ldDtVx x)) : u.DT = s.reg x := by
  cases h.exec_next hd; rfl

/-- `LD ST, Vx` sets the count that the step's tick takes down (R186). -/
theorem BodyRuns.ST_of_ldStVx {x : Nibble} (h : BodyRuns s w u) (hd : decode s.config w = .instr (.ldStVx x)) : u.ST = s.reg x := by
  cases h.exec_next hd; rfl

/-- Only `CLS` and `DRW` change `redraw`, and both set it (R36, R110, R111). -/
theorem BodyRuns.redraw_of_ne (h : BodyRuns s w u) (hne : u.redraw ≠ s.redraw) :
    u.redraw = true ∧ (decode s.config w = .instr .cls ∨ ∃ x y n, decode s.config w = .instr (.drw x y n)) := by
  obtain ⟨i, hd, hu⟩ | ⟨nnn, -, hu⟩ := h
  · refine ⟨(exec_redraw hu).resolve_left hne, ?_⟩
    obtain rfl | ⟨x, y, n, rfl⟩ := redraw_mem_writtenParts.mp (mem_writtenParts_of_exec (p := .redraw) hu hne)
    · exact .inl hd
    · exact .inr ⟨x, y, n, hd⟩
  · cases hu; exact absurd rfl hne

theorem Ticked.redraw_eq (h : Ticked u t) : t.redraw = u.redraw := by
  obtain ⟨-, -, -, -, -, -, -, -, -, hsame⟩ := h
  exact hsame .redraw (by decide)

/-- The tick only ever sets `beep`, as the sound timer reaches 0 (R211). -/
theorem Ticked.beep_of_ne (h : Ticked u t) (hne : t.beep ≠ u.beep) : t.beep = true ∧ t.ST = 0 := by
  obtain ⟨-, hST, hbeep, -⟩ := h
  cases hu : u.beep with
  | true => exact absurd ((hbeep.mpr (.inl hu)).trans hu.symm) hne
  | false =>
    have hset : t.beep = true := Bool.eq_true_of_not_eq_false fun ht => hne (ht.trans hu.symm)
    have hone : u.ST.toNat = 1 := (hbeep.mp hset).resolve_left (by simp [hu])
    exact ⟨hset, BitVec.eq_of_toNat_eq (by rw [hST, hone]; rfl)⟩

end

/-- Settles O45: the tick takes down the counts that the body leaves, and the body leaves `beep`. -/
theorem timersCountCompletedSteps : Obligations.TimersCountCompletedSteps := by
  unfold Obligations.TimersCountCompletedSteps
  intro s t w hw h
  obtain ⟨u, hbody, hDT, hST, hbeep, -⟩ := step_bodyRuns_ticked hw h
  rw [hbody.beep_eq] at hbeep
  refine ⟨fun x hd => ?_, fun hne => ?_, fun x hd => ?_, fun hne => ?_⟩
  · rw [← hbody.DT_of_ldDtVx hd]; exact hDT
  · rw [← hbody.DT_eq hne]; exact hDT
  · rw [← hbody.ST_of_ldStVx hd]; exact ⟨hST, hbeep⟩
  · rw [← hbody.ST_eq hne]; exact ⟨hST, hbeep⟩

/-! The signals under the host's actions. -/

/-- A program load leaves the state's every part but memory (R231). -/
theorem State.load_frame (s : State) (image : List Byte) : Frame [] [.memory] s (s.load image).1 := by
  unfold State.load
  split
  · exact s.storeBytes_frame progBase image
  · exact (Frame.refl s).mono (List.nil_subset _) (List.nil_subset _)

/-- A host action other than construction and a step changes a signal only by clearing it (R220). -/
theorem Session.act_signals {p q : Session} {a : HostAction} {r : Reply} (hact : Session.act a p = .ok (q, r))
    (hconstruct : a ≠ .construct) (hstep : ∀ b, a ≠ .step b) :
    (a ≠ .clearRedraw → q.block.redraw = p.block.redraw) ∧ (a ≠ .clearBeep → q.block.beep = p.block.beep) := by
  unfold Session.act at hact
  cases a with
  | construct => exact absurd rfl hconstruct
  | step b => exact absurd rfl (hstep b)
  | load image =>
    dsimp only at hact
    have hframe := p.block.load_frame image
    split at hact
    · cases hact; exact ⟨fun _ => hframe.part .redraw (by decide), fun _ => hframe.part .beep (by decide)⟩
    · cases hact
  | writeKey k v =>
    dsimp only at hact
    split at hact
    · cases hact; exact ⟨fun _ => rfl, fun _ => rfl⟩
    · cases hact
  | clearRedraw => cases hact; exact ⟨fun hne => absurd rfl hne, fun _ => rfl⟩
  | clearBeep => cases hact; exact ⟨fun _ => rfl, fun hne => absurd rfl hne⟩

/-- Settles O54: the two clears by what they answer; over a step the body sets `redraw` and the tick sets `beep`. -/
theorem hostClearsSignalsAndSetsNone : Obligations.HostClearsSignalsAndSetsNone := by
  unfold Obligations.HostClearsSignalsAndSetsNone
  refine ⟨fun p => ⟨_, rfl, rfl⟩, fun p => ⟨_, rfl, rfl⟩, fun p q a r => Session.act_signals, fun s t w hw h => ?_⟩
  obtain ⟨u, hbody, htick⟩ := step_bodyRuns_ticked hw h
  rw [htick.redraw_eq, ← hbody.beep_eq]
  exact ⟨hbody.redraw_of_ne, htick.beep_of_ne⟩

end Sys2Proof.Machine
end

section
/-! Reset and hazards: when a step completes, the program load and the order of the host's actions, and the invariant of the
constructed block (R230 to R236). -/

namespace Sys2Proof.Machine

/-! When a step completes. -/

section
variable {s : State}

/-- An instruction completes exactly where its rule raises nothing (R99, R200). -/
theorem exec_completes_iff {i : Instr} : (∃ t, exec i s = .next t) ↔ ∀ f, ¬OwnFault i s f := by
  refine ⟨fun ⟨t, ht⟩ f hf => ?_, (execFaultsExactlyAsItsRuleSays i s).2⟩
  cases ht.symm.trans (exec_fault.mpr hf)

/-- `SYS` raises nothing, and an undecodable word always does (R78, R92, R201). -/
theorem runDecoded_completes_iff {d : Decoded} : (∃ t, runDecoded d s = .next t) ↔
    (∃ nnn, d = .sys nnn) ∨ ∃ i, d = .instr i ∧ ∀ f, ¬OwnFault i s f := by
  cases d with
  | instr i => simp [runDecoded, finish_next, ← exec_completes_iff]
  | sys nnn => simp [runDecoded, execSys, finish]
  | undecodable v family => simp [runDecoded, raise]

end

/-- The two bytes at `pc` are always some word (R52). -/
theorem exists_wordAtPc (s : State) : ∃ w, WordAtPc s w := ⟨_, wordOfBytes_toNat _ _⟩

/-- Settles O10: a step that completes has passed the status and the fetch, and then what decode gave completes. -/
theorem stepCompletesExactlyWhenReady : Obligations.StepCompletesExactlyWhenReady := by
  unfold Obligations.StepCompletesExactlyWhenReady
  refine fun s => ⟨fun ⟨t, h⟩ => ?_, fun ⟨hs, hf, hbody⟩ => ?_⟩
  · obtain ⟨hs, v, hv, -⟩ := step_next.mp h
    obtain ⟨hf, -⟩ := State.fetch_ok.mp hv
    refine ⟨hs, hf, fun w hw => runDecoded_completes_iff.mp ⟨t, ?_⟩⟩
    rw [← step_of_wordAtPc hs hf hw, h]
  · obtain ⟨w, hw⟩ := exists_wordAtPc s
    rw [step_of_wordAtPc hs hf hw]
    exact runDecoded_completes_iff.mpr (hbody w hw)

/-! The program load. -/

section
variable {s : State} {image : List Byte}

theorem imageWellFormed_iff : imageWellFormed image = true ↔ image.length ≤ 3584 := decide_eq_true_iff

/-- The largest image ends where the address space does (R6, R231). -/
theorem image_end_le (hlen : image.length ≤ 3584) : progBase + image.length ≤ memSize := Nat.add_le_add_left hlen progBase

theorem State.load_of_fits (hlen : image.length ≤ 3584) : s.load image = (s.storeBytes progBase image, .ok) :=
  if_pos (imageWellFormed_iff.mpr hlen)

theorem State.load_of_too_large (hlen : 3584 < image.length) : s.load image = (s, .fault (.programTooLarge image.length)) :=
  if_neg fun hwf => absurd (imageWellFormed_iff.mp hwf) (Nat.not_le.mpr hlen)

end

/-! The phases of a session. -/

section
variable {p q : Session} {a : HostAction} {r : Reply}

/-- A load is admitted in the phase after construction alone (R231, D31). -/
theorem Session.act_load_admitted_iff (image : List Byte) :
    p.phase = .constructed ↔ ∃ q r, Session.act (.load image) p = .ok (q, r) := by
  unfold Session.act
  by_cases h : p.phase = .constructed <;> simp [h]

theorem phaseAfterLoad_ne_constructed (r : Reply) : phaseAfterLoad r ≠ .constructed := by cases r <;> nofun

/-- An action other than construction that ends in the constructed phase began there, and is no load and no step (R233, D31). -/
theorem Session.act_ends_constructed (hact : Session.act a p = .ok (q, r)) (hne : a ≠ .construct) (hq : q.phase = .constructed) :
    p.phase = .constructed ∧ (∀ image, a ≠ .load image) ∧ ∀ b, a ≠ .step b := by
  unfold Session.act at hact
  cases a with
  | construct => exact absurd rfl hne
  | load image =>
    dsimp only at hact
    split at hact
    · cases hact; exact absurd hq (phaseAfterLoad_ne_constructed _)
    · cases hact
  | step b =>
    dsimp only at hact
    split at hact
    · cases hact
    · cases hact; cases hq
  | writeKey k v =>
    dsimp only at hact
    split at hact
    · cases hact; exact ⟨hq, nofun, nofun⟩
    · cases hact
  | clearRedraw | clearBeep => cases hact; exact ⟨hq, nofun, nofun⟩

end

/-- Settles O53: the load is a store of the image's bytes, admitted in the one phase that no load and no step leaves in place. -/
theorem loadCopiesTheImageOnce : Obligations.LoadCopiesTheImageOnce := by
  unfold Obligations.LoadCopiesTheImageOnce
  refine ⟨fun s image hm hlen => ?copied, fun s image => State.load_of_too_large,
    fun p image => Session.act_load_admitted_iff image, fun p q a r hact hne hleft hq => ?phase⟩
  case copied =>
    have hend := image_end_le hlen
    exact ⟨_, State.load_of_fits hlen, (s.storeBytes_frame progBase image).changesOnly, s.storeBytes_pc progBase image,
      fun k hk => State.byteAt_storeBytes_stored hm hend hk, fun a ha => State.byteAt_storeBytes_outside hm hend ha⟩
  case phase =>
    obtain ⟨hp, hload, hstep⟩ := Session.act_ends_constructed hact hne hq
    obtain hp' | ⟨image, rfl⟩ | ⟨b, rfl⟩ := hleft
    · exact hp' hp
    · exact hload image rfl
    · exact hstep b rfl

/-! The constructed block. -/

/-- Settles O56: reset is construction under the default configuration. -/
theorem invariantHoldsAtReset : Obligations.InvariantHoldsAtReset := by
  unfold Obligations.InvariantHoldsAtReset
  exact ⟨State.construct_inv, State.construct_inv Config.default⟩

end Sys2Proof.Machine
end
